-- ==== Sys2Proof/Word.lean ====
section
/-! DEFINITION. The plainest types of ETR-1: bytes and byte strings (R7), ticks (R11), the units and their ports
(R6), and one input transaction (R61, R62, R180, R188). -/

namespace Sys2Proof

/-- One stream byte, format B8 (R62). -/
abbrev Byte := BitVec 8

/-- A byte string (R7): `""` is `[]`, `s ++ t` concatenation, `s[i:]` is `drop i`. -/
abbrev Bytes := List Byte

/-- A tick or an interval: 32 bits unsigned (R64, R90). -/
abbrev Tick := BitVec 32

/-- A unit with an `edge` input port: an ETD or a PLS (R6), by its number among the units of its kind. -/
inductive EdgeUnit where
  | etd (n : Nat)
  | pls (n : Nat)
  deriving DecidableEq, Repr

/-- Any unit: every one has the control input `reset` (R180). -/
inductive UnitRef where
  | etd (n : Nat)
  | pls (n : Nat)
  | tel (n : Nat)
  deriving DecidableEq, Repr

/-- One input transaction as the host delivers it: an EV33 word on an `edge` port (R61), a B8 word on a `byte` port
(R62), or a control input (R180, R188). -/
inductive Transaction where
  | edge (u : EdgeUnit) (w : BitVec 33)
  | byte (n : Nat) (b : Byte)
  | reset (u : UnitRef)
  | cancel (u : UnitRef)
  deriving DecidableEq, Repr

end Sys2Proof
end

