-- ==== Sys2Proof/Config.lean ====
section
/-! DEFINITION. The implementation parameters of ETR-1 (R5). "Fixed" and "decided" parameters are constants with the
spec's value; the parameters the spec leaves OPEN are constants with the spec's value too, and every operation that
depends on one takes it as an argument. ETR-1 has no free value: whatever the source leaves open, 92_eei_decisions
decides. -/

namespace Sys2Proof.Config

/-- How a kWh token is scaled (R5 `KWH_SCALE_MODE`, U6). -/
inductive KwhScaleMode where
  | exactDecimal
  | binary64
  deriving DecidableEq, Repr

/-- `FRAME_BITS`: bits per sensor frame (R5). -/
abbrev frameBits : BitVec 8 := 40
/-- `SENTINEL`: `bitsSeen` after a sync, −2 in 8 bits two's complement (R5, R15). -/
abbrev sentinel : BitVec 8 := 0xFE
/-- `SYNC_MIN`: a sync interval is greater than this (R5, R101). -/
abbrev syncMin : Nat := 10000
/-- `ZERO_LO`, inclusive (R5, R104). -/
abbrev zeroLo : Nat := 60
/-- `ZERO_HI`, inclusive (R5, R104). -/
abbrev zeroHi : Nat := 100
/-- `ONE_LO`, exclusive (R5, R105). -/
abbrev oneLo : Nat := 100
/-- `ONE_HI`, exclusive (R5, R105). -/
abbrev oneHi : Nat := 150
/-- `HUM_MAX` in tenths of a percent (R5, R110). -/
abbrev humMax : Nat := 1100
/-- `TEMP_MIN` in tenths of a degree (R5, R111). -/
abbrev tempMin : Int := -500
/-- `TEMP_MAX` in tenths of a degree (R5, R111). -/
abbrev tempMax : Int := 1350
/-- `PULSE_MIN`: a pulse's interval is greater than this (R5, R120). -/
abbrev pulseMin : Nat := 1000000
/-- `CRC_POLY` (R5, R170). -/
abbrev crcPoly : BitVec 16 := 0x8005
/-- `CRC_POLY` with its 16 bits reversed, the constant of the right-shifting form (R170). -/
abbrev crcPolyReflected : BitVec 16 := 0xA001
/-- `CRC_INIT` (R5, R170). -/
abbrev crcInit : BitVec 16 := 0x0000
/-- `CRC_XOROUT` (R5, R170). -/
abbrev crcXorOut : BitVec 16 := 0x0000
/-- `EOL`: the line separator, LF (R5, D11). -/
def eol : Byte := 0x0A
/-- `WS`: the whitespace trimmed from lines: HT, LF, VT, FF, CR, space (R5, R67, D11). -/
def ws : List Byte := [0x09, 0x0A, 0x0B, 0x0C, 0x0D, 0x20]
/-- `RAW_INCLUDES_START`: the start line is part of `rawFrame` (R5, R133, D14). -/
abbrev rawIncludesStart : Bool := true
/-- `KWH_SCALE_MODE` (R5, D19). -/
abbrev kwhScaleMode : KwhScaleMode := .exactDecimal
/-- `LINE_MAX`: capacity of `lineBuf`; `none` is "unbounded", the spec's value (R5, R42, D25). -/
abbrev lineMax : Option Nat := none
/-- `FRAME_MAX`: capacity of `rawFrame` (R5, R42, D25). -/
abbrev frameMax : Option Nat := none
/-- `STR_MAX`: capacity of `header` and of `eid` (R5, R42, D25). -/
abbrev strMax : Option Nat := none
/-- The packet's integer fields hold only values below this, 2^63 (R5 `INT_W`, D20). -/
abbrev intLimit : Nat := 2 ^ 63

/-- Whether a byte string of this length fits a capacity (R42). -/
def fits : Option Nat → Nat → Bool
  | none, _ => true
  | some cap, len => decide (len ≤ cap)

end Sys2Proof.Config
end

