-- ==== Sys2Proof/Syntax.lean ====
section
/-! DEFINITION. The operations of ETR-1: one constructor per row of spec/opcode_table.json, in the table's order. An
operation is one classified input (R1); `n` is the number of the unit whose port the input arrived on, `u` the same
where more than one kind of unit has the port. -/

namespace Sys2Proof

/-- The operation classes (R60). -/
inductive Instr where
  /-- EDGE.FIRST (R91): the first edge event of a unit. -/
  | edgeFirst (u : EdgeUnit) (level : Bool) (tick : Tick)
  /-- EDGE.NEXT (R92): every later edge event; performs the unit's level-2 class. -/
  | edgeNext (u : EdgeUnit) (level : Bool) (tick : Tick)
  /-- SYNC (R101). -/
  | sync (n : Nat) (ivl : Tick)
  /-- IDLE (R102). -/
  | idle (n : Nat) (ivl : Tick)
  /-- PRE (R103). -/
  | pre (n : Nat) (ivl : Tick)
  /-- BIT0 (R104). -/
  | bit0 (n : Nat) (ivl : Tick)
  /-- BIT1 (R105). -/
  | bit1 (n : Nat) (ivl : Tick)
  /-- INV (R106). -/
  | inv (n : Nat) (ivl : Tick)
  /-- DONE (R107): no input selects it; performed inside BIT0 and BIT1. -/
  | done (n : Nat)
  /-- PULSE (R120): its `level` bit is 1. -/
  | pulse (n : Nat) (ivl : Tick)
  /-- DEBOUNCE (R121). -/
  | debounce (n : Nat) (level : Bool) (ivl : Tick)
  /-- BYTE.EOL (R131): its byte is 0x0A. -/
  | byteEol (n : Nat)
  /-- BYTE.DATA (R130). -/
  | byteData (n : Nat) (b : Byte)
  /-- LINE.START (R133): the line is `'/'` followed by `header`. -/
  | lineStart (n : Nat) (header : Bytes)
  /-- LINE.SKIP (R136). -/
  | lineSkip (n : Nat) (line : Bytes)
  /-- LINE.END (R134): the line is `'!'` followed by `digits`. -/
  | lineEnd (n : Nat) (digits : Bytes)
  /-- LINE.CONTENT (R135). -/
  | lineContent (n : Nat) (line : Bytes)
  /-- LINE.NOMATCH (R135): a content line that does not match the field grammar. -/
  | lineNomatch (n : Nat) (line : Bytes)
  /-- FIELD.EID (R152): the line is `oid(value1)` and the further groups. -/
  | fieldEid (n : Nat) (value1 : Bytes) (groups : List Bytes)
  /-- FIELD.TARIFF (R153). -/
  | fieldTariff (n : Nat) (value1 : Bytes) (groups : List Bytes)
  /-- FIELD.LOW (R154). -/
  | fieldLow (n : Nat) (value1 : Bytes) (groups : List Bytes)
  /-- FIELD.HIGH (R155). -/
  | fieldHigh (n : Nat) (value1 : Bytes) (groups : List Bytes)
  /-- FIELD.CURRENT (R156). -/
  | fieldCurrent (n : Nat) (value1 : Bytes) (groups : List Bytes)
  /-- FIELD.GAS (R157), identifier `1-1:24.2.1`. -/
  | fieldGas1 (n : Nat) (value1 : Bytes) (groups : List Bytes)
  /-- FIELD.GAS (R157), identifier `1-2:24.2.1`. -/
  | fieldGas2 (n : Nat) (value1 : Bytes) (groups : List Bytes)
  /-- FIELD.GAS (R157), identifier `1-3:24.2.1`. -/
  | fieldGas3 (n : Nat) (value1 : Bytes) (groups : List Bytes)
  /-- FIELD.GAS (R157), identifier `1-4:24.2.1`. -/
  | fieldGas4 (n : Nat) (value1 : Bytes) (groups : List Bytes)
  /-- FIELD.OTHER (R158): an identifier that is not in the dispatch table. -/
  | fieldOther (n : Nat) (oid : Bytes) (value1 : Bytes) (groups : List Bytes)
  /-- CRC.BYTE (R170): one byte into the CRC register of TEL unit `n`. -/
  | crcByte (n : Nat) (b : Byte)
  /-- RESET (R180). -/
  | reset (u : UnitRef)
  /-- CANCEL (R188). -/
  | cancel (u : UnitRef)
  deriving DecidableEq, Repr

end Sys2Proof
end

