-- ==== Sys2Proof/Decode.lean ====
section
/-! DEFINITION. Decoding, level by level (R60): the class tables of 30_encoding, the line and field grammars, the
decoder of one word of any format given as bytes, and after it the encoder. -/

namespace Sys2Proof

/-! ## Characters and byte strings (R7) -/

/-- `'/'`. -/
def chSlash : Byte := 0x2F
/-- `'!'`. -/
def chBang : Byte := 0x21
/-- `'('`. -/
def chOpen : Byte := 0x28
/-- `')'`. -/
def chClose : Byte := 0x29
/-- `'.'`. -/
def chDot : Byte := 0x2E
/-- `CRLF` (R7). -/
def crlf : Bytes := [0x0D, 0x0A]

/-- Membership of the whitespace set `WS` (R67). -/
def isWs (b : Byte) : Bool := Config.ws.contains b

/-- `trim` (R67): whitespace removed from the front, then from the back. -/
def trim (s : Bytes) : Bytes :=
  ((s.dropWhile isWs).reverse.dropWhile isWs).reverse

/-- `digit` (R73): `'0'..'9'`. -/
def isDigit (b : Byte) : Bool := decide (0x30 ≤ b.toNat) && decide (b.toNat ≤ 0x39)

/-- `idch` (R69): a digit, `'-'`, `':'` or `'.'`. -/
def isIdch (b : Byte) : Bool := isDigit b || b == 0x2D || b == 0x3A || b == 0x2E

/-- `vch` (R69): any byte except the parentheses. -/
def isVch (b : Byte) : Bool := b != chOpen && b != chClose

/-! ## EV33 words (R61) -/

/-- The EV33 word `{level, tick}`: `level` in bit 32, `tick` in bits 31:0 (R61). -/
def ev33 (level : Bool) (tick : Tick) : BitVec 33 := BitVec.ofBool level ++ tick

/-- The `level` bit of an EV33 word. -/
def ev33Level (w : BitVec 33) : Bool := w.msb

/-- The `tick` field of an EV33 word. -/
def ev33Tick (w : BitVec 33) : Tick := w.setWidth 32

/-! ## Level 2 of ETD and PLS (R64 to R66) -/

/-- The classes of an ETD interval (R65); DONE is not selected by an input. -/
inductive IvlClass where
  | sync | idle | pre | bit0 | bit1 | inv
  deriving DecidableEq, Repr

/-- The class of an ETD interval, by the order of tests of R100 and R195: the sync test, then `inCode`, then the
incremented `bitsSeen` (signed), then the ranges. In the reachable states this is the table of R65. DEDUCED for
`inCode = 1` with `bitsSeen` outside −2 .. 39, which no run reaches (log 5). -/
def ivlClass (inCode : Bool) (bitsSeen : BitVec 8) (ivl : Tick) : IvlClass :=
  if Config.syncMin < ivl.toNat then .sync
  else if inCode = false then .idle
  else if (bitsSeen + 1).toInt < 1 then .pre
  else if Config.zeroLo ≤ ivl.toNat ∧ ivl.toNat ≤ Config.zeroHi then .bit0
  else if Config.oneLo < ivl.toNat ∧ ivl.toNat < Config.oneHi then .bit1
  else .inv

/-- The operation of a class on unit `n` (R65). -/
def IvlClass.toInstr (n : Nat) (ivl : Tick) : IvlClass → Instr
  | .sync => .sync n ivl
  | .idle => .idle n ivl
  | .pre => .pre n ivl
  | .bit0 => .bit0 n ivl
  | .bit1 => .bit1 n ivl
  | .inv => .inv n ivl

/-- The classes of a PLS interval (R66). -/
inductive PlsClass where
  | pulse | debounce
  deriving DecidableEq, Repr

/-- The class of a PLS interval (R66). -/
def plsClass (level : Bool) (ivl : Tick) : PlsClass :=
  if level = true ∧ Config.pulseMin < ivl.toNat then .pulse else .debounce

/-- The operation of a class on unit `n` (R66). -/
def PlsClass.toInstr (n : Nat) (level : Bool) (ivl : Tick) : PlsClass → Instr
  | .pulse => .pulse n ivl
  | .debounce => .debounce n level ivl

/-! ## Level 2 of TEL: lines (R68) -/

/-- The classes of a line (R68). -/
inductive LineClass where
  | start | skip | finish | content
  deriving DecidableEq, Repr

/-- The class of a trimmed line, by `reading` and the line's first byte (R68, R195). -/
def lineClass (reading : Bool) (line : Bytes) : LineClass :=
  if reading = false then
    if line.head? = some chSlash then .start else .skip
  else
    if line.head? = some chBang then .finish else .content

/-- The operation of a line class on unit `n`; LINE.START and LINE.END carry what follows the first byte. -/
def LineClass.toInstr (n : Nat) (line : Bytes) : LineClass → Instr
  | .start => .lineStart n (line.drop 1)
  | .skip => .lineSkip n line
  | .finish => .lineEnd n (line.drop 1)
  | .content => .lineContent n line

/-! ## Level 3 of TEL: fields (R69 to R72) -/

/-- The parts of a line that matches the field grammar (R69): `oid`, the content of the first group (R71), and the
contents of the further groups. -/
structure FieldLine where
  oid : Bytes
  value1 : Bytes
  groups : List Bytes
  deriving DecidableEq, Repr

/-- The contents of `group { group }` (R69), or nothing if the string does not have that shape. The first argument
is the content read so far of an open group, reversed; `none` between groups. -/
def scanGroups : Option Bytes → Bytes → Option (List Bytes)
  | none, [] => some []
  | none, b :: rest => if b = chOpen then scanGroups (some []) rest else none
  | some _, [] => none
  | some acc, b :: rest =>
    if b = chClose then (scanGroups none rest).map (acc.reverse :: ·)
    else if b = chOpen then none
    else scanGroups (some (b :: acc)) rest

/-- The field grammar (R69): the maximal prefix of identifier bytes (R70), not empty, then one or more groups and
nothing else. -/
def parseField (line : Bytes) : Option FieldLine :=
  let oid := line.takeWhile isIdch
  if oid = [] then none
  else match scanGroups none (line.dropWhile isIdch) with
    | some (value1 :: groups) => some ⟨oid, value1, groups⟩
    | _ => none

/-- The field classes; FIELD.GAS once per identifier (R72). -/
inductive FieldKind where
  | eid | tariff | low | high | current | gas1 | gas2 | gas3 | gas4 | other
  deriving DecidableEq, Repr

/-- `0-0:96.1.1` (R72). -/
def oidEid : Bytes := [0x30, 0x2D, 0x30, 0x3A, 0x39, 0x36, 0x2E, 0x31, 0x2E, 0x31]
/-- `0-0:96.14.0` (R72). -/
def oidTariff : Bytes := [0x30, 0x2D, 0x30, 0x3A, 0x39, 0x36, 0x2E, 0x31, 0x34, 0x2E, 0x30]
/-- `1-0:1.8.1` (R72). -/
def oidLow : Bytes := [0x31, 0x2D, 0x30, 0x3A, 0x31, 0x2E, 0x38, 0x2E, 0x31]
/-- `1-0:1.8.2` (R72). -/
def oidHigh : Bytes := [0x31, 0x2D, 0x30, 0x3A, 0x31, 0x2E, 0x38, 0x2E, 0x32]
/-- `1-0:1.7.0` (R72). -/
def oidCurrent : Bytes := [0x31, 0x2D, 0x30, 0x3A, 0x31, 0x2E, 0x37, 0x2E, 0x30]
/-- `1-1:24.2.1` (R72). -/
def oidGas1 : Bytes := [0x31, 0x2D, 0x31, 0x3A, 0x32, 0x34, 0x2E, 0x32, 0x2E, 0x31]
/-- `1-2:24.2.1` (R72). -/
def oidGas2 : Bytes := [0x31, 0x2D, 0x32, 0x3A, 0x32, 0x34, 0x2E, 0x32, 0x2E, 0x31]
/-- `1-3:24.2.1` (R72). -/
def oidGas3 : Bytes := [0x31, 0x2D, 0x33, 0x3A, 0x32, 0x34, 0x2E, 0x32, 0x2E, 0x31]
/-- `1-4:24.2.1` (R72). -/
def oidGas4 : Bytes := [0x31, 0x2D, 0x34, 0x3A, 0x32, 0x34, 0x2E, 0x32, 0x2E, 0x31]

/-- The field dispatch table (R72), constant. -/
def dispatchTable : List (Bytes × FieldKind) :=
  [(oidEid, .eid), (oidTariff, .tariff), (oidLow, .low), (oidHigh, .high), (oidCurrent, .current),
   (oidGas1, .gas1), (oidGas2, .gas2), (oidGas3, .gas3), (oidGas4, .gas4)]

/-- The class of an object identifier: whole and exact comparison (R70, R72). -/
def fieldKind (oid : Bytes) : FieldKind := (dispatchTable.lookup oid).getD .other

/-- The operation of a matching line on unit `n` (R72). -/
def FieldKind.toInstr (n : Nat) (f : FieldLine) : FieldKind → Instr
  | .eid => .fieldEid n f.value1 f.groups
  | .tariff => .fieldTariff n f.value1 f.groups
  | .low => .fieldLow n f.value1 f.groups
  | .high => .fieldHigh n f.value1 f.groups
  | .current => .fieldCurrent n f.value1 f.groups
  | .gas1 => .fieldGas1 n f.value1 f.groups
  | .gas2 => .fieldGas2 n f.value1 f.groups
  | .gas3 => .fieldGas3 n f.value1 f.groups
  | .gas4 => .fieldGas4 n f.value1 f.groups
  | .other => .fieldOther n f.oid f.value1 f.groups

/-- `'('`, the content, `')'` (R69). -/
def groupText (v : Bytes) : Bytes := chOpen :: (v ++ [chClose])

/-- The text of a matching line (R69). -/
def fieldText (oid value1 : Bytes) (groups : List Bytes) : Bytes :=
  oid ++ groupText value1 ++ groups.flatMap groupText

/-! ## The decoder of each level -/

/-- The control state the selection of a class reads (R60): of the unit whose port the word is on. A field of another
kind of unit is not read. -/
structure Control where
  prevValid : Bool
  inCode : Bool
  bitsSeen : BitVec 8
  reading : Bool
  deriving DecidableEq, Repr

/-- The control state after reset (R29). -/
def Control.reset : Control := ⟨false, false, Config.sentinel, false⟩

/-- Level 1 of ETD and PLS (R60): one `edge` transaction. -/
def decodeEdge (u : EdgeUnit) (prevValid : Bool) (w : BitVec 33) : Instr :=
  if prevValid = false then .edgeFirst u (ev33Level w) (ev33Tick w)
  else .edgeNext u (ev33Level w) (ev33Tick w)

/-- Level 2 of ETD (R65). -/
def decodeIvl (n : Nat) (inCode : Bool) (bitsSeen : BitVec 8) (ivl : Tick) : Instr :=
  (ivlClass inCode bitsSeen ivl).toInstr n ivl

/-- Level 2 of PLS (R66). -/
def decodePls (n : Nat) (level : Bool) (ivl : Tick) : Instr :=
  (plsClass level ivl).toInstr n level ivl

/-- Level 1 of TEL (R62). -/
def decodeByte (n : Nat) (b : Byte) : Instr :=
  if b = Config.eol then .byteEol n else .byteData n b

/-- Level 2 of TEL (R68). -/
def decodeLine (n : Nat) (reading : Bool) (line : Bytes) : Instr :=
  (lineClass reading line).toInstr n line

/-- Level 3 of TEL (R60): a content line. -/
def decodeContent (n : Nat) (line : Bytes) : Instr :=
  match parseField line with
  | none => .lineNomatch n line
  | some f => (fieldKind f.oid).toInstr n f

/-- One input transaction: every one is accepted (R77). -/
def decodeTransaction (c : Control) : Transaction → Instr
  | .edge u w => decodeEdge u c.prevValid w
  | .byte n b => decodeByte n b
  | .reset u => .reset u
  | .cancel u => .cancel u

/-! ## Words as bytes -/

/-- The low `k` bytes of a number, least significant first. DESIGN CHOICE: the spec numbers the bits of a word and lays
no word out in bytes (log 9). -/
def leBytes : Nat → Nat → Bytes
  | 0, _ => []
  | k + 1, w => BitVec.ofNat 8 w :: leBytes k (w / 256)

/-- The number a little-endian byte string stands for. -/
def leNat : Bytes → Nat
  | [] => 0
  | b :: rest => b.toNat + 256 * leNat rest

/-- Where a word is presented: a port of a unit, or the place inside a step where a nested class is selected (R60). The
formats are those of the opcode table: EV33 on `edge`, IVL32 on `ivl`, IVL32+level on `pulse`, B8 on `byte`, LINE on
`line`, LINE or FIELD on `content`, "B8 on a 16-bit register" on `crc`, none on `done`, control on the last two. -/
inductive Port where
  | edge (u : EdgeUnit)
  | ivl (n : Nat)
  | pulse (n : Nat)
  | byte (n : Nat)
  | line (n : Nat)
  | content (n : Nat)
  | crc (n : Nat)
  | done (n : Nat)
  | reset (u : UnitRef)
  | cancel (u : UnitRef)
  deriving DecidableEq, Repr

/-- Why the decoder rejects a byte string. No input transaction is ever rejected (R77): these reject byte strings that
are not a word of the port's format. -/
inductive Reject where
  /-- The byte string does not have the length of the port's format. -/
  | wrongLength
  /-- A bit above the 33 of the format is set. -/
  | padBits
  /-- The port carries no data word, and one was given (R180). -/
  | noDataWord
  /-- A LINE is a trimmed byte string (R67, R68). -/
  | notTrimmed
  /-- A content line does not begin with `'!'` (R68). -/
  | notContent
  /-- Nothing is selected at this place in this control state: DONE outside `inCode = 1`, `bitsSeen = 40` (R107); a
  content line while `reading = 0` (R68). -/
  | notSelected
  deriving DecidableEq, Repr

/-- A 33-bit word from five bytes, the seven bits above it zero. -/
def word33 (bs : Bytes) : Except Reject (BitVec 33) :=
  if bs.length ≠ 5 then .error .wrongLength
  else if leNat bs < 2 ^ 33 then .ok (BitVec.ofNat 33 (leNat bs))
  else .error .padBits

/-- A 32-bit word from four bytes. -/
def word32 (bs : Bytes) : Except Reject Tick :=
  if bs.length ≠ 4 then .error .wrongLength else .ok (BitVec.ofNat 32 (leNat bs))

/-- An 8-bit word from one byte. -/
def word8 : Bytes → Except Reject Byte
  | [b] => .ok b
  | _ => .error .wrongLength

/-- A LINE word. -/
def wordLine (bs : Bytes) : Except Reject Bytes :=
  if trim bs = bs then .ok bs else .error .notTrimmed

/-- A content line. -/
def wordContent (reading : Bool) (bs : Bytes) : Except Reject Bytes :=
  if reading = false then .error .notSelected
  else if bs.head? = some chBang then .error .notContent
  else wordLine bs

/-- A port without a data word. -/
def noWord (i : Instr) : Bytes → Except Reject Instr
  | [] => .ok i
  | _ :: _ => .error .noDataWord

/-- The decoder: the operation that a word presented at a port selects in a control state (R60). Total on any bytes. -/
def decode (p : Port) (c : Control) (bs : Bytes) : Except Reject Instr :=
  match p with
  | .edge u => (word33 bs).map (decodeEdge u c.prevValid)
  | .ivl n => (word32 bs).map (decodeIvl n c.inCode c.bitsSeen)
  | .pulse n => (word33 bs).map fun w => decodePls n (ev33Level w) (ev33Tick w)
  | .byte n => (word8 bs).map (decodeByte n)
  | .line n => (wordLine bs).map (decodeLine n c.reading)
  | .content n => (wordContent c.reading bs).map (decodeContent n)
  | .crc n => (word8 bs).map (Instr.crcByte n)
  | .done n =>
    if c.inCode = true ∧ c.bitsSeen = Config.frameBits then noWord (.done n) bs else .error .notSelected
  | .reset u => noWord (.reset u) bs
  | .cancel u => noWord (.cancel u) bs

/-! ## The encoder -/

/-- Where an operation's word is presented (R60). -/
def Instr.port : Instr → Port
  | .edgeFirst u _ _ => .edge u
  | .edgeNext u _ _ => .edge u
  | .sync n _ => .ivl n
  | .idle n _ => .ivl n
  | .pre n _ => .ivl n
  | .bit0 n _ => .ivl n
  | .bit1 n _ => .ivl n
  | .inv n _ => .ivl n
  | .done n => .done n
  | .pulse n _ => .pulse n
  | .debounce n _ _ => .pulse n
  | .byteEol n => .byte n
  | .byteData n _ => .byte n
  | .lineStart n _ => .line n
  | .lineSkip n _ => .line n
  | .lineEnd n _ => .line n
  | .lineContent n _ => .line n
  | .lineNomatch n _ => .content n
  | .fieldEid n _ _ => .content n
  | .fieldTariff n _ _ => .content n
  | .fieldLow n _ _ => .content n
  | .fieldHigh n _ _ => .content n
  | .fieldCurrent n _ _ => .content n
  | .fieldGas1 n _ _ => .content n
  | .fieldGas2 n _ _ => .content n
  | .fieldGas3 n _ _ => .content n
  | .fieldGas4 n _ _ => .content n
  | .fieldOther n _ _ _ => .content n
  | .crcByte n _ => .crc n
  | .reset u => .reset u
  | .cancel u => .cancel u

/-- The unit a port belongs to. -/
def Port.unit : Port → UnitRef
  | .edge (.etd n) => .etd n
  | .edge (.pls n) => .pls n
  | .ivl n => .etd n
  | .pulse n => .pls n
  | .byte n => .tel n
  | .line n => .tel n
  | .content n => .tel n
  | .crc n => .tel n
  | .done n => .etd n
  | .reset u => u
  | .cancel u => u

/-- The unit an operation steps. -/
def Instr.unit (i : Instr) : UnitRef := i.port.unit

/-- The word of an operation, as bytes (R61, R62, R64, R68, R69). -/
def encode : Instr → Bytes
  | .edgeFirst _ level tick => leBytes 5 (ev33 level tick).toNat
  | .edgeNext _ level tick => leBytes 5 (ev33 level tick).toNat
  | .sync _ ivl => leBytes 4 ivl.toNat
  | .idle _ ivl => leBytes 4 ivl.toNat
  | .pre _ ivl => leBytes 4 ivl.toNat
  | .bit0 _ ivl => leBytes 4 ivl.toNat
  | .bit1 _ ivl => leBytes 4 ivl.toNat
  | .inv _ ivl => leBytes 4 ivl.toNat
  | .done _ => []
  | .pulse _ ivl => leBytes 5 (ev33 true ivl).toNat
  | .debounce _ level ivl => leBytes 5 (ev33 level ivl).toNat
  | .byteEol _ => [Config.eol]
  | .byteData _ b => [b]
  | .lineStart _ header => chSlash :: header
  | .lineSkip _ line => line
  | .lineEnd _ digits => chBang :: digits
  | .lineContent _ line => line
  | .lineNomatch _ line => line
  | .fieldEid _ v gs => fieldText oidEid v gs
  | .fieldTariff _ v gs => fieldText oidTariff v gs
  | .fieldLow _ v gs => fieldText oidLow v gs
  | .fieldHigh _ v gs => fieldText oidHigh v gs
  | .fieldCurrent _ v gs => fieldText oidCurrent v gs
  | .fieldGas1 _ v gs => fieldText oidGas1 v gs
  | .fieldGas2 _ v gs => fieldText oidGas2 v gs
  | .fieldGas3 _ v gs => fieldText oidGas3 v gs
  | .fieldGas4 _ v gs => fieldText oidGas4 v gs
  | .fieldOther _ oid v gs => fieldText oid v gs
  | .crcByte _ b => [b]
  | .reset _ => []
  | .cancel _ => []

/-- The port an input transaction arrives on. -/
def Transaction.port : Transaction → Port
  | .edge u _ => .edge u
  | .byte n _ => .byte n
  | .reset u => .reset u
  | .cancel u => .cancel u

/-- The word of an input transaction, as bytes. -/
def Transaction.bytes : Transaction → Bytes
  | .edge _ w => leBytes 5 w.toNat
  | .byte _ b => [b]
  | .reset _ => []
  | .cancel _ => []

/-- The operation a table word selects as the first one after reset, on unit 0 of its kind. A word of 8 bits is B8, of
32 bits IVL32, of 33 bits (40 in whole bytes) EV33; the table's other formats have no fixed-width data word (log 14). -/
def decodeTableWord (nbits w : Nat) : Option Instr :=
  match nbits with
  | 8 => if w < 2 ^ 8 then (decode (.byte 0) .reset (leBytes 1 w)).toOption else none
  | 32 => if w < 2 ^ 32 then (decode (.ivl 0) .reset (leBytes 4 w)).toOption else none
  | 33 => if w < 2 ^ 33 then (decode (.edge (.etd 0)) .reset (leBytes 5 w)).toOption else none
  | 40 => if w < 2 ^ 40 then (decode (.edge (.etd 0)) .reset (leBytes 5 w)).toOption else none
  | _ => none

end Sys2Proof
end

