-- ==== Sys2Proof/WellFormed.lean ====
section
/-! DEFINITION. When an operation is well-formed (its operands lie in the ranges its row gives), and in which control
states it is selected (the state part of its row's selection condition). -/

namespace Sys2Proof

/-- A line as the LINE format has it: trimmed (R67, R68). -/
def lineOk (line : Bytes) : Bool := trim line == line

/-- Value groups as the grammar has them: no parenthesis inside (R69). -/
def groupsOk (value1 : Bytes) (groups : List Bytes) : Bool :=
  (value1 :: groups).all fun g => g.all isVch

/-- The operand part of each row's selection condition. -/
def Instr.wf : Instr → Bool
  | .edgeFirst _ _ _ => true
  | .edgeNext _ _ _ => true
  | .sync _ ivl => decide (Config.syncMin < ivl.toNat)
  | .idle _ ivl => decide (ivl.toNat ≤ Config.syncMin)
  | .pre _ ivl => decide (ivl.toNat ≤ Config.syncMin)
  | .bit0 _ ivl => decide (Config.zeroLo ≤ ivl.toNat) && decide (ivl.toNat ≤ Config.zeroHi)
  | .bit1 _ ivl => decide (Config.oneLo < ivl.toNat) && decide (ivl.toNat < Config.oneHi)
  | .inv _ ivl =>
    decide (ivl.toNat < Config.zeroLo) ||
      (decide (Config.oneHi ≤ ivl.toNat) && decide (ivl.toNat ≤ Config.syncMin))
  | .done _ => true
  | .pulse _ ivl => decide (Config.pulseMin < ivl.toNat)
  | .debounce _ level ivl => !level || decide (ivl.toNat ≤ Config.pulseMin)
  | .byteEol _ => true
  | .byteData _ b => b != Config.eol
  | .lineStart _ header => lineOk (chSlash :: header)
  | .lineSkip _ line => lineOk line && line.head? != some chSlash
  | .lineEnd _ digits => lineOk (chBang :: digits)
  | .lineContent _ line => lineOk line && line.head? != some chBang
  | .lineNomatch _ line => lineOk line && line.head? != some chBang && parseField line == none
  | .fieldEid _ v gs => groupsOk v gs
  | .fieldTariff _ v gs => groupsOk v gs
  | .fieldLow _ v gs => groupsOk v gs
  | .fieldHigh _ v gs => groupsOk v gs
  | .fieldCurrent _ v gs => groupsOk v gs
  | .fieldGas1 _ v gs => groupsOk v gs
  | .fieldGas2 _ v gs => groupsOk v gs
  | .fieldGas3 _ v gs => groupsOk v gs
  | .fieldGas4 _ v gs => groupsOk v gs
  | .fieldOther _ oid v gs => oid != [] && oid.all isIdch && fieldKind oid == .other && groupsOk v gs
  | .crcByte _ _ => true
  | .reset _ => true
  | .cancel _ => true

/-- The position test of R100: the incremented `bitsSeen` is at least 1, so this interval is a data bit. In the
reachable states with `inCode = 1` it is `0 ≤ bitsSeen ≤ 39`, the condition of R65. -/
def atDataBit (bitsSeen : BitVec 8) : Bool := decide (1 ≤ (bitsSeen + 1).toInt)

/-- The state part of each row's selection condition (R60, R65, R68, R107). -/
def Instr.selectedIn (c : Control) : Instr → Bool
  | .edgeFirst _ _ _ => !c.prevValid
  | .edgeNext _ _ _ => c.prevValid
  | .sync _ _ => true
  | .idle _ _ => !c.inCode
  | .pre _ _ => c.inCode && !atDataBit c.bitsSeen
  | .bit0 _ _ => c.inCode && atDataBit c.bitsSeen
  | .bit1 _ _ => c.inCode && atDataBit c.bitsSeen
  | .inv _ _ => c.inCode && atDataBit c.bitsSeen
  | .done _ => c.inCode && c.bitsSeen == Config.frameBits
  | .pulse _ _ => true
  | .debounce _ _ _ => true
  | .byteEol _ => true
  | .byteData _ _ => true
  | .lineStart _ _ => !c.reading
  | .lineSkip _ _ => !c.reading
  | .lineEnd _ _ => c.reading
  | .lineContent _ _ => c.reading
  | .lineNomatch _ _ => c.reading
  | .fieldEid _ _ _ => c.reading
  | .fieldTariff _ _ _ => c.reading
  | .fieldLow _ _ _ => c.reading
  | .fieldHigh _ _ _ => c.reading
  | .fieldCurrent _ _ _ => c.reading
  | .fieldGas1 _ _ _ => c.reading
  | .fieldGas2 _ _ _ => c.reading
  | .fieldGas3 _ _ _ => c.reading
  | .fieldGas4 _ _ _ => c.reading
  | .fieldOther _ _ _ _ => c.reading
  | .crcByte _ _ => true
  | .reset _ => true
  | .cancel _ => true

end Sys2Proof
end

