-- ==== Sys2Proof/Machine/State.lean ====
section
/-! DEFINITION. The state of ETR-1 (R10) as plain data, its value after reset (R29), and the ways a step can stop. -/

namespace Sys2Proof.Machine

/-- The state of one ETD unit (R11 to R15). -/
structure Etd where
  /-- R11: the tick of the most recent edge event. -/
  prev : Tick
  /-- R12: whether `prev` holds a sample. -/
  prevValid : Bool
  /-- R13: a frame is in progress. -/
  inCode : Bool
  /-- R14: the bit accumulator. -/
  code : BitVec 64
  /-- R15: signed, 8 bits two's complement. -/
  bitsSeen : BitVec 8
  deriving DecidableEq, Repr

/-- The state of one PLS unit (R18, R19). -/
structure Pls where
  prev : Tick
  prevValid : Bool
  deriving DecidableEq, Repr

/-- The packet register file (R23). -/
structure Packet where
  header : Bytes
  eid : Bytes
  tariff : BitVec 64
  lowConsumedWh : BitVec 64
  highConsumedWh : BitVec 64
  currentConsumedWh : BitVec 64
  gasConsumedL : BitVec 64
  deriving DecidableEq, Repr

/-- The state of one TEL unit (R20 to R23). -/
structure Tel where
  /-- R20: the bytes since the last `EOL`, untrimmed. -/
  lineBuf : Bytes
  /-- R21: a telegram frame is in progress. -/
  reading : Bool
  /-- R22: the text of the frame. -/
  rawFrame : Bytes
  /-- R23. -/
  packet : Packet
  /-- R170: the register `c` of the CRC loop. R31: it survives no step (log 6). -/
  crc : BitVec 16
  deriving DecidableEq, Repr

/-- The reportable errors (R190). -/
inductive ErrorCode where
  | checksumMismatch
  | checksumParse
  | fieldTariff
  | fieldKwh
  | fieldM3
  deriving DecidableEq, Repr

/-- The three-bit code of an error (R63, R190). -/
def ErrorCode.bits : ErrorCode → BitVec 3
  | .checksumMismatch => 1
  | .checksumParse => 2
  | .fieldTariff => 3
  | .fieldKwh => 4
  | .fieldM3 => 5

/-- One output transaction (R63), with the number of the unit that emitted it. -/
inductive Output where
  /-- R182: tenths of a degree (two's complement) and tenths of a percent. -/
  | reading (n : Nat) (temp : BitVec 16) (hum : BitVec 16)
  /-- R183. -/
  | pulseUnit (n : Nat)
  /-- R184. -/
  | packet (n : Nat) (p : Packet)
  /-- R185: the error, the trimmed line, and the computed CRC for ChecksumMismatch (else 0). -/
  | error (n : Nat) (code : ErrorCode) (line : Bytes) (computed : BitVec 16)
  deriving DecidableEq, Repr

/-- The whole machine (R10): the units, each list holding unit 0, 1, … of its kind and every unit beyond its end being
at its reset value (log 2); and the model's own record of what crosses the ports (log 1). -/
structure State where
  etds : List Etd
  plss : List Pls
  tels : List Tel
  /-- Input transactions delivered and not yet consumed, oldest first (R48). -/
  inputs : List Transaction
  /-- Output transactions emitted, oldest first (R181). -/
  outputs : List Output
  deriving DecidableEq, Repr

/-- R29. -/
def Etd.reset : Etd := ⟨0, false, false, 0, Config.sentinel⟩

/-- R29. -/
def Pls.reset : Pls := ⟨0, false⟩

/-- `zeroPacket` (R24). -/
def zeroPacket (header : Bytes) : Packet := ⟨header, [], 0, 0, 0, 0, 0⟩

/-- R29; the CRC register: DESIGN CHOICE 0 (log 6). -/
def Tel.reset : Tel := ⟨[], false, [], zeroPacket [], 0⟩

/-- Right after reset every unit is at its reset value (R29); nothing has been delivered or emitted (log 1). -/
def State.reset : State := ⟨[], [], [], [], []⟩

/-- ETR-1 never stops with a fault (R115, R192: "No exception/error from decoding a single malformed unit may terminate
the overall process"): nothing raises one, so the type is empty. -/
inductive Fault where
  deriving DecidableEq, Repr

/-- Where the model gives no meaning. -/
inductive Refusal where
  /-- Raised by `exec` for an operation that has no meaning yet; none at present. Safe: the machine goes on. -/
  | notModelled (mnemonic : String)
  /-- Raised by a meaning performed outside its row's selection condition, where the spec gives the operation no effect
  (R65, R66, R68, R91, R92, R107); no step does that. Safe (log 4). -/
  | notSelected
  /-- Raised by an append or load that would exceed a finite capacity (R42); never at the spec's value "unbounded".
  Safe (log 12). -/
  | capacityExceeded
  deriving DecidableEq, Repr

/-- The outcome of a step of this machine. -/
abbrev Result := Host.Outcome State Fault Refusal

end Sys2Proof.Machine
end

