-- ==== Sys2Proof/Machine/Ops.lean ====
section
/-! DEFINITION. The operations every meaning shares: reading and writing the units, emitting outputs, the selection
guard, the buffer primitives (R41), the error report and the abort (R185, R196), the CRC step (R170), and taking the
next input. R198: there is no return operation beside the abort. -/

namespace Sys2Proof.Machine

/-! ## The units of one kind (R6, R204, log 2) -/

/-- Unit `n` of a list of units; beyond the end, the reset value. -/
def bankGet {α : Type} (d : α) : List α → Nat → α
  | [], _ => d
  | x :: _, 0 => x
  | _ :: rest, n + 1 => bankGet d rest n

/-- A unit in front of a list, dropped where the list would then end in a unit at its reset value. -/
def bankCons {α : Type} [DecidableEq α] (d x : α) : List α → List α
  | [] => if x = d then [] else [x]
  | y :: rest => x :: y :: rest

/-- Write unit `n` of a list of units. -/
def bankPut {α : Type} [DecidableEq α] (d : α) : List α → Nat → α → List α
  | [], 0, v => bankCons d v []
  | [], n + 1, v => bankCons d d (bankPut d [] n v)
  | _ :: rest, 0, v => bankCons d v rest
  | x :: rest, n + 1, v => bankCons d x (bankPut d rest n v)

/-- The canonical form: the list does not end in a unit at its reset value. -/
def bankWf {α : Type} [DecidableEq α] (d : α) (l : List α) : Bool := decide (l.getLast? ≠ some d)

/-- ETD unit `n`. -/
def State.etd (s : State) (n : Nat) : Etd := bankGet Etd.reset s.etds n
/-- PLS unit `n`. -/
def State.pls (s : State) (n : Nat) : Pls := bankGet Pls.reset s.plss n
/-- TEL unit `n`. -/
def State.tel (s : State) (n : Nat) : Tel := bankGet Tel.reset s.tels n

/-- Write ETD unit `n`. -/
def State.setEtd (s : State) (n : Nat) (e : Etd) : State := { s with etds := bankPut Etd.reset s.etds n e }
/-- Write PLS unit `n`. -/
def State.setPls (s : State) (n : Nat) (p : Pls) : State := { s with plss := bankPut Pls.reset s.plss n p }
/-- Write TEL unit `n`. -/
def State.setTel (s : State) (n : Nat) (t : Tel) : State := { s with tels := bankPut Tel.reset s.tels n t }

/-- The canonical form of the three lists. -/
def State.wf (s : State) : Bool :=
  bankWf Etd.reset s.etds && bankWf Pls.reset s.plss && bankWf Tel.reset s.tels

/-! ## Outputs -/

/-- `emit` (R7): one output transaction, after those already emitted (R181). -/
def State.emit (s : State) (o : Output) : State := { s with outputs := s.outputs ++ [o] }

/-! ## Selection -/

/-- An operation has its meaning where it is selected, and none elsewhere (log 4). -/
def whenSelected (c : Prop) [Decidable c] (r : Result) : Result := if c then r else .refused .notSelected

/-! ## Buffers (R41, R42) -/

/-- A string of this length goes into a buffer of this capacity, or the step has no meaning (R42). -/
def whenFits (cap : Option Nat) (len : Nat) (r : Result) : Result :=
  if Config.fits cap len = true then r else .refused .capacityExceeded

/-- `append(lineBuf, b)`. -/
def Tel.appendLine (t : Tel) (b : Byte) : Tel := { t with lineBuf := t.lineBuf ++ [b] }
/-- `clear(lineBuf)`. -/
def Tel.clearLine (t : Tel) : Tel := { t with lineBuf := [] }
/-- `append(rawFrame, line ++ CRLF)`. -/
def Tel.appendFrame (t : Tel) (line : Bytes) : Tel := { t with rawFrame := t.rawFrame ++ (line ++ crlf) }

/-- What a start line puts into `rawFrame` (R133), by `RAW_INCLUDES_START`. -/
def startText (includesStart : Bool) (line : Bytes) : Bytes :=
  if includesStart = true then line ++ crlf else []

/-! ## Errors (R185, R190, R196) -/

/-- `emit error(code, line, computed)` on the error port of TEL unit `n` (R185). -/
def State.report (s : State) (n : Nat) (code : ErrorCode) (line : Bytes) (computed : BitVec 16) : State :=
  s.emit (.error n code line computed)

/-- `raise` (R7, R196), the one exception of ETR-1: the report, with `computed = 0`, and the abort of the frame.
Nothing is saved; `rawFrame` and `packet` are left as they stand, dead (D22). -/
def State.raise (s : State) (n : Nat) (code : ErrorCode) (line : Bytes) : State :=
  (s.setTel n { s.tel n with reading := false }).report n code line 0

/-! ## The CRC step (R170) -/

/-- One shift of the right-shifting CRC register (R170). -/
def crcShift (c : BitVec 16) : BitVec 16 :=
  if c.getLsbD 0 = true then (c >>> 1) ^^^ Config.crcPolyReflected else c >>> 1

/-- `repeat k times` the shift. -/
def crcShifts : Nat → BitVec 16 → BitVec 16
  | 0, c => c
  | k + 1, c => crcShifts k (crcShift c)

/-- `CRCBYTE(c, b)` (R170). -/
def crcByte (c : BitVec 16) (b : Byte) : BitVec 16 := crcShifts 8 (c ^^^ b.setWidth 16)

/-- The loop of R170 over a byte string, from a register value. -/
def crcFrom (c : BitVec 16) (bs : Bytes) : BitVec 16 := bs.foldl crcByte c

/-- `crc16` (R170). -/
def crc16 (bs : Bytes) : BitVec 16 := crcFrom Config.crcInit bs ^^^ Config.crcXorOut

/-- CRC.BYTE on the register of a TEL unit. -/
def Tel.crcStep (t : Tel) (b : Byte) : Tel := { t with crc := crcByte t.crc b }

/-- CRC.BYTE for each byte of a string. -/
def Tel.crcFeed (t : Tel) (bs : Bytes) : Tel := bs.foldl Tel.crcStep t

/-! ## Taking the next input -/

/-- The control state that selects the operation of an `edge` transaction. -/
def State.edgeControl (s : State) : EdgeUnit → Control
  | .etd n => ⟨(s.etd n).prevValid, (s.etd n).inCode, (s.etd n).bitsSeen, false⟩
  | .pls n => ⟨(s.pls n).prevValid, false, Config.sentinel, false⟩

/-- The control state of TEL unit `n`. -/
def State.telControl (s : State) (n : Nat) : Control := ⟨false, false, Config.sentinel, (s.tel n).reading⟩

/-- The control state of the unit that a port belongs to. The fields of another kind of unit are not read by the
decoder; they are filled with their reset values. -/
def State.control (s : State) : Port → Control
  | .edge u => s.edgeControl u
  | .ivl n => s.edgeControl (.etd n)
  | .pulse n => s.edgeControl (.pls n)
  | .byte n => s.telControl n
  | .line n => s.telControl n
  | .content n => s.telControl n
  | .crc n => s.telControl n
  | .done n => s.edgeControl (.etd n)
  | .reset _ => Control.reset
  | .cancel _ => Control.reset

/-- The next input transaction, consumed (R45, R48): the oldest delivered one. -/
def State.fetch (s : State) : Option (Transaction × State) :=
  match s.inputs with
  | [] => none
  | x :: rest => some (x, { s with inputs := rest })

/-- The input transaction delivered before every pending one. -/
def State.deliverFirst (s : State) (x : Transaction) : State := { s with inputs := x :: s.inputs }

/-- The input that makes the next step perform a table word on unit 0 of its kind (log 8, log 14). B8 is a `byte`
transaction and EV33 an `edge` transaction of ETD; an IVL32 word is an interval, so the transaction is an edge event
that many ticks after a tick 0 already received. -/
def State.placeWord (s : State) (nbits w : Nat) : State :=
  match nbits with
  | 8 => s.deliverFirst (.byte 0 (BitVec.ofNat 8 w))
  | 32 =>
    (s.setEtd 0 { s.etd 0 with prev := 0, prevValid := true }).deliverFirst
      (.edge (.etd 0) (ev33 true (BitVec.ofNat 32 w)))
  | 33 => s.deliverFirst (.edge (.etd 0) (BitVec.ofNat 33 w))
  | 40 => s.deliverFirst (.edge (.etd 0) (BitVec.ofNat 33 w))
  | _ => s

end Sys2Proof.Machine
end

