-- ==== Sys2Proof/Machine/Operands.lean ====
section
/-! DEFINITION. The operands: the interval (R90), the bytes of the sensor frame and its checksum and calibration (R107
to R111), the decimal numbers of the value groups (R73 to R75, R151), and the transmitted checksum (R76). -/

namespace Sys2Proof.Machine

/-- `interval(prev, cur) = (cur − prev) mod 2^32` (R90). -/
def interval (prev cur : Tick) : Tick := cur - prev

/-! ## The sensor frame (R107 to R111) -/

/-- `byte[i] = code[8i+7 : 8i]` (R108). -/
def codeByte (code : BitVec 64) (i : Nat) : Byte := code.extractLsb' (8 * i) 8

/-- The sensor checksum: an 8-bit sum that discards carries (R109). -/
def sensorSum (code : BitVec 64) : Byte :=
  codeByte code 1 + codeByte code 2 + codeByte code 3 + codeByte code 4

/-- `hum = (byte[4] << 8) + byte[3]`, tenths of a percent (R110). -/
def sensorHum (code : BitVec 64) : BitVec 16 := codeByte code 4 ++ codeByte code 3

/-- `mag = ((byte[2] & 0x7F) << 8) + byte[1]` (R111). -/
def sensorMag (code : BitVec 64) : BitVec 15 := (codeByte code 2).setWidth 7 ++ codeByte code 1

/-- `temp`: sign and magnitude on the wire, 16 bits two's complement here, tenths of a degree (R111). -/
def sensorTemp (code : BitVec 64) : BitVec 16 :=
  if (codeByte code 2).msb = true then -((sensorMag code).setWidth 16) else (sensorMag code).setWidth 16

/-- The reasons of the silent rejections (R193). They are names for the spec's use and observable on no port (log 18). -/
inductive RejectReason where
  | invalidBit
  | checksum
  | humidityRange
  | temperatureRange
  | frameOverrun
  | debounce
  | nonMatchingLine
  | unknownIdentifier
  | lineOutsideFrame
  deriving DecidableEq, Repr

/-- What DONE decides about a frame (R107). -/
inductive Verdict where
  | accept (temp hum : BitVec 16)
  | reject (r : RejectReason)
  deriving DecidableEq, Repr

/-- The three tests of DONE in their order (R107, R195): checksum, humidity, temperature. -/
def doneVerdict (code : BitVec 64) : Verdict :=
  if sensorSum code ≠ codeByte code 0 then .reject .checksum
  else if Config.humMax < (sensorHum code).toNat then .reject .humidityRange
  else if (sensorTemp code).toInt < Config.tempMin ∨ Config.tempMax < (sensorTemp code).toInt then
    .reject .temperatureRange
  else .accept (sensorTemp code) (sensorHum code)

/-! ## Decimal numbers (R73 to R75, R151) -/

/-- The value of a decimal digit. -/
def digitValue (b : Byte) : Nat := b.toNat - 0x30

/-- The value of a digit string, most significant digit first; the empty string is 0 (R151). -/
def decValue (ds : Bytes) : Nat := ds.foldl (fun a b => 10 * a + digitValue b) 0

/-- `num = digit { digit } [ '.' { digit } ]` (R73): the digits before and after the point. -/
def parseNum (s : Bytes) : Option (Bytes × Bytes) :=
  let whole := s.takeWhile isDigit
  if whole = [] then none
  else match s.dropWhile isDigit with
    | [] => some (whole, [])
    | c :: frac => if c = chDot ∧ frac.all isDigit = true then some (whole, frac) else none

/-- The string before a suffix, if it has that suffix. -/
def stripSuffix (suffix s : Bytes) : Option Bytes :=
  if s.drop (s.length - suffix.length) = suffix then some (s.take (s.length - suffix.length)) else none

/-- `"*kWh"` (R73). -/
def kwhSuffix : Bytes := [0x2A, 0x6B, 0x57, 0x68]
/-- `"*m3"` (R74). -/
def m3Suffix : Bytes := [0x2A, 0x6D, 0x33]

/-- `F3` (R73): the first three fraction digits, padded on the right with `'0'`. -/
def fraction3 (frac : Bytes) : Nat := decValue ((frac ++ [0x30, 0x30, 0x30]).take 3)

/-- The nearest natural number to `num / den`, ties to even. -/
def roundHalfEven (num den : Nat) : Nat :=
  let q := num / den
  let r := num % den
  if 2 * r < den then q
  else if den < 2 * r then q + 1
  else if q % 2 = 0 then q else q + 1

/-- `p / q` rounded to 53 significant bits, ties to even, as a fraction. The exponent is not bounded: below binary64's
range the scaled result is 0 and above it at least 2^63 either way. PRESUMED (U6, G7; log 11). -/
def round53 (p q : Nat) : Nat × Nat :=
  if p = 0 then (0, 1)
  else
    let e : Int := (p.log2 : Int) - (q.log2 : Int) - 53
    let num := fun (x : Int) => p * 2 ^ (-x).toNat
    let den := fun (x : Int) => q * 2 ^ x.toNat
    let e := if num e < 2 ^ 53 * den e then e else e + 1
    (roundHalfEven (num e) (den e) * 2 ^ e.toNat, 2 ^ (-e).toNat)

/-- The kWh scaling in binary64 (U6): the nearest binary64 to the number, times 1000.0, truncated. -/
def kwhBinary64 (whole frac : Bytes) : Nat :=
  let x := round53 (decValue (whole ++ frac)) (10 ^ frac.length)
  let y := round53 (x.1 * 1000) x.2
  y.1 / y.2

/-- The kWh scaling (R73): exact decimal, `1000 × I + F3`, or the other value of `KWH_SCALE_MODE`. -/
def kwhScale (mode : Config.KwhScaleMode) (whole frac : Bytes) : Nat :=
  match mode with
  | .exactDecimal => 1000 * decValue whole + fraction3 frac
  | .binary64 => kwhBinary64 whole frac

/-- A result the packet can hold: below 2^63 (D20). -/
def belowLimit (v : Nat) : Option Nat := if v < Config.intLimit then some v else none

/-- `kwhOperand` (R73). -/
def kwhOperand (mode : Config.KwhScaleMode) (value1 : Bytes) : Option Nat :=
  match stripSuffix kwhSuffix value1 with
  | none => none
  | some num =>
    match parseNum num with
    | none => none
    | some (whole, frac) => belowLimit (kwhScale mode whole frac)

/-- `m3Operand` (R74): the fraction is checked for syntax and dropped. -/
def m3Operand (value1 : Bytes) : Option Nat :=
  match stripSuffix m3Suffix value1 with
  | none => none
  | some num =>
    match parseNum num with
    | none => none
    | some (whole, _) => belowLimit (decValue whole)

/-- `tariffOperand` (R75). -/
def tariffOperand (value1 : Bytes) : Option Nat :=
  if value1 ≠ [] ∧ value1.all isDigit = true then belowLimit (decValue value1) else none

/-! ## The transmitted checksum (R76) -/

/-- A hexadecimal digit of either case. -/
def isHexDigit (b : Byte) : Bool :=
  isDigit b || (decide (0x41 ≤ b.toNat) && decide (b.toNat ≤ 0x46)) ||
    (decide (0x61 ≤ b.toNat) && decide (b.toNat ≤ 0x66))

/-- The value of a hexadecimal digit. -/
def hexValue (b : Byte) : Nat :=
  if b.toNat ≤ 0x39 then b.toNat - 0x30
  else if b.toNat ≤ 0x46 then b.toNat - 0x41 + 10
  else b.toNat - 0x61 + 10

/-- `tx` (R76): one or more hexadecimal digits, most significant first, not truncated. -/
def checksumOperand (digits : Bytes) : Option Nat :=
  if digits ≠ [] ∧ digits.all isHexDigit = true then some (digits.foldl (fun a b => 16 * a + hexValue b) 0)
  else none

end Sys2Proof.Machine
end

