-- ==== Sys2Proof/Machine/Flags.lean ====
section
/-! DEFINITION. The four flags of ETR-1 (R26) and the interval clock's pair `prev`, `prevValid` (R11, R12, R18). There
are no arithmetic condition codes (R26), and no operation writes a flag except as listed there. -/

namespace Sys2Proof.Machine

/-- `prevValid` of a unit with an interval clock (R12, R18). -/
def State.prevValid (s : State) : EdgeUnit → Bool
  | .etd n => (s.etd n).prevValid
  | .pls n => (s.pls n).prevValid

/-- `prev` of a unit with an interval clock (R11, R18). -/
def State.prev (s : State) : EdgeUnit → Tick
  | .etd n => (s.etd n).prev
  | .pls n => (s.pls n).prev

/-- `prev <- tick` (R92). -/
def State.setPrev (s : State) (u : EdgeUnit) (tick : Tick) : State :=
  match u with
  | .etd n => s.setEtd n { s.etd n with prev := tick }
  | .pls n => s.setPls n { s.pls n with prev := tick }

/-- `prevValid <- 1` (R91). -/
def State.setPrevValid (s : State) (u : EdgeUnit) : State :=
  match u with
  | .etd n => s.setEtd n { s.etd n with prevValid := true }
  | .pls n => s.setPls n { s.pls n with prevValid := true }

/-- `inCode <- 0` (R106, R107). -/
def Etd.clearInCode (e : Etd) : Etd := { e with inCode := false }

/-- `inCode <- 1 ; code <- 0 ; bitsSeen <- −2` (R101). -/
def Etd.startFrame (e : Etd) : Etd :=
  { e with inCode := true, code := 0, bitsSeen := Config.sentinel }

/-- `bitsSeen <- bitsSeen + 1` (R103 to R106). -/
def Etd.countInterval (e : Etd) : Etd := { e with bitsSeen := e.bitsSeen + 1 }

/-- `code <- (code << 1) mod 2^64` (R104 to R106). -/
def Etd.shiftCode (e : Etd) : Etd := { e with code := e.code <<< 1 }

/-- `code <- code + 1` (R105). -/
def Etd.addOne (e : Etd) : Etd := { e with code := e.code + 1 }

/-- The class of an interval at ETD unit `n` (R65). -/
def State.ivlClass (s : State) (n : Nat) (ivl : Tick) : IvlClass :=
  Sys2Proof.ivlClass (s.etd n).inCode (s.etd n).bitsSeen ivl

/-- The class of a line at TEL unit `n` (R68). -/
def State.lineClass (s : State) (n : Nat) (line : Bytes) : LineClass :=
  Sys2Proof.lineClass (s.tel n).reading line

/-- `reading <- 1` (R133). -/
def Tel.startReading (t : Tel) : Tel := { t with reading := true }

/-- `reading <- 0` (R134). -/
def Tel.stopReading (t : Tel) : Tel := { t with reading := false }

end Sys2Proof.Machine
end

