-- ==== Sys2Proof/Machine/Decoder.lean ====
section
/-! DEFINITION. The ETD operations after the interval clock (R100 to R107): SYNC, IDLE, PRE, BIT0, BIT1, INV, DONE. None
reads the `level` of the edge event (R100). -/

namespace Sys2Proof.Machine

/-- What a verdict emits (R107): a reading, or nothing (R193). -/
def State.emitVerdict (s : State) (n : Nat) : Verdict → State
  | .accept temp hum => s.emit (.reading n temp hum)
  | .reject _ => s

/-- SYNC (R101). -/
def execSync (n : Nat) (ivl : Tick) (s : State) : Result :=
  whenSelected (s.ivlClass n ivl = .sync) (.next (s.setEtd n (s.etd n).startFrame))

/-- IDLE (R102): no state change. -/
def execIdle (n : Nat) (ivl : Tick) (s : State) : Result :=
  whenSelected (s.ivlClass n ivl = .idle) (.next s)

/-- PRE (R103): the interval is counted, not examined. -/
def execPre (n : Nat) (ivl : Tick) (s : State) : Result :=
  whenSelected (s.ivlClass n ivl = .pre) (.next (s.setEtd n (s.etd n).countInterval))

/-- DONE (R107): performed inside BIT0 and BIT1 when `bitsSeen` has just become 40. The clearing of `inCode`, which R107
gives to the caller, is part of it here, as in the opcode table's row. -/
def execDone (n : Nat) (s : State) : Result :=
  whenSelected ((s.etd n).inCode = true ∧ (s.etd n).bitsSeen = Config.frameBits)
    (.next ((s.emitVerdict n (doneVerdict (s.etd n).code)).setEtd n (s.etd n).clearInCode))

/-- The completion test of R100: `if inCode = 1 and bitsSeen = 40`. -/
def finishBit (n : Nat) (s : State) : Result :=
  if (s.etd n).inCode = true ∧ (s.etd n).bitsSeen = Config.frameBits then execDone n s else .next s

/-- BIT0 (R104). -/
def execBit0 (n : Nat) (ivl : Tick) (s : State) : Result :=
  whenSelected (s.ivlClass n ivl = .bit0)
    (finishBit n (s.setEtd n (s.etd n).countInterval.shiftCode))

/-- BIT1 (R105). -/
def execBit1 (n : Nat) (ivl : Tick) (s : State) : Result :=
  whenSelected (s.ivlClass n ivl = .bit1)
    (finishBit n (s.setEtd n (s.etd n).countInterval.shiftCode.addOne))

/-- INV (R106): the frame is abandoned silently; DONE is not performed even at the fortieth interval. -/
def execInv (n : Nat) (ivl : Tick) (s : State) : Result :=
  whenSelected (s.ivlClass n ivl = .inv)
    (.next (s.setEtd n (s.etd n).countInterval.shiftCode.clearInCode))

/-- IVL (R100): the class of the interval, performed. -/
def performIvl (n : Nat) (ivl : Tick) (s : State) : Result :=
  match s.ivlClass n ivl with
  | .sync => execSync n ivl s
  | .idle => execIdle n ivl s
  | .pre => execPre n ivl s
  | .bit0 => execBit0 n ivl s
  | .bit1 => execBit1 n ivl s
  | .inv => execInv n ivl s

end Sys2Proof.Machine
end

