-- ==== Sys2Proof/Machine/Pulse.lean ====
section
/-! DEFINITION. The PLS operations after the interval clock (R120 to R122): PULSE, DEBOUNCE. -/

namespace Sys2Proof.Machine

/-- PULSE (R120): one `unit`. -/
def execPulse (n : Nat) (ivl : Tick) (s : State) : Result :=
  whenSelected (plsClass true ivl = .pulse) (.next (s.emit (.pulseUnit n)))

/-- DEBOUNCE (R121): no state change, no output. -/
def execDebounce (_n : Nat) (level : Bool) (ivl : Tick) (s : State) : Result :=
  whenSelected (plsClass level ivl = .debounce) (.next s)

/-- PLSSTEP (R122): the class of the interval, performed. -/
def performPls (n : Nat) (level : Bool) (ivl : Tick) (s : State) : Result :=
  match plsClass level ivl with
  | .pulse => execPulse n ivl s
  | .debounce => execDebounce n level ivl s

end Sys2Proof.Machine
end

