-- ==== Sys2Proof/Machine/Clock.lean ====
section
/-! DEFINITION. The interval clock, first stage of ETD and PLS (R91, R92): EDGE.FIRST, EDGE.NEXT. -/

namespace Sys2Proof.Machine

/-- The level-2 operation of a unit (R92): ETD reads the interval, PLS the interval and the level. -/
def performLevel2 (u : EdgeUnit) (level : Bool) (ivl : Tick) (s : State) : Result :=
  match u with
  | .etd n => performIvl n ivl s
  | .pls n => performPls n level ivl s

/-- EDGE.FIRST (R91): `prev <- tick ; prevValid <- 1`, nothing else. -/
def execEdgeFirst (u : EdgeUnit) (_level : Bool) (tick : Tick) (s : State) : Result :=
  whenSelected (s.prevValid u = false) (.next ((s.setPrev u tick).setPrevValid u))

/-- EDGE.NEXT (R92): the interval, `prev <- tick` whatever its class, then the level-2 operation in the same step. -/
def execEdgeNext (u : EdgeUnit) (level : Bool) (tick : Tick) (s : State) : Result :=
  whenSelected (s.prevValid u = true)
    (performLevel2 u level (interval (s.prev u) tick) (s.setPrev u tick))

end Sys2Proof.Machine
end

