-- ==== Sys2Proof/Machine/Field.lean ====
section
/-! DEFINITION. The field classes (R150 to R161), performed by LINE.CONTENT after it has appended the line: FIELD.EID,
FIELD.TARIFF, FIELD.LOW, FIELD.HIGH, FIELD.CURRENT, FIELD.GAS for its four identifiers, FIELD.OTHER, and LINE.NOMATCH
for a line that does not match the grammar (R135). Only the first group is interpreted (R71, R161). -/

namespace Sys2Proof.Machine

/-- A class with a numeric operand (R150, R160): the operand goes into its packet field; a failure raises the class's
error for the whole line, and the field is not written. -/
def numericField (n : Nat) (code : ErrorCode) (line : Bytes) (operand : Option Nat)
    (write : Packet → BitVec 64 → Packet) (s : State) : Result :=
  whenSelected ((s.tel n).reading = true)
    (match operand with
      | none => .next (s.raise n code line)
      | some v => .next (s.setTel n { s.tel n with packet := write (s.tel n).packet (BitVec.ofNat 64 v) }))

/-- A kWh class (R154 to R156). -/
def kwhField (n : Nat) (oid value1 : Bytes) (groups : List Bytes)
    (write : Packet → BitVec 64 → Packet) (s : State) : Result :=
  numericField n .fieldKwh (fieldText oid value1 groups) (kwhOperand Config.kwhScaleMode value1) write s

/-- The gas class at one of its identifiers (R157). -/
def gasField (n : Nat) (oid value1 : Bytes) (groups : List Bytes) (s : State) : Result :=
  numericField n .fieldM3 (fieldText oid value1 groups) (m3Operand value1)
    (fun p v => { p with gasConsumedL := v }) s

/-- LINE.NOMATCH (R135): nothing beyond the append that LINE.CONTENT has done. -/
def execLineNomatch (n : Nat) (line : Bytes) (s : State) : Result :=
  whenSelected ((s.tel n).reading = true ∧ parseField line = none) (.next s)

/-- FIELD.EID (R152): the bytes of the first group, unchanged. -/
def execFieldEid (n : Nat) (value1 : Bytes) (_groups : List Bytes) (s : State) : Result :=
  whenSelected ((s.tel n).reading = true)
    (whenFits Config.strMax value1.length
      (.next (s.setTel n { s.tel n with packet := { (s.tel n).packet with eid := value1 } })))

/-- FIELD.TARIFF (R153). -/
def execFieldTariff (n : Nat) (value1 : Bytes) (groups : List Bytes) (s : State) : Result :=
  numericField n .fieldTariff (fieldText oidTariff value1 groups) (tariffOperand value1)
    (fun p v => { p with tariff := v }) s

/-- FIELD.LOW (R154). -/
def execFieldLow (n : Nat) (value1 : Bytes) (groups : List Bytes) (s : State) : Result :=
  kwhField n oidLow value1 groups (fun p v => { p with lowConsumedWh := v }) s

/-- FIELD.HIGH (R155). -/
def execFieldHigh (n : Nat) (value1 : Bytes) (groups : List Bytes) (s : State) : Result :=
  kwhField n oidHigh value1 groups (fun p v => { p with highConsumedWh := v }) s

/-- FIELD.CURRENT (R156). -/
def execFieldCurrent (n : Nat) (value1 : Bytes) (groups : List Bytes) (s : State) : Result :=
  kwhField n oidCurrent value1 groups (fun p v => { p with currentConsumedWh := v }) s

/-- FIELD.GAS (R157), `1-1:24.2.1`. -/
def execFieldGas1 (n : Nat) (value1 : Bytes) (groups : List Bytes) (s : State) : Result :=
  gasField n oidGas1 value1 groups s

/-- FIELD.GAS (R157), `1-2:24.2.1`. -/
def execFieldGas2 (n : Nat) (value1 : Bytes) (groups : List Bytes) (s : State) : Result :=
  gasField n oidGas2 value1 groups s

/-- FIELD.GAS (R157), `1-3:24.2.1`. -/
def execFieldGas3 (n : Nat) (value1 : Bytes) (groups : List Bytes) (s : State) : Result :=
  gasField n oidGas3 value1 groups s

/-- FIELD.GAS (R157), `1-4:24.2.1`. -/
def execFieldGas4 (n : Nat) (value1 : Bytes) (groups : List Bytes) (s : State) : Result :=
  gasField n oidGas4 value1 groups s

/-- FIELD.OTHER (R158): no effect. -/
def execFieldOther (n : Nat) (oid _value1 : Bytes) (_groups : List Bytes) (s : State) : Result :=
  whenSelected ((s.tel n).reading = true ∧ fieldKind oid = .other) (.next s)

/-- FIELD (R150): the class of the identifier, performed. -/
def performField (n : Nat) (f : FieldLine) (s : State) : Result :=
  match fieldKind f.oid with
  | .eid => execFieldEid n f.value1 f.groups s
  | .tariff => execFieldTariff n f.value1 f.groups s
  | .low => execFieldLow n f.value1 f.groups s
  | .high => execFieldHigh n f.value1 f.groups s
  | .current => execFieldCurrent n f.value1 f.groups s
  | .gas1 => execFieldGas1 n f.value1 f.groups s
  | .gas2 => execFieldGas2 n f.value1 f.groups s
  | .gas3 => execFieldGas3 n f.value1 f.groups s
  | .gas4 => execFieldGas4 n f.value1 f.groups s
  | .other => execFieldOther n f.oid f.value1 f.groups s

/-- The class of a content line (R60, R135), performed. -/
def performContent (n : Nat) (line : Bytes) (s : State) : Result :=
  match parseField line with
  | none => execLineNomatch n line s
  | some f => performField n f s

end Sys2Proof.Machine
end

