-- ==== Sys2Proof/Machine/Telegram.lean ====
section
/-! DEFINITION. The frame assembler of TEL (R130 to R138) and the CRC step (R170): BYTE.DATA, BYTE.EOL, LINE.START,
LINE.SKIP, LINE.END, LINE.CONTENT, CRC.BYTE. -/

namespace Sys2Proof.Machine

/-- CRC.BYTE (R170) on the CRC register of TEL unit `n`. -/
def execCrcByte (n : Nat) (b : Byte) (s : State) : Result :=
  .next (s.setTel n ((s.tel n).crcStep b))

/-- LINE.START (R133): a new packet, `rawFrame` with the start line by `RAW_INCLUDES_START`, `reading <- 1`. -/
def execLineStart (n : Nat) (header : Bytes) (s : State) : Result :=
  whenSelected ((s.tel n).reading = false)
    (whenFits Config.strMax header.length
      (whenFits Config.frameMax (startText Config.rawIncludesStart (chSlash :: header)).length
        (.next (s.setTel n
          { (s.tel n).startReading with
            packet := zeroPacket header
            rawFrame := startText Config.rawIncludesStart (chSlash :: header) }))))

/-- LINE.SKIP (R136): nothing. -/
def execLineSkip (n : Nat) (line : Bytes) (s : State) : Result :=
  whenSelected (s.lineClass n line = .skip) (.next s)

/-- The CRC register of a TEL unit run from its initial value over `rawFrame ++ "!"` (R134, R170, R174), one CRC.BYTE
for each byte. -/
def Tel.runCrc (t : Tel) : Tel := Tel.crcFeed { t with crc := Config.crcInit } (t.rawFrame ++ [chBang])

/-- LINE.END (R134): the frame ends; digits that are not well-formed give error 2, a checksum that differs error 1, and
an equal one the packet. The CRC register does not survive the step (R31). -/
def execLineEnd (n : Nat) (digits : Bytes) (s : State) : Result :=
  whenSelected ((s.tel n).reading = true)
    (let ended := s.setTel n (s.tel n).stopReading
     match checksumOperand digits with
     | none => .next (ended.report n .checksumParse (chBang :: digits) 0)
     | some tx =>
       let computed := (s.tel n).runCrc.crc ^^^ Config.crcXorOut
       let ended := s.setTel n { (s.tel n).runCrc.stopReading with crc := 0 }
       if tx = computed.toNat then .next (ended.emit (.packet n (s.tel n).packet))
       else .next (ended.report n .checksumMismatch (chBang :: digits) computed))

/-- LINE.CONTENT (R135): the line and CRLF go into `rawFrame`, before the field parse. -/
def execLineContent (n : Nat) (line : Bytes) (s : State) : Result :=
  whenSelected (s.lineClass n line = .content)
    (whenFits Config.frameMax ((s.tel n).rawFrame.length + (line ++ crlf).length)
      (performContent n line (s.setTel n ((s.tel n).appendFrame line))))

/-- LINE (R132): the class of the line, performed. -/
def performLine (n : Nat) (line : Bytes) (s : State) : Result :=
  match s.lineClass n line with
  | .start => execLineStart n (line.drop 1) s
  | .skip => execLineSkip n line s
  | .finish => execLineEnd n (line.drop 1) s
  | .content => execLineContent n line s

/-- BYTE.EOL (R131): the trimmed line is taken out of `lineBuf` and performed in the same step. -/
def execByteEol (n : Nat) (s : State) : Result :=
  performLine n (trim (s.tel n).lineBuf) (s.setTel n (s.tel n).clearLine)

/-- BYTE.DATA (R130). -/
def execByteData (n : Nat) (b : Byte) (s : State) : Result :=
  whenSelected (b ≠ Config.eol)
    (whenFits Config.lineMax ((s.tel n).lineBuf.length + 1)
      (.next (s.setTel n ((s.tel n).appendLine b))))

end Sys2Proof.Machine
end

