-- ==== Sys2Proof/Machine/System.lean ====
section
/-! DEFINITION. The control operations (R180, R188): RESET, CANCEL. -/

namespace Sys2Proof.Machine

/-- The unit at its reset value (R29, R180). Inputs still pending and outputs already emitted are not its state. -/
def State.resetUnit (s : State) : UnitRef → State
  | .etd n => s.setEtd n Etd.reset
  | .pls n => s.setPls n Pls.reset
  | .tel n => s.setTel n Tel.reset

/-- RESET (R180). -/
def execReset (u : UnitRef) (s : State) : Result := .next (s.resetUnit u)

/-- CANCEL (R188): RESET. -/
def execCancel (u : UnitRef) (s : State) : Result := .next (s.resetUnit u)

end Sys2Proof.Machine
end

