-- ==== Sys2Proof/Machine/Dispatch.lean ====
section
/-! DEFINITION. One arm per operation, each one direct call of its meaning. -/

namespace Sys2Proof.Machine

/-- The meaning of an operation. -/
def exec (i : Instr) (s : State) : Host.Outcome State Fault Refusal :=
  match i with
  | .edgeFirst u level tick => Sys2Proof.Machine.execEdgeFirst u level tick s
  | .edgeNext u level tick => Sys2Proof.Machine.execEdgeNext u level tick s
  | .sync n ivl => Sys2Proof.Machine.execSync n ivl s
  | .idle n ivl => Sys2Proof.Machine.execIdle n ivl s
  | .pre n ivl => Sys2Proof.Machine.execPre n ivl s
  | .bit0 n ivl => Sys2Proof.Machine.execBit0 n ivl s
  | .bit1 n ivl => Sys2Proof.Machine.execBit1 n ivl s
  | .inv n ivl => Sys2Proof.Machine.execInv n ivl s
  | .done n => Sys2Proof.Machine.execDone n s
  | .pulse n ivl => Sys2Proof.Machine.execPulse n ivl s
  | .debounce n level ivl => Sys2Proof.Machine.execDebounce n level ivl s
  | .byteEol n => Sys2Proof.Machine.execByteEol n s
  | .byteData n b => Sys2Proof.Machine.execByteData n b s
  | .lineStart n header => Sys2Proof.Machine.execLineStart n header s
  | .lineSkip n line => Sys2Proof.Machine.execLineSkip n line s
  | .lineEnd n digits => Sys2Proof.Machine.execLineEnd n digits s
  | .lineContent n line => Sys2Proof.Machine.execLineContent n line s
  | .lineNomatch n line => Sys2Proof.Machine.execLineNomatch n line s
  | .fieldEid n v gs => Sys2Proof.Machine.execFieldEid n v gs s
  | .fieldTariff n v gs => Sys2Proof.Machine.execFieldTariff n v gs s
  | .fieldLow n v gs => Sys2Proof.Machine.execFieldLow n v gs s
  | .fieldHigh n v gs => Sys2Proof.Machine.execFieldHigh n v gs s
  | .fieldCurrent n v gs => Sys2Proof.Machine.execFieldCurrent n v gs s
  | .fieldGas1 n v gs => Sys2Proof.Machine.execFieldGas1 n v gs s
  | .fieldGas2 n v gs => Sys2Proof.Machine.execFieldGas2 n v gs s
  | .fieldGas3 n v gs => Sys2Proof.Machine.execFieldGas3 n v gs s
  | .fieldGas4 n v gs => Sys2Proof.Machine.execFieldGas4 n v gs s
  | .fieldOther n oid v gs => Sys2Proof.Machine.execFieldOther n oid v gs s
  | .crcByte n b => Sys2Proof.Machine.execCrcByte n b s
  | .reset u => Sys2Proof.Machine.execReset u s
  | .cancel u => Sys2Proof.Machine.execCancel u s

end Sys2Proof.Machine
end

