-- ==== Sys2Proof/Machine/Step.lean ====
section
/-! DEFINITION. One step: the next input transaction, decoded and performed (R48). -/

namespace Sys2Proof.Machine

/-- One step. With no input pending the machine holds its state (R206, R189; log 7). -/
def step (s : State) : Host.Outcome State Fault Refusal :=
  match s.fetch with
  | none => .next s
  | some (x, s') => exec (decodeTransaction (s'.control x.port) x) s'

/-- The state whose next step performs a table word (log 8). -/
def State.withFetchWord (s : State) (nbits w : Nat) : State := s.placeWord nbits w

end Sys2Proof.Machine
end

