-- ==== Sys2Proof/Machine/CrcForms.lean ====
section
/-! DEFINITION. The other forms of the CRC that the spec gives: the unreflected form (R171) and the table form (R173).
The machine runs on R170's; these are what it is compared with. -/

namespace Sys2Proof.Machine

/-- One shift of the left-shifting register (R171). -/
def crcShiftLeft (c : BitVec 16) : BitVec 16 :=
  if c.getLsbD 15 = true then (c <<< 1) ^^^ Config.crcPoly else c <<< 1

/-- `repeat k times` the left shift. -/
def crcShiftsLeft : Nat → BitVec 16 → BitVec 16
  | 0, c => c
  | k + 1, c => crcShiftsLeft k (crcShiftLeft c)

/-- One byte in the unreflected form (R171): the reversed byte enters at the high end. -/
def crcByteLeft (c : BitVec 16) (b : Byte) : BitVec 16 :=
  crcShiftsLeft 8 (c ^^^ (b.reverse.setWidth 16 <<< 8))

/-- `crc16` in the unreflected form (R171). -/
def crc16Unreflected (bs : Bytes) : BitVec 16 := (bs.foldl crcByteLeft Config.crcInit).reverse

/-- `T[i] = CRCBYTE(0, i)` (R173). -/
def crcTable (i : Byte) : BitVec 16 := crcByte 0 i

/-- `c <- (c >> 8) ^ T[(c ^ b) & 0xFF]` (R173). -/
def crcByteByTable (c : BitVec 16) (b : Byte) : BitVec 16 := (c >>> 8) ^^^ crcTable (c.setWidth 8 ^^^ b)

end Sys2Proof.Machine
end

