-- ==== Sys2Proof/Machine/Report.lean ====
section
/-! DEFINITION. The silent rejections (R193): which operation, in which state, drops a frame or an event without any
output, and under which reason name. -/

namespace Sys2Proof.Machine

/-- The reason of a verdict that rejects (R107). -/
def Verdict.reason : Verdict → Option RejectReason
  | .accept _ _ => none
  | .reject r => some r

/-- The reason for which an operation performed in a state rejects silently (R193), if it does. -/
def State.silentRejection (s : State) : Instr → Option RejectReason
  | .edgeFirst _ _ _ => none
  | .edgeNext _ _ _ => none
  | .sync n _ => if (s.etd n).inCode = true then some .frameOverrun else none
  | .idle _ _ => none
  | .pre _ _ => none
  | .bit0 n _ =>
    if (s.etd n).bitsSeen + 1 = Config.frameBits then (doneVerdict ((s.etd n).code <<< 1)).reason else none
  | .bit1 n _ =>
    if (s.etd n).bitsSeen + 1 = Config.frameBits then (doneVerdict ((s.etd n).code <<< 1 + 1)).reason else none
  | .inv _ _ => some .invalidBit
  | .done n => (doneVerdict (s.etd n).code).reason
  | .pulse _ _ => none
  | .debounce _ _ _ => some .debounce
  | .byteEol _ => none
  | .byteData _ _ => none
  | .lineStart _ _ => none
  | .lineSkip _ _ => some .lineOutsideFrame
  | .lineEnd _ _ => none
  | .lineContent _ _ => none
  | .lineNomatch _ _ => some .nonMatchingLine
  | .fieldEid _ _ _ => none
  | .fieldTariff _ _ _ => none
  | .fieldLow _ _ _ => none
  | .fieldHigh _ _ _ => none
  | .fieldCurrent _ _ _ => none
  | .fieldGas1 _ _ _ => none
  | .fieldGas2 _ _ _ => none
  | .fieldGas3 _ _ _ => none
  | .fieldGas4 _ _ _ => none
  | .fieldOther _ _ _ _ => some .unknownIdentifier
  | .crcByte _ _ => none
  | .reset _ => none
  | .cancel _ => none

end Sys2Proof.Machine
end

