-- ==== Sys2Proof/Machine/Stimulus.lean ====
section
/-! DEFINITION. The notation for input sequences (R79): its items as lists of input transactions. -/

namespace Sys2Proof.Machine

/-- `IVL n, l` items (R79) after an `EDGE` of tick `prev`: each an edge event that many ticks after the one before. -/
def ivlEvents (u : EdgeUnit) (prev : Tick) : List (Tick × Bool) → List Transaction
  | [] => []
  | (ivl, level) :: rest => .edge u (ev33 level (prev + ivl)) :: ivlEvents u (prev + ivl) rest

/-- The interval of a data bit in `SBYTE` (R79): 120 for a 1, 80 for a 0. -/
def bitIvl (b : Bool) : Tick := if b = true then 120 else 80

/-- `SBYTE v` (R79): the bits of `v`, bit 7 first. -/
def sbyteIvls (v : Byte) : List Tick :=
  [v.getLsbD 7, v.getLsbD 6, v.getLsbD 5, v.getLsbD 4, v.getLsbD 3, v.getLsbD 2, v.getLsbD 1, v.getLsbD 0].map bitIvl

/-- `SFRAME b4 b3 b2 b1 b0` (R79, R80): the bytes in wire order. -/
def sframeIvls (wire : List Byte) : List Tick := 12000 :: 80 :: 80 :: wire.flatMap sbyteIvls

/-- `LINE "text"` (R79): the text, CR, LF. -/
def lineEvents (n : Nat) (text : Bytes) : List Transaction := (text ++ crlf).map (Transaction.byte n)

/-- `LINELF "text"` (R79): the text, LF. -/
def lineLfEvents (n : Nat) (text : Bytes) : List Transaction := (text ++ [Config.eol]).map (Transaction.byte n)

/-- One hexadecimal digit, upper case. -/
def hexChar (v : Nat) : Byte := if v < 10 then BitVec.ofNat 8 (0x30 + v) else BitVec.ofNat 8 (0x37 + v)

/-- `hex4` (R140): four hexadecimal digits, most significant first. -/
def hex4 (c : BitVec 16) : Bytes :=
  [hexChar (c.toNat / 4096), hexChar (c.toNat / 256 % 16), hexChar (c.toNat / 16 % 16), hexChar (c.toNat % 16)]

end Sys2Proof.Machine
end

