-- ==== Sys2Proof/Machine/Tagged.lean ====
section
/-! DEFINITION. The tagged form of the ETD control state (R17): the second, equivalent form the source's design note
offers. The machine runs on the register form; this one is what it is compared with. -/

namespace Sys2Proof.Machine

/-- The resting states of R17. `Complete` and `Aborted` are instants inside a step and end in `Idle`. -/
inductive EtdTag where
  | idle
  /-- Whether one preamble interval is absorbed. -/
  | syncing (one : Bool)
  /-- How many bits are held. -/
  | accumulating (n : Nat)
  deriving DecidableEq, Repr

/-- The tagged state of a unit (R17's table). -/
def Etd.tag (e : Etd) : EtdTag :=
  if e.inCode = false then .idle
  else if e.bitsSeen.toInt = -2 then .syncing false
  else if e.bitsSeen.toInt = -1 then .syncing true
  else .accumulating e.bitsSeen.toInt.toNat

/-- The transitions of the tagged form (R17, R101 to R107). -/
def EtdTag.next (tag : EtdTag) (ivl : Tick) : EtdTag :=
  if Config.syncMin < ivl.toNat then .syncing false
  else match tag with
    | .idle => .idle
    | .syncing false => .syncing true
    | .syncing true => .accumulating 0
    | .accumulating n =>
      if Config.zeroLo ≤ ivl.toNat ∧ ivl.toNat < Config.oneHi then
        if n + 1 = 40 then .idle else .accumulating (n + 1)
      else .idle

end Sys2Proof.Machine
end

