-- ==== Sys2Proof/Safety.lean ====
section
/-! DEFINITION. What a good state is (the reachable-state rules R16, R31, R137, R139, R67 and the canonical form), what a
good output is, and when two states differ only in dead state (R30). -/

namespace Sys2Proof.Machine

/-- R16. -/
def Etd.Inv (e : Etd) : Prop :=
  -2 ≤ e.bitsSeen.toInt ∧ e.bitsSeen.toInt ≤ 40 ∧
  (e.inCode = true → e.bitsSeen.toInt ≤ 39 ∧ e.code.toNat < 2 ^ e.bitsSeen.toInt.toNat) ∧
  (e.inCode = false → (e.bitsSeen.toInt = -2 ∧ e.code = 0) ∨ 1 ≤ e.bitsSeen.toInt)

/-- The integer fields hold only 0 .. 2^63 − 1 (R23, D20). -/
def Packet.Inv (p : Packet) : Prop :=
  p.tariff.toNat < 2 ^ 63 ∧ p.lowConsumedWh.toNat < 2 ^ 63 ∧ p.highConsumedWh.toNat < 2 ^ 63 ∧
  p.currentConsumedWh.toNat < 2 ^ 63 ∧ p.gasConsumedL.toNat < 2 ^ 63

/-- The text of a list of lines in `rawFrame`: each with CRLF (R137). -/
def frameText (lines : List Bytes) : Bytes := lines.flatMap fun l => l ++ crlf

/-- `lineBuf` never holds the separator (R67), the CRC register survives no step (R31; that it reads 0 between steps is
the model's choice, log 6), the integers are in range (R23), and while a frame is read `rawFrame` holds its start line
and then its content lines (R137). -/
def Tel.Inv (t : Tel) : Prop :=
  Config.eol ∉ t.lineBuf ∧ t.crc = 0 ∧ t.packet.Inv ∧
  (t.reading = true → ∃ lines : List Bytes,
    t.rawFrame = startText Config.rawIncludesStart (chSlash :: t.packet.header) ++ frameText lines ∧
    ∀ l ∈ lines, trim l = l ∧ l.head? ≠ some chBang)

/-- An output as R63 and R190 have it: a reading within the calibrated ranges, a packet with its integers in range, an
error whose line is trimmed and whose `computed` is 0 unless it is ChecksumMismatch. -/
def Output.Valid : Output → Prop
  | .reading _ temp hum => -500 ≤ temp.toInt ∧ temp.toInt ≤ 1350 ∧ hum.toNat ≤ 1100
  | .pulseUnit _ => True
  | .packet _ p => p.Inv
  | .error _ code line computed => trim line = line ∧ (code ≠ .checksumMismatch → computed = 0)

/-- The invariant of the machine. The canonical form is the model's choice (log 2). -/
def State.Inv (s : State) : Prop :=
  s.wf = true ∧ (∀ n, (s.etd n).Inv) ∧ (∀ n, (s.tel n).Inv) ∧ ∀ o ∈ s.outputs, o.Valid

/-! ## Lines of a frame (R150, R159) -/

/-- Whether a content line raises a field error (R160): its class has a numeric operand and the first group is not one. -/
def lineRaises (line : Bytes) : Bool :=
  match parseField line with
  | none => false
  | some f =>
    match fieldKind f.oid with
    | .eid => false
    | .tariff => (tariffOperand f.value1).isNone
    | .low => (kwhOperand Config.kwhScaleMode f.value1).isNone
    | .high => (kwhOperand Config.kwhScaleMode f.value1).isNone
    | .current => (kwhOperand Config.kwhScaleMode f.value1).isNone
    | .gas1 => (m3Operand f.value1).isNone
    | .gas2 => (m3Operand f.value1).isNone
    | .gas3 => (m3Operand f.value1).isNone
    | .gas4 => (m3Operand f.value1).isNone
    | .other => false

/-- The packet after a content line that raises nothing (R150): its class's field written, the others kept (R159). -/
def packetAfterLine (p : Packet) (line : Bytes) : Packet :=
  match parseField line with
  | none => p
  | some f =>
    let kwh := BitVec.ofNat 64 ((kwhOperand Config.kwhScaleMode f.value1).getD 0)
    let m3 := BitVec.ofNat 64 ((m3Operand f.value1).getD 0)
    match fieldKind f.oid with
    | .eid => { p with eid := f.value1 }
    | .tariff => { p with tariff := BitVec.ofNat 64 ((tariffOperand f.value1).getD 0) }
    | .low => { p with lowConsumedWh := kwh }
    | .high => { p with highConsumedWh := kwh }
    | .current => { p with currentConsumedWh := kwh }
    | .gas1 => { p with gasConsumedL := m3 }
    | .gas2 => { p with gasConsumedL := m3 }
    | .gas3 => { p with gasConsumedL := m3 }
    | .gas4 => { p with gasConsumedL := m3 }
    | .other => p

/-! ## Dead state (R30) -/

/-- An ETD unit with its dead state at the reset values (R30). -/
def Etd.live (e : Etd) : Etd :=
  { e with
    prev := if e.prevValid = true then e.prev else 0
    code := if e.inCode = true then e.code else 0
    bitsSeen := if e.inCode = true then e.bitsSeen else Config.sentinel }

/-- A PLS unit with its dead state at the reset values (R30). -/
def Pls.live (p : Pls) : Pls := { p with prev := if p.prevValid = true then p.prev else 0 }

/-- A TEL unit with its dead state at the reset values (R30), and without the CRC register (R31). -/
def Tel.live (t : Tel) : Tel :=
  { t with
    rawFrame := if t.reading = true then t.rawFrame else []
    packet := if t.reading = true then t.packet else zeroPacket []
    crc := 0 }

/-- Two states that differ at most in dead state, and in what has been emitted. -/
def State.LiveEq (s t : State) : Prop :=
  (∀ n, (s.etd n).live = (t.etd n).live) ∧ (∀ n, (s.pls n).live = (t.pls n).live) ∧
  (∀ n, (s.tel n).live = (t.tel n).live) ∧ s.inputs = t.inputs

/-! ## Units (R204) -/

/-- Two states in which a unit has the same state. -/
def State.AgreeOn (s t : State) : UnitRef → Prop
  | .etd n => s.etd n = t.etd n
  | .pls n => s.pls n = t.pls n
  | .tel n => s.tel n = t.tel n

/-- The unit an output comes from. -/
def Output.unit : Output → UnitRef
  | .reading n _ _ => .etd n
  | .pulseUnit n => .pls n
  | .packet n _ => .tel n
  | .error n _ _ _ => .tel n

end Sys2Proof.Machine
end

