-- ==== Sys2Proof/Certificates/Slice0/Obligations.lean ====
section
/-! DEFINITION. The statements for the provers. Each docstring names the rule of spec/ it formalises, or says what it
rests on. Numbers are written out where the rule writes them. -/

open Sys2Proof Sys2Proof.Machine

/-! ## The interval clock -/

/-- R90: the interval is the difference of the ticks modulo 2^32. -/
def Obligations.IntervalIsDifferenceModulo : Prop :=
  ∀ prev cur : Tick, (interval prev cur).toNat = (cur.toNat + 2 ^ 32 - prev.toNat) % 2 ^ 32

/-- R93, which the spec marks as derived: a gap of any number of ticks is read modulo 2^32. -/
def Obligations.IntervalIsTrueGapModulo : Prop :=
  ∀ (prev : Tick) (gap : Nat), (interval prev (prev + BitVec.ofNat 32 gap)).toNat = gap % 2 ^ 32

/-- R91: the first edge event only primes the clock, on either kind of unit, whatever its level. -/
def Obligations.EdgeFirstPrimesClock : Prop :=
  ∀ (s : State) (n : Nat) (level : Bool) (tick : Tick),
    ((s.etd n).prevValid = false →
      exec (.edgeFirst (.etd n) level tick) s
        = .next (s.setEtd n { s.etd n with prev := tick, prevValid := true })) ∧
    ((s.pls n).prevValid = false →
      exec (.edgeFirst (.pls n) level tick) s = .next (s.setPls n ⟨tick, true⟩))

/-- R92: the interval, `prev <- tick`, and the unit's level-2 class in the same step; it always completes, with
`prev = tick` whatever the class. -/
def Obligations.EdgeNextPerformsIntervalClass : Prop :=
  ∀ (s : State) (n : Nat) (level : Bool) (tick : Tick),
    ((s.etd n).prevValid = true →
      exec (.edgeNext (.etd n) level tick) s
        = exec (decodeIvl n (s.etd n).inCode (s.etd n).bitsSeen (interval (s.etd n).prev tick))
            (s.setEtd n { s.etd n with prev := tick }) ∧
      ∃ t, exec (.edgeNext (.etd n) level tick) s = .next t ∧
        (t.etd n).prev = tick ∧ (t.etd n).prevValid = true) ∧
    ((s.pls n).prevValid = true →
      exec (.edgeNext (.pls n) level tick) s
        = exec (decodePls n level (interval (s.pls n).prev tick)) (s.setPls n ⟨tick, true⟩) ∧
      ∃ t, exec (.edgeNext (.pls n) level tick) s = .next t ∧ t.pls n = ⟨tick, true⟩)

/-! ## The edge-timing decoder -/

/-- R65: the interval classes, in every control state with −2 ≤ `bitsSeen` ≤ 39 while a frame is in progress. -/
def Obligations.IntervalClassTable : Prop :=
  ∀ (n : Nat) (inCode : Bool) (bitsSeen : BitVec 8) (ivl : Tick),
    (inCode = true → -2 ≤ bitsSeen.toInt ∧ bitsSeen.toInt ≤ 39) →
    let i := decodeIvl n inCode bitsSeen ivl
    (i = .sync n ivl ↔ 10000 < ivl.toNat) ∧
    (i = .idle n ivl ↔ ivl.toNat ≤ 10000 ∧ inCode = false) ∧
    (i = .pre n ivl ↔
      ivl.toNat ≤ 10000 ∧ inCode = true ∧ (bitsSeen.toInt = -2 ∨ bitsSeen.toInt = -1)) ∧
    (i = .bit0 n ivl ↔ inCode = true ∧ 0 ≤ bitsSeen.toInt ∧ 60 ≤ ivl.toNat ∧ ivl.toNat ≤ 100) ∧
    (i = .bit1 n ivl ↔ inCode = true ∧ 0 ≤ bitsSeen.toInt ∧ 101 ≤ ivl.toNat ∧ ivl.toNat ≤ 149) ∧
    (i = .inv n ivl ↔ inCode = true ∧ 0 ≤ bitsSeen.toInt ∧
      (ivl.toNat ≤ 59 ∨ (150 ≤ ivl.toNat ∧ ivl.toNat ≤ 10000)))

/-- R101: a sync interval starts a fresh frame from any state. -/
def Obligations.SyncStartsFrame : Prop :=
  ∀ (s : State) (n : Nat) (ivl : Tick), 10000 < ivl.toNat →
    exec (.sync n ivl) s
      = .next (s.setEtd n { s.etd n with inCode := true, code := 0, bitsSeen := BitVec.ofInt 8 (-2) })

/-- R102: while idle, an interval that is not a sync changes nothing. -/
def Obligations.IdleIgnoresInterval : Prop :=
  ∀ (s : State) (n : Nat) (ivl : Tick), ivl.toNat ≤ 10000 → (s.etd n).inCode = false →
    exec (.idle n ivl) s = .next s

/-- R103: a preamble interval of any length is counted and not examined. -/
def Obligations.PreambleIntervalIsCounted : Prop :=
  ∀ (s : State) (n : Nat) (ivl : Tick), ivl.toNat ≤ 10000 → (s.etd n).inCode = true →
    ((s.etd n).bitsSeen.toInt = -2 →
      exec (.pre n ivl) s = .next (s.setEtd n { s.etd n with bitsSeen := BitVec.ofInt 8 (-1) })) ∧
    ((s.etd n).bitsSeen.toInt = -1 →
      exec (.pre n ivl) s = .next (s.setEtd n { s.etd n with bitsSeen := 0 }))

/-- R104: a 0 bit is shifted in; the fortieth performs DONE. -/
def Obligations.BitZeroShiftsIn : Prop :=
  ∀ (s : State) (n k : Nat) (ivl : Tick), (s.etd n).inCode = true → (s.etd n).bitsSeen.toInt = k → k ≤ 39 →
    60 ≤ ivl.toNat → ivl.toNat ≤ 100 →
    let e : Etd := { s.etd n with
      bitsSeen := BitVec.ofNat 8 (k + 1), code := BitVec.ofNat 64 (2 * (s.etd n).code.toNat) }
    (k + 1 < 40 → exec (.bit0 n ivl) s = .next (s.setEtd n e)) ∧
    (k + 1 = 40 → exec (.bit0 n ivl) s = exec (.done n) (s.setEtd n e) ∧
      ∃ t, exec (.bit0 n ivl) s = .next t ∧ t.etd n = { e with inCode := false })

/-- R105: a 1 bit is shifted in; the fortieth performs DONE. -/
def Obligations.BitOneShiftsIn : Prop :=
  ∀ (s : State) (n k : Nat) (ivl : Tick), (s.etd n).inCode = true → (s.etd n).bitsSeen.toInt = k → k ≤ 39 →
    100 < ivl.toNat → ivl.toNat < 150 →
    let e : Etd := { s.etd n with
      bitsSeen := BitVec.ofNat 8 (k + 1), code := BitVec.ofNat 64 (2 * (s.etd n).code.toNat + 1) }
    (k + 1 < 40 → exec (.bit1 n ivl) s = .next (s.setEtd n e)) ∧
    (k + 1 = 40 → exec (.bit1 n ivl) s = exec (.done n) (s.setEtd n e) ∧
      ∃ t, exec (.bit1 n ivl) s = .next t ∧ t.etd n = { e with inCode := false })

/-- R106: an invalid interval abandons the frame without output, also at the fortieth position. -/
def Obligations.InvalidIntervalAbandonsFrame : Prop :=
  ∀ (s : State) (n k : Nat) (ivl : Tick), (s.etd n).inCode = true → (s.etd n).bitsSeen.toInt = k → k ≤ 39 →
    (ivl.toNat ≤ 59 ∨ (150 ≤ ivl.toNat ∧ ivl.toNat ≤ 10000)) →
    exec (.inv n ivl) s = .next (s.setEtd n { s.etd n with
      bitsSeen := BitVec.ofNat 8 (k + 1), code := BitVec.ofNat 64 (2 * (s.etd n).code.toNat), inCode := false })

/-- R107 to R111: the checksum, the humidity and temperature formulas and their ranges; one reading, or none; idle
afterwards. -/
def Obligations.DoneValidatesFrame : Prop :=
  ∀ (s : State) (n : Nat), (s.etd n).inCode = true → (s.etd n).bitsSeen = 40 →
    let byte (i : Nat) : Nat := (s.etd n).code.toNat / 2 ^ (8 * i) % 256
    let sum := (byte 1 + byte 2 + byte 3 + byte 4) % 256
    let hum := byte 4 * 256 + byte 3
    let mag := byte 2 % 128 * 256 + byte 1
    let temp : Int := if 128 ≤ byte 2 then -(mag : Int) else (mag : Int)
    let idle := s.setEtd n { s.etd n with inCode := false }
    exec (.done n) s = .next
      (if sum = byte 0 ∧ hum ≤ 1100 ∧ -500 ≤ temp ∧ temp ≤ 1350 then
        idle.emit (.reading n (BitVec.ofInt 16 temp) (BitVec.ofNat 16 hum))
      else idle)

/-- R17: the tagged form and the register form make the same transitions, in the states of R16. -/
def Obligations.TaggedFormFollowsRegisters : Prop :=
  ∀ (s t : State) (n : Nat) (level : Bool) (tick : Tick), (s.etd n).Inv →
    exec (.edgeNext (.etd n) level tick) s = .next t →
    (t.etd n).tag = (s.etd n).tag.next (interval (s.etd n).prev tick)

/-- R113 and the source's property on valid frames (S2): from any state whose clock is primed, a sync interval, two
preamble intervals of any length and forty data intervals shift in exactly their bits, most significant first, and end
with the verdict of DONE on them, whatever the levels and whatever the unit held before. -/
def Obligations.SensorFrameYieldsVerdict : Prop :=
  ∀ (s : State) (n : Nat) (sync pre1 pre2 : Tick) (bits : List Bool) (data : List Tick)
    (events : List (Tick × Bool)) (rest : List Transaction),
    (s.etd n).prevValid = true → 10000 < sync.toNat → pre1.toNat ≤ 10000 → pre2.toNat ≤ 10000 →
    bits.length = 40 →
    List.Forall₂ (fun (b : Bool) (ivl : Tick) =>
      if b = true then 101 ≤ ivl.toNat ∧ ivl.toNat ≤ 149 else 60 ≤ ivl.toNat ∧ ivl.toNat ≤ 100) bits data →
    events.map Prod.fst = sync :: pre1 :: pre2 :: data →
    s.inputs = ivlEvents (.etd n) (s.etd n).prev events ++ rest →
    let code : BitVec 64 := BitVec.ofNat 64 (bits.foldl (fun c b => 2 * c + b.toNat) 0)
    ∃ t, Host.Core.run Sys2Proof.core 43 s = .next t ∧ t.inputs = rest ∧
      (t.etd n).inCode = false ∧ (t.etd n).bitsSeen = 40 ∧ (t.etd n).code = code ∧
      t.outputs = s.outputs ++ (match doneVerdict code with
        | .accept temp hum => [.reading n temp hum]
        | .reject _ => [])

/-! ## The pulse counter -/

/-- R120: a qualifying pulse emits exactly one unit and changes nothing else. -/
def Obligations.PulseEmitsOneUnit : Prop :=
  ∀ (s : State) (n : Nat) (ivl : Tick), 1000000 < ivl.toNat →
    exec (.pulse n ivl) s = .next (s.emit (.pulseUnit n))

/-- R121: a falling edge or a short interval is discarded. -/
def Obligations.DebounceHasNoEffect : Prop :=
  ∀ (s : State) (n : Nat) (level : Bool) (ivl : Tick), (level = false ∨ ivl.toNat ≤ 1000000) →
    exec (.debounce n level ivl) s = .next s

/-- R124, which the spec marks as derived: after a falling edge the rising edge that follows within 1000000 ticks emits
nothing, however long ago the event before the falling edge was. -/
def Obligations.GlitchResetsReference : Prop :=
  ∀ (s : State) (n : Nat) (fall rise : Tick) (rest : List Transaction),
    (s.pls n).prevValid = true → (interval fall rise).toNat ≤ 1000000 →
    s.inputs = .edge (.pls n) (ev33 false fall) :: .edge (.pls n) (ev33 true rise) :: rest →
    ∃ t, Host.Core.run Sys2Proof.core 2 s = .next t ∧ t.outputs = s.outputs ∧ t.pls n = ⟨rise, true⟩

/-! ## The telegram frame assembler -/

/-- R130: every byte but 0x0A is stored at the end of `lineBuf`. -/
def Obligations.ByteDataAppends : Prop :=
  ∀ (s : State) (n : Nat) (b : Byte), b ≠ 0x0A →
    exec (.byteData n b) s = .next (s.setTel n { s.tel n with lineBuf := (s.tel n).lineBuf ++ [b] })

/-- R131: the trimmed line is taken out of `lineBuf` and its class performed in the same step, which completes. -/
def Obligations.ByteEolPerformsTrimmedLine : Prop :=
  ∀ (s : State) (n : Nat),
    exec (.byteEol n) s
      = exec (decodeLine n (s.tel n).reading (trim (s.tel n).lineBuf)) (s.setTel n { s.tel n with lineBuf := [] }) ∧
    ∃ t, exec (.byteEol n) s = .next t ∧ (t.tel n).lineBuf = []

/-- R67: trimming removes whitespace bytes from the front and the back, all of them, and nothing else. -/
def Obligations.TrimRemovesOuterWhitespace : Prop :=
  ∀ line : Bytes,
    let ws : Byte → Prop := fun b => b ∈ ([0x09, 0x0A, 0x0B, 0x0C, 0x0D, 0x20] : List Byte)
    (∃ front back : Bytes, line = front ++ trim line ++ back ∧ (∀ b ∈ front, ws b) ∧ ∀ b ∈ back, ws b) ∧
    (∀ b, (trim line).head? = some b → ¬ ws b) ∧ (∀ b, (trim line).getLast? = some b → ¬ ws b)

/-- R66 and R68: the classes of a pulse interval and of a line. -/
def Obligations.LineAndPulseClassTables : Prop :=
  (∀ (n : Nat) (level : Bool) (ivl : Tick),
    (decodePls n level ivl = .pulse n ivl ↔ level = true ∧ 1000000 < ivl.toNat) ∧
    (decodePls n level ivl = .debounce n level ivl ↔ level = false ∨ ivl.toNat ≤ 1000000)) ∧
  (∀ (n : Nat) (reading : Bool) (line tail : Bytes),
    (decodeLine n reading line = .lineStart n tail ↔ reading = false ∧ line = 0x2F :: tail) ∧
    (decodeLine n reading line = .lineSkip n line ↔ reading = false ∧ line.head? ≠ some 0x2F) ∧
    (decodeLine n reading line = .lineEnd n tail ↔ reading = true ∧ line = 0x21 :: tail) ∧
    (decodeLine n reading line = .lineContent n line ↔ reading = true ∧ line.head? ≠ some 0x21))

/-- R133: a start line opens a frame with a new packet, its text in `rawFrame` (`RAW_INCLUDES_START = true`, the spec's
decision D14). -/
def Obligations.LineStartOpensFrame : Prop :=
  ∀ (s : State) (n : Nat) (header : Bytes), (s.tel n).reading = false →
    exec (.lineStart n header) s = .next (s.setTel n { s.tel n with
      reading := true, packet := ⟨header, [], 0, 0, 0, 0, 0⟩, rawFrame := 0x2F :: header ++ [0x0D, 0x0A] })

/-- R136: outside a frame any other line has no effect. -/
def Obligations.LineSkipHasNoEffect : Prop :=
  ∀ (s : State) (n : Nat) (line : Bytes), (s.tel n).reading = false → line.head? ≠ some 0x2F →
    exec (.lineSkip n line) s = .next s

/-- R134: digits that are not well-formed, a checksum that matches, one that does not; the frame ends in all three.
`crc := 0`: R31 says that the register survives no step; that it then reads 0 is the model's choice (log 6). -/
def Obligations.LineEndChecksChecksum : Prop :=
  ∀ (s : State) (n : Nat) (digits : Bytes), (s.tel n).reading = true →
    let crc := crc16 ((s.tel n).rawFrame ++ [0x21])
    let ended := s.setTel n { s.tel n with reading := false, crc := 0 }
    (checksumOperand digits = none →
      exec (.lineEnd n digits) s
        = .next ((s.setTel n { s.tel n with reading := false }).emit (.error n .checksumParse (0x21 :: digits) 0))) ∧
    (∀ tx, checksumOperand digits = some tx → tx = crc.toNat →
      exec (.lineEnd n digits) s = .next (ended.emit (.packet n (s.tel n).packet))) ∧
    (∀ tx, checksumOperand digits = some tx → tx ≠ crc.toNat →
      exec (.lineEnd n digits) s
        = .next (ended.emit (.error n .checksumMismatch (0x21 :: digits) crc)))

/-- R76: the transmitted checksum is the value of one or more hexadecimal digits of either case, most significant
first, not truncated. -/
def Obligations.TransmittedChecksumIsHexValue : Prop :=
  ∀ (digits : Bytes) (tx : Nat),
    let hex : Byte → Prop := fun b =>
      (0x30 ≤ b.toNat ∧ b.toNat ≤ 0x39) ∨ (0x41 ≤ b.toNat ∧ b.toNat ≤ 0x46) ∨ (0x61 ≤ b.toNat ∧ b.toNat ≤ 0x66)
    let value : Byte → Nat := fun b =>
      if b.toNat ≤ 0x39 then b.toNat - 0x30 else if b.toNat ≤ 0x46 then b.toNat - 0x41 + 10 else b.toNat - 0x61 + 10
    checksumOperand digits = some tx ↔
      digits ≠ [] ∧ (∀ b ∈ digits, hex b) ∧ tx = Nat.ofDigits 16 (digits.reverse.map value)

/-- R135: a content line and CRLF go into `rawFrame` before the line's field class is performed, which completes. -/
def Obligations.LineContentAppendsThenParses : Prop :=
  ∀ (s : State) (n : Nat) (line : Bytes), (s.tel n).reading = true → line.head? ≠ some 0x21 →
    let appended := (s.tel n).rawFrame ++ line ++ [0x0D, 0x0A]
    exec (.lineContent n line) s
      = exec (decodeContent n line) (s.setTel n { s.tel n with rawFrame := appended }) ∧
    ∃ t, exec (.lineContent n line) s = .next t ∧ (t.tel n).rawFrame = appended ∧
      (t.tel n).lineBuf = (s.tel n).lineBuf

/-- R135 and R158: a line that does not match the grammar, and one whose identifier is not in the table, have no effect
beyond the append. -/
def Obligations.UnparsedLinesHaveNoEffect : Prop :=
  ∀ (s : State) (n : Nat) (line oid value1 : Bytes) (groups : List Bytes), (s.tel n).reading = true →
    (parseField line = none → exec (.lineNomatch n line) s = .next s) ∧
    (fieldKind oid = .other → exec (.fieldOther n oid value1 groups) s = .next s)

/-! ## The field parser -/

/-- R69 to R71: a line matches exactly when it is an identifier and one or more groups; the parts are its own. -/
def Obligations.FieldGrammarIsParsed : Prop :=
  ∀ (line oid value1 : Bytes) (groups : List Bytes),
    let group : Bytes → Bytes := fun v => 0x28 :: v ++ [0x29]
    parseField line = some ⟨oid, value1, groups⟩ ↔
      line = oid ++ group value1 ++ groups.flatMap group ∧ oid ≠ [] ∧
      (∀ b ∈ oid, (0x30 ≤ b.toNat ∧ b.toNat ≤ 0x39) ∨ b = 0x2D ∨ b = 0x3A ∨ b = 0x2E) ∧
      ∀ v ∈ value1 :: groups, ∀ b ∈ v, b ≠ 0x28 ∧ b ≠ 0x29

/-- R70 and R72: the class of an identifier is that of the table's exact byte string, and FIELD.OTHER for any other. -/
def Obligations.FieldDispatchTable : Prop :=
  ∀ oid : Bytes,
    (fieldKind oid = .eid ↔ oid = [0x30, 0x2D, 0x30, 0x3A, 0x39, 0x36, 0x2E, 0x31, 0x2E, 0x31]) ∧
    (fieldKind oid = .tariff ↔ oid = [0x30, 0x2D, 0x30, 0x3A, 0x39, 0x36, 0x2E, 0x31, 0x34, 0x2E, 0x30]) ∧
    (fieldKind oid = .low ↔ oid = [0x31, 0x2D, 0x30, 0x3A, 0x31, 0x2E, 0x38, 0x2E, 0x31]) ∧
    (fieldKind oid = .high ↔ oid = [0x31, 0x2D, 0x30, 0x3A, 0x31, 0x2E, 0x38, 0x2E, 0x32]) ∧
    (fieldKind oid = .current ↔ oid = [0x31, 0x2D, 0x30, 0x3A, 0x31, 0x2E, 0x37, 0x2E, 0x30]) ∧
    (fieldKind oid = .gas1 ↔ oid = [0x31, 0x2D, 0x31, 0x3A, 0x32, 0x34, 0x2E, 0x32, 0x2E, 0x31]) ∧
    (fieldKind oid = .gas2 ↔ oid = [0x31, 0x2D, 0x32, 0x3A, 0x32, 0x34, 0x2E, 0x32, 0x2E, 0x31]) ∧
    (fieldKind oid = .gas3 ↔ oid = [0x31, 0x2D, 0x33, 0x3A, 0x32, 0x34, 0x2E, 0x32, 0x2E, 0x31]) ∧
    (fieldKind oid = .gas4 ↔ oid = [0x31, 0x2D, 0x34, 0x3A, 0x32, 0x34, 0x2E, 0x32, 0x2E, 0x31])

/-- R152: the first group is stored unchanged, whatever it is; it never fails. -/
def Obligations.FieldEidStoresString : Prop :=
  ∀ (s : State) (n : Nat) (value1 : Bytes) (groups : List Bytes), (s.tel n).reading = true →
    exec (.fieldEid n value1 groups) s
      = .next (s.setTel n { s.tel n with packet := { (s.tel n).packet with eid := value1 } })

/-- R153, R196: the tariff is stored, or error 3 is reported for the whole line and the frame aborted. -/
def Obligations.FieldTariffStoresOrAborts : Prop :=
  ∀ (s : State) (n : Nat) (value1 : Bytes) (groups : List Bytes), (s.tel n).reading = true →
    (∀ v, tariffOperand value1 = some v →
      exec (.fieldTariff n value1 groups) s
        = .next (s.setTel n { s.tel n with packet := { (s.tel n).packet with tariff := BitVec.ofNat 64 v } })) ∧
    (tariffOperand value1 = none →
      exec (.fieldTariff n value1 groups) s
        = .next ((s.setTel n { s.tel n with reading := false }).emit
            (.error n .fieldTariff (fieldText oidTariff value1 groups) 0)))

/-- R154 to R156, R196: the three kWh classes store to their own field, or report error 4 and abort. -/
def Obligations.FieldKwhStoresOrAborts : Prop :=
  ∀ (s : State) (n : Nat) (value1 : Bytes) (groups : List Bytes), (s.tel n).reading = true →
    let p := (s.tel n).packet
    let store (p : Packet) : State := s.setTel n { s.tel n with packet := p }
    let abort (oid : Bytes) : State := (s.setTel n { s.tel n with reading := false }).emit
      (.error n .fieldKwh (fieldText oid value1 groups) 0)
    (∀ v, kwhOperand .exactDecimal value1 = some v →
      exec (.fieldLow n value1 groups) s = .next (store { p with lowConsumedWh := BitVec.ofNat 64 v }) ∧
      exec (.fieldHigh n value1 groups) s = .next (store { p with highConsumedWh := BitVec.ofNat 64 v }) ∧
      exec (.fieldCurrent n value1 groups) s = .next (store { p with currentConsumedWh := BitVec.ofNat 64 v })) ∧
    (kwhOperand .exactDecimal value1 = none →
      exec (.fieldLow n value1 groups) s = .next (abort oidLow) ∧
      exec (.fieldHigh n value1 groups) s = .next (abort oidHigh) ∧
      exec (.fieldCurrent n value1 groups) s = .next (abort oidCurrent))

/-- R157, R196: the four gas identifiers store whole cubic metres to the one field, or report error 5 and abort. -/
def Obligations.FieldGasStoresOrAborts : Prop :=
  ∀ (s : State) (n : Nat) (value1 : Bytes) (groups : List Bytes), (s.tel n).reading = true →
    (∀ v, m3Operand value1 = some v →
      ∀ i ∈ [Instr.fieldGas1 n value1 groups, .fieldGas2 n value1 groups, .fieldGas3 n value1 groups,
          .fieldGas4 n value1 groups],
        exec i s = .next (s.setTel n { s.tel n with
          packet := { (s.tel n).packet with gasConsumedL := BitVec.ofNat 64 v } })) ∧
    (m3Operand value1 = none →
      ∀ x ∈ [(Instr.fieldGas1 n value1 groups, oidGas1), (.fieldGas2 n value1 groups, oidGas2),
          (.fieldGas3 n value1 groups, oidGas3), (.fieldGas4 n value1 groups, oidGas4)],
        exec x.1 s = .next ((s.setTel n { s.tel n with reading := false }).emit
          (.error n .fieldM3 (fieldText x.2 value1 groups) 0)))

/-- R75, R151: the tariff operand is the decimal value of one or more digits, below 2^63. -/
def Obligations.TariffOperandIsDecimalValue : Prop :=
  ∀ (value1 : Bytes) (v : Nat),
    tariffOperand value1 = some v ↔
      value1 ≠ [] ∧ (∀ b ∈ value1, 0x30 ≤ b.toNat ∧ b.toNat ≤ 0x39) ∧
      v = Nat.ofDigits 10 (value1.reverse.map fun b => b.toNat - 0x30) ∧ v < 2 ^ 63

/-- R73, R151: the kWh operand is `floor(1000 × x)` of the decimal number `x` before `*kWh`, below 2^63. `point` says
whether the token has a decimal point; `x` is `digits / 10^(number of fraction digits)`. -/
def Obligations.KwhOperandIsFloorOfThousandTimes : Prop :=
  ∀ (value1 : Bytes) (v : Nat),
    let digit : Byte → Prop := fun b => 0x30 ≤ b.toNat ∧ b.toNat ≤ 0x39
    kwhOperand .exactDecimal value1 = some v ↔
      ∃ (whole frac : Bytes) (point : Bool), (point = false → frac = []) ∧
        value1 = whole ++ (if point = true then 0x2E :: frac else []) ++ [0x2A, 0x6B, 0x57, 0x68] ∧
        whole ≠ [] ∧ (∀ b ∈ whole, digit b) ∧ (∀ b ∈ frac, digit b) ∧
        v = 1000 * Nat.ofDigits 10 ((whole ++ frac).reverse.map fun b => b.toNat - 0x30) / 10 ^ frac.length ∧
        v < 2 ^ 63

/-- R74, R151: the m³ operand is the whole part of the number before `*m3`, below 2^63; the fraction is only checked. -/
def Obligations.GasOperandIsWholePart : Prop :=
  ∀ (value1 : Bytes) (v : Nat),
    let digit : Byte → Prop := fun b => 0x30 ≤ b.toNat ∧ b.toNat ≤ 0x39
    m3Operand value1 = some v ↔
      ∃ (whole frac : Bytes) (point : Bool), (point = false → frac = []) ∧
        value1 = whole ++ (if point = true then 0x2E :: frac else []) ++ [0x2A, 0x6D, 0x33] ∧
        whole ≠ [] ∧ (∀ b ∈ whole, digit b) ∧ (∀ b ∈ frac, digit b) ∧
        v = Nat.ofDigits 10 (whole.reverse.map fun b => b.toNat - 0x30) ∧ v < 2 ^ 63

/-! ## The checksum -/

/-- R170: CRC.BYTE on the register, and `crc16` as its loop from 0. The spec marks the algorithm as general knowledge
(G1, log 22). That CRC.BYTE performed alone updates and leaves a register held in the TEL unit is the model's choice
(log 6): R31 says that the register survives no step. -/
def Obligations.CrcByteStepsRegister : Prop :=
  let shift : BitVec 16 → BitVec 16 := fun c => if c.getLsbD 0 = true then (c >>> 1) ^^^ 0xA001 else c >>> 1
  let byte : BitVec 16 → Byte → BitVec 16 := fun c b => shift^[8] (c ^^^ b.setWidth 16)
  (∀ (s : State) (n : Nat) (b : Byte),
    exec (.crcByte n b) s = .next (s.setTel n { s.tel n with crc := byte (s.tel n).crc b })) ∧
  (∀ bs : Bytes, crc16 bs = bs.foldl byte 0)

/-- R171, which the spec marks as general knowledge (log 22): the unreflected form computes the same function. -/
def Obligations.CrcUnreflectedFormAgrees : Prop :=
  ∀ bs : Bytes, crc16Unreflected bs = crc16 bs

/-- R173, which the spec marks as derived, and R170's corner case: the CRC of a concatenation continues the loop, the
table form is the same step, and leading zero bytes change nothing. -/
def Obligations.CrcIncrementalAndTableForms : Prop :=
  (∀ s t : Bytes, crc16 (s ++ t) = t.foldl crcByte (crc16 s)) ∧
  (∀ (c : BitVec 16) (b : Byte), crcByteByTable c b = crcByte c b) ∧
  (∀ (k : Nat) (s : Bytes), crc16 (List.replicate k 0 ++ s) = crc16 s)

/-! ## Control and reset -/

/-- R180 and R188: RESET and CANCEL load the reset values of the one unit; they emit nothing and consume no further
input. The CRC register's 0 is the model's choice (log 6). -/
def Obligations.ResetAndCancelLoadResetValues : Prop :=
  ∀ (s : State) (n : Nat),
    let etd : Etd := ⟨0, false, false, 0, BitVec.ofInt 8 (-2)⟩
    let tel : Tel := ⟨[], false, [], ⟨[], [], 0, 0, 0, 0, 0⟩, 0⟩
    exec (.reset (.etd n)) s = .next (s.setEtd n etd) ∧
    exec (.reset (.pls n)) s = .next (s.setPls n ⟨0, false⟩) ∧
    exec (.reset (.tel n)) s = .next (s.setTel n tel) ∧
    exec (.cancel (.etd n)) s = .next (s.setEtd n etd) ∧
    exec (.cancel (.pls n)) s = .next (s.setPls n ⟨0, false⟩) ∧
    exec (.cancel (.tel n)) s = .next (s.setTel n tel)

/-- R29: after reset every unit holds the values of the table. The CRC register's 0 and the empty input and output lists
are the model's choice (log 6, log 1). -/
def Obligations.ResetStateHoldsSpecValues : Prop :=
  ∀ n : Nat,
    State.reset.etd n = ⟨0, false, false, 0, 0xFE⟩ ∧ State.reset.pls n = ⟨0, false⟩ ∧
    State.reset.tel n = ⟨[], false, [], ⟨[], [], 0, 0, 0, 0, 0⟩, 0⟩ ∧
    State.reset.inputs = [] ∧ State.reset.outputs = []

/-! ## Decoding and stepping -/

/-- Words written out from the spec: EV33 of P1 (R61), IVL32 (R65), B8 (R62), two lines of S6 (R68, R72). -/
def Obligations.SpecWordsDecode : Prop :=
  decode (.edge (.etd 0)) ⟨false, false, 0xFE, false⟩ [0xE8, 0x03, 0x00, 0x00, 0x01]
    = .ok (.edgeFirst (.etd 0) true 1000) ∧
  decode (.ivl 3) ⟨true, true, 5, false⟩ [0x65, 0x00, 0x00, 0x00] = .ok (.bit1 3 101) ∧
  decode (.byte 0) ⟨false, false, 0xFE, false⟩ [0x0A] = .ok (.byteEol 0) ∧
  decode (.line 0) ⟨false, false, 0xFE, true⟩ [0x21, 0x31, 0x33, 0x41, 0x39]
    = .ok (.lineEnd 0 [0x31, 0x33, 0x41, 0x39]) ∧
  decode (.content 0) ⟨false, false, 0xFE, true⟩
      [0x30, 0x2D, 0x30, 0x3A, 0x39, 0x36, 0x2E, 0x31, 0x34, 0x2E, 0x30, 0x28, 0x30, 0x30, 0x30, 0x32, 0x29]
    = .ok (.fieldTariff 0 [0x30, 0x30, 0x30, 0x32] [])

/-- Decoding and encoding agree, both ways, for every operation with every operand (R60 to R72): a word presented at a
port decodes to an operation exactly when it is that operation's word, the operation's operands are in its row's
ranges, and the control state selects it. So no two operations share a word in one control state, and no bit of a word
is dropped. -/
def Obligations.DecodeEncodeAgree : Prop :=
  ∀ (p : Port) (c : Control) (bs : Bytes) (i : Instr),
    decode p c bs = .ok i ↔ i.port = p ∧ encode i = bs ∧ i.wf = true ∧ i.selectedIn c = true

/-- R77: every input transaction is accepted: its word decodes, to a well-formed operation that the state selects. -/
def Obligations.EveryInputDecodes : Prop :=
  ∀ (s : State) (x : Transaction), ∃ i, decode x.port (s.control x.port) x.bytes = .ok i ∧
    i.wf = true ∧ i.selectedIn (s.control x.port) = true

/-- A step performs the operation that the oldest pending input decodes to, and nothing else; with no input pending it
holds the state (log 7). -/
def Obligations.StepRunsDecodedOperation : Prop :=
  (∀ (s : State) (x : Transaction) (rest : List Transaction) (i : Instr), s.inputs = x :: rest →
    decode x.port (s.control x.port) x.bytes = .ok i → step s = exec i { s with inputs := rest }) ∧
  ∀ s : State, s.inputs = [] → step s = .next s

/-- Every operation completes where its row selects it: for every constructor, the operand ranges (`wf`) and the control
state (`selectedIn`) are all it needs. -/
def Obligations.SelectedOperationsComplete : Prop :=
  ∀ (i : Instr) (s : State), i.wf = true → i.selectedIn (s.control i.port) = true → ∃ t, exec i s = .next t

/-- The model's choice (log 4): outside its selection condition the spec gives an operation no effect, and it is
refused. -/
def Obligations.UnselectedOperationsAreRefused : Prop :=
  ∀ (i : Instr) (s : State), i.selectedIn (s.control i.port) = false → exec i s = .refused .notSelected

/-- R77, R115, R192: no input stops the machine: from every state a step answers a next state and consumes the oldest
input. That a step with no input pending answers a next state too is the model's (log 7). -/
def Obligations.StepAlwaysAnswersNext : Prop :=
  ∀ s : State, ∃ t, step s = .next t ∧ t.inputs = s.inputs.tail

/-! ## Rules of the whole machine -/

/-- The invariant of the reachable states (R16, R67, R137, R23) holds after reset. Two of its clauses are the model's
choice: that the CRC register reads 0 between steps (log 6; R31 says only that it survives none) and that the lists of
units are canonical (log 2). -/
def Obligations.ResetMeetsInvariant : Prop := State.reset.Inv

/-- Every step keeps the invariant (R16, R67, R137, R23), and every output emitted is within its ranges (R63, R190). Two
clauses of the invariant are the model's choice: that the CRC register reads 0 between steps (log 6; R31 says only that
it survives none) and that the lists of units are canonical (log 2). -/
def Obligations.StepKeepsInvariant : Prop :=
  ∀ s t : State, s.Inv → step s = .next t → t.Inv

/-- R181: a step emits at most one output, from the unit whose input it consumes: a reading or a unit only for an edge
event, a packet or an error only for the separator byte. -/
def Obligations.AtMostOneOutputPerStep : Prop :=
  ∀ s t : State, step s = .next t →
    t.outputs = s.outputs ∨
    ∃ (x : Transaction) (rest : List Transaction) (o : Output), s.inputs = x :: rest ∧
      t.outputs = s.outputs ++ [o] ∧ o.unit = x.port.unit ∧
      match o with
      | .reading n _ _ => ∃ w, x = .edge (.etd n) w
      | .pulseUnit n => ∃ w, x = .edge (.pls n) w
      | .packet n _ => x = .byte n 0x0A
      | .error n _ _ _ => x = .byte n 0x0A

/-- R48 item 4, R94, R204: the frame of every operation: it consumes no input itself and leaves every unit but its own
as it was; so does a step, but for the input it consumes. -/
def Obligations.OtherUnitsAreUnchanged : Prop :=
  (∀ (i : Instr) (s t : State), exec i s = .next t →
    t.inputs = s.inputs ∧ ∀ u : UnitRef, u ≠ i.unit → s.AgreeOn t u) ∧
  ∀ (s t : State) (x : Transaction) (rest : List Transaction), s.inputs = x :: rest → step s = .next t →
    t.inputs = rest ∧ ∀ u : UnitRef, u ≠ x.port.unit → s.AgreeOn t u

/-- R48 item 4, R204: what a step does to the unit whose input it consumes, and what it emits, depend on nothing but
that unit's state and the input. -/
def Obligations.UnitStepDependsOnUnitAlone : Prop :=
  ∀ (s s' t t' : State) (x : Transaction) (rest rest' : List Transaction),
    s.inputs = x :: rest → s'.inputs = x :: rest' → s.AgreeOn s' x.port.unit →
    step s = .next t → step s' = .next t' →
    t.AgreeOn t' x.port.unit ∧
    ∃ emitted, t.outputs = s.outputs ++ emitted ∧ t'.outputs = s'.outputs ++ emitted

/-- R30: dead state is unobservable: from two states that differ only in dead state, a step emits the same and ends in
two states that differ only in dead state. -/
def Obligations.DeadStateIsUnobservable : Prop :=
  ∀ s s' t : State, s.LiveEq s' → step s = .next t →
    ∃ t', step s' = .next t' ∧ t.LiveEq t' ∧
      ∃ emitted, t.outputs = s.outputs ++ emitted ∧ t'.outputs = s'.outputs ++ emitted

/-- R139: a packet is emitted only by an end line, in a frame, whose digits state the computed checksum; it is the
packet register file. -/
def Obligations.PacketOnlyAfterChecksumMatch : Prop :=
  ∀ (s t : State) (n : Nat) (p : Packet), step s = .next t → t.outputs = s.outputs ++ [.packet n p] →
    ∃ (rest : List Transaction) (digits : Bytes), s.inputs = .byte n 0x0A :: rest ∧
      (s.tel n).reading = true ∧ trim (s.tel n).lineBuf = 0x21 :: digits ∧
      checksumOperand digits = some (crc16 ((s.tel n).rawFrame ++ [0x21])).toNat ∧ p = (s.tel n).packet

/-- R196 to R198: an error occurs only inside a frame and ends it; the failing line is consumed, no packet field is
written, and a field error's line has been appended first. -/
def Obligations.ErrorEndsFramePrecisely : Prop :=
  ∀ (s t : State) (n : Nat) (code : ErrorCode) (line : Bytes) (computed : BitVec 16),
    step s = .next t → t.outputs = s.outputs ++ [.error n code line computed] →
    (s.tel n).reading = true ∧ (t.tel n).reading = false ∧ line = trim (s.tel n).lineBuf ∧
    (t.tel n).lineBuf = [] ∧ (t.tel n).packet = (s.tel n).packet ∧
    (t.tel n).rawFrame = (if line.head? = some 0x21 then (s.tel n).rawFrame
      else (s.tel n).rawFrame ++ line ++ [0x0D, 0x0A]) ∧
    (line.head? = some 0x21 ↔ code = .checksumMismatch ∨ code = .checksumParse)

/-- R26, the "set by" and "cleared by" columns: in a step, `prevValid` is set only by an edge event of its unit and
cleared only by RESET or CANCEL; `inCode` is set only by a sync interval and cleared only by an invalid interval, the
fortieth bit (DONE), RESET or CANCEL; `reading` is set only by a start line and cleared only by an end line, a content
line that raises an error, RESET or CANCEL. -/
def Obligations.FlagsHaveListedWriters : Prop :=
  ∀ (s t : State) (x : Transaction) (rest : List Transaction) (n : Nat), s.inputs = x :: rest → step s = .next t →
    let off (u : UnitRef) : Prop := x = .reset u ∨ x = .cancel u
    let ivl (w : BitVec 33) : Tick := interval (s.etd n).prev (ev33Tick w)
    let line := trim (s.tel n).lineBuf
    ((s.etd n).prevValid = false → (t.etd n).prevValid = true → ∃ w, x = .edge (.etd n) w) ∧
    ((s.etd n).prevValid = true → (t.etd n).prevValid = false → off (.etd n)) ∧
    ((s.pls n).prevValid = false → (t.pls n).prevValid = true → ∃ w, x = .edge (.pls n) w) ∧
    ((s.pls n).prevValid = true → (t.pls n).prevValid = false → off (.pls n)) ∧
    ((s.etd n).inCode = false → (t.etd n).inCode = true →
      ∃ w, x = .edge (.etd n) w ∧ (s.etd n).prevValid = true ∧ 10000 < (ivl w).toNat) ∧
    ((s.etd n).inCode = true → (t.etd n).inCode = false → off (.etd n) ∨
      ∃ w, x = .edge (.etd n) w ∧ (s.etd n).prevValid = true ∧
        let i := decodeIvl n true (s.etd n).bitsSeen (ivl w)
        i = .inv n (ivl w) ∨ ((i = .bit0 n (ivl w) ∨ i = .bit1 n (ivl w)) ∧ (s.etd n).bitsSeen = 39)) ∧
    ((s.tel n).reading = false → (t.tel n).reading = true → x = .byte n 0x0A ∧ line.head? = some 0x2F) ∧
    ((s.tel n).reading = true → (t.tel n).reading = false → off (.tel n) ∨
      (x = .byte n 0x0A ∧ (line.head? = some 0x21 ∨ lineRaises line = true)))

/-- R193: a silent rejection produces no output on any port. -/
def Obligations.SilentRejectionsEmitNothing : Prop :=
  ∀ (i : Instr) (s t : State) (r : RejectReason), exec i s = .next t → s.silentRejection i = some r →
    t.outputs = s.outputs

/-- R140, and R159, which the spec marks as derived: from any state outside a frame with an empty line buffer, a start
line, content lines that raise nothing, and the end line that carries the CRC of their text, each as the sender's duty
R229 has it on the wire, emit the packet of those lines: its header and, of every field, the last value written. -/
def Obligations.TelegramRoundTrip : Prop :=
  ∀ (s : State) (n : Nat) (header : Bytes) (lines : List Bytes) (rest : List Transaction),
    let text := (0x2F :: header) :: lines
    let endLine : Bytes := 0x21 :: hex4 (crc16 (frameText text ++ [0x21]))
    let events := (text ++ [endLine]).flatMap (lineEvents n)
    (s.tel n).reading = false → (s.tel n).lineBuf = [] →
    (∀ l ∈ text, trim l = l ∧ (0x0A : Byte) ∉ l) →
    (∀ l ∈ lines, l.head? ≠ some 0x21 ∧ lineRaises l = false) →
    s.inputs = events ++ rest →
    ∃ t, Host.Core.run Sys2Proof.core events.length s = .next t ∧ t.inputs = rest ∧
      t.outputs = s.outputs ++ [.packet n (lines.foldl packetAfterLine (zeroPacket header))] ∧
      (t.tel n).reading = false ∧ (t.tel n).lineBuf = []
end

