-- ==== Sys2Proof/Laws/State.lean ====
section
/-! SUPPORT. The small lemmas of the state: reading back what was written, unit by unit and field by field, and that the
writes keep the canonical form. -/

namespace Sys2Proof.Config

/-! ## The limits of R5 as numbers -/

@[simp] theorem syncMin_eq : syncMin = 10000 := rfl
@[simp] theorem zeroLo_eq : zeroLo = 60 := rfl
@[simp] theorem zeroHi_eq : zeroHi = 100 := rfl
@[simp] theorem oneLo_eq : oneLo = 100 := rfl
@[simp] theorem oneHi_eq : oneHi = 150 := rfl
@[simp] theorem humMax_eq : humMax = 1100 := rfl
@[simp] theorem tempMin_eq : tempMin = -500 := rfl
@[simp] theorem tempMax_eq : tempMax = 1350 := rfl
@[simp] theorem pulseMin_eq : pulseMin = 1000000 := rfl
@[simp] theorem intLimit_eq : intLimit = 2 ^ 63 := rfl

end Sys2Proof.Config

namespace Sys2Proof.Machine

/-! ## Lists of units -/

@[simp] theorem bankGet_nil {α : Type} (d : α) (n : Nat) : bankGet d [] n = d := by cases n <;> rfl

section Bank
variable {α : Type} [DecidableEq α] (d : α)

theorem bankCons_eq (x : α) (l : List α) :
    bankCons d x l = if l = [] ∧ x = d then [] else x :: l := by
  cases l <;> by_cases h : x = d <;> simp [bankCons, h]

@[simp] theorem bankGet_bankCons_zero (x : α) (l : List α) : bankGet d (bankCons d x l) 0 = x := by
  by_cases h : l = [] ∧ x = d <;> simp [bankCons_eq, h, bankGet]

@[simp] theorem bankGet_bankCons_succ (x : α) (l : List α) (n : Nat) :
    bankGet d (bankCons d x l) (n + 1) = bankGet d l n := by
  by_cases h : l = [] ∧ x = d <;> simp [bankCons_eq, h, bankGet]

/-- A unit reads as it was written. -/
@[simp] theorem bankGet_bankPut_self (l : List α) (n : Nat) (v : α) : bankGet d (bankPut d l n v) n = v := by
  induction n generalizing l with
  | zero => cases l <;> simp [bankPut]
  | succ n ih => cases l <;> simp [bankPut, ih]

/-- A write leaves every other unit alone. -/
theorem bankGet_bankPut_ne {m n : Nat} (h : m ≠ n) (l : List α) (v : α) :
    bankGet d (bankPut d l n v) m = bankGet d l m := by
  induction n generalizing l m with
  | zero =>
    obtain ⟨m, rfl⟩ := Nat.exists_eq_succ_of_ne_zero h
    cases l <;> simp [bankPut, bankGet]
  | succ n ih =>
    cases m with
    | zero => cases l <;> simp [bankPut, bankGet]
    | succ m =>
      have hmn : m ≠ n := fun e => h (by rw [e])
      cases l <;> simp [bankPut, bankGet, ih hmn]

theorem bankGet_bankPut (l : List α) (n m : Nat) (v : α) :
    bankGet d (bankPut d l n v) m = if m = n then v else bankGet d l m := by
  by_cases h : m = n
  · subst h; simp
  · simp [h, bankGet_bankPut_ne d h]

@[simp] theorem bankPut_bankCons_zero (x v : α) (l : List α) : bankPut d (bankCons d x l) 0 v = bankCons d v l := by
  by_cases h : l = [] ∧ x = d <;> simp [bankCons_eq, h, bankPut]

/-- Of two writes of one unit the later one holds. -/
@[simp] theorem bankPut_bankPut (l : List α) (n : Nat) (v w : α) :
    bankPut d (bankPut d l n v) n w = bankPut d l n w := by
  induction n generalizing l with
  | zero => cases l <;> simp [bankPut]
  | succ n ih =>
    have key (x : α) (r r' : List α) (hr : bankPut d r' n w = bankPut d r n w) :
        bankPut d (bankCons d x r') (n + 1) w = bankCons d x (bankPut d r n w) := by
      by_cases h : r' = [] ∧ x = d
      · obtain ⟨rfl, rfl⟩ := h; simp [bankCons, bankPut, hr]
      · simp [bankCons_eq, h, bankPut, hr]
    cases l with
    | nil => exact key d [] _ (ih [])
    | cons x l => exact key x l _ (ih l)

theorem bankWf_iff (l : List α) : bankWf d l = true ↔ l.getLast? ≠ some d := by simp [bankWf]

theorem bankWf_bankCons {x : α} {l : List α} (h : bankWf d l = true) : bankWf d (bankCons d x l) = true := by
  cases l with
  | nil => by_cases hx : x = d <;> simp [bankCons, bankWf, hx]
  | cons y l => simpa [bankCons, bankWf, List.getLast?_cons_cons] using h

theorem bankWf_tail {x : α} {l : List α} (h : bankWf d (x :: l) = true) : bankWf d l = true := by
  cases l with
  | nil => simp [bankWf]
  | cons y l => simpa [bankWf, List.getLast?_cons_cons] using h

/-- A write keeps the canonical form. -/
theorem bankWf_bankPut {l : List α} (h : bankWf d l = true) (n : Nat) (v : α) :
    bankWf d (bankPut d l n v) = true := by
  induction n generalizing l with
  | zero =>
    cases l with
    | nil => exact bankWf_bankCons d h
    | cons x l => exact bankWf_bankCons d (bankWf_tail d h)
  | succ n ih =>
    cases l with
    | nil => exact bankWf_bankCons d (ih h)
    | cons x l => exact bankWf_bankCons d (ih (bankWf_tail d h))

end Bank

/-! ## Units and fields of State, per update -/

section Units
variable (s : State) (m n : Nat) (e : Etd) (p : Pls) (t : Tel) (o : Output)

@[simp] theorem etd_setEtd_self : (s.setEtd n e).etd n = e := bankGet_bankPut_self _ _ _ _
@[simp] theorem pls_setPls_self : (s.setPls n p).pls n = p := bankGet_bankPut_self _ _ _ _
@[simp] theorem tel_setTel_self : (s.setTel n t).tel n = t := bankGet_bankPut_self _ _ _ _

variable (e' : Etd) (p' : Pls) (t' : Tel)
@[simp] theorem setEtd_setEtd : (s.setEtd n e).setEtd n e' = s.setEtd n e' := by simp [State.setEtd]
@[simp] theorem setPls_setPls : (s.setPls n p).setPls n p' = s.setPls n p' := by simp [State.setPls]
@[simp] theorem setTel_setTel : (s.setTel n t).setTel n t' = s.setTel n t' := by simp [State.setTel]

theorem etd_setEtd : (s.setEtd n e).etd m = if m = n then e else s.etd m := bankGet_bankPut _ _ _ _ _
theorem pls_setPls : (s.setPls n p).pls m = if m = n then p else s.pls m := bankGet_bankPut _ _ _ _ _
theorem tel_setTel : (s.setTel n t).tel m = if m = n then t else s.tel m := bankGet_bankPut _ _ _ _ _

@[simp] theorem etd_setPls : (s.setPls n p).etd m = s.etd m := rfl
@[simp] theorem etd_setTel : (s.setTel n t).etd m = s.etd m := rfl
@[simp] theorem pls_setEtd : (s.setEtd n e).pls m = s.pls m := rfl
@[simp] theorem pls_setTel : (s.setTel n t).pls m = s.pls m := rfl
@[simp] theorem tel_setEtd : (s.setEtd n e).tel m = s.tel m := rfl
@[simp] theorem tel_setPls : (s.setPls n p).tel m = s.tel m := rfl

@[simp] theorem inputs_setEtd : (s.setEtd n e).inputs = s.inputs := rfl
@[simp] theorem inputs_setPls : (s.setPls n p).inputs = s.inputs := rfl
@[simp] theorem inputs_setTel : (s.setTel n t).inputs = s.inputs := rfl
@[simp] theorem outputs_setEtd : (s.setEtd n e).outputs = s.outputs := rfl
@[simp] theorem outputs_setPls : (s.setPls n p).outputs = s.outputs := rfl
@[simp] theorem outputs_setTel : (s.setTel n t).outputs = s.outputs := rfl

@[simp] theorem etd_emit : (s.emit o).etd m = s.etd m := rfl
@[simp] theorem pls_emit : (s.emit o).pls m = s.pls m := rfl
@[simp] theorem tel_emit : (s.emit o).tel m = s.tel m := rfl
@[simp] theorem inputs_emit : (s.emit o).inputs = s.inputs := rfl
@[simp] theorem outputs_emit : (s.emit o).outputs = s.outputs ++ [o] := rfl

variable (ts : List Transaction) (os : List Output)
@[simp] theorem etd_inputs : State.etd { s with inputs := ts } m = s.etd m := rfl
@[simp] theorem pls_inputs : State.pls { s with inputs := ts } m = s.pls m := rfl
@[simp] theorem tel_inputs : State.tel { s with inputs := ts } m = s.tel m := rfl

variable (code : ErrorCode) (line : Bytes) (c : BitVec 16)
@[simp] theorem etd_report : (s.report n code line c).etd m = s.etd m := rfl
@[simp] theorem pls_report : (s.report n code line c).pls m = s.pls m := rfl
@[simp] theorem tel_report : (s.report n code line c).tel m = s.tel m := rfl
@[simp] theorem inputs_report : (s.report n code line c).inputs = s.inputs := rfl
@[simp] theorem outputs_report : (s.report n code line c).outputs = s.outputs ++ [.error n code line c] := rfl

@[simp] theorem etd_raise : (s.raise n code line).etd m = s.etd m := rfl
@[simp] theorem pls_raise : (s.raise n code line).pls m = s.pls m := rfl
@[simp] theorem tel_raise_self : (s.raise n code line).tel n = { s.tel n with reading := false } :=
  tel_setTel_self s n _
theorem tel_raise : (s.raise n code line).tel m = if m = n then { s.tel n with reading := false } else s.tel m :=
  tel_setTel s m n _
@[simp] theorem inputs_raise : (s.raise n code line).inputs = s.inputs := rfl
@[simp] theorem outputs_raise : (s.raise n code line).outputs = s.outputs ++ [.error n code line 0] := rfl

@[simp] theorem etd_reset : State.reset.etd n = Etd.reset := rfl
@[simp] theorem pls_reset : State.reset.pls n = Pls.reset := rfl
@[simp] theorem tel_reset : State.reset.tel n = Tel.reset := rfl

/-- The canonical form of the machine is kept by every write of a unit. -/
theorem wf_setEtd (h : s.wf = true) : (s.setEtd n e).wf = true := by
  simp only [State.wf, Bool.and_eq_true] at h ⊢
  exact ⟨⟨bankWf_bankPut _ h.1.1 n e, h.1.2⟩, h.2⟩

theorem wf_setPls (h : s.wf = true) : (s.setPls n p).wf = true := by
  simp only [State.wf, Bool.and_eq_true] at h ⊢
  exact ⟨⟨h.1.1, bankWf_bankPut _ h.1.2 n p⟩, h.2⟩

theorem wf_setTel (h : s.wf = true) : (s.setTel n t).wf = true := by
  simp only [State.wf, Bool.and_eq_true] at h ⊢
  exact ⟨h.1, bankWf_bankPut _ h.2 n t⟩

theorem wf_emit (h : s.wf = true) : (s.emit o).wf = true := h

end Units

/-! ## Fields of a unit, per named update -/

section Fields
variable (e : Etd) (t : Tel) (b : Byte) (line : Bytes)

@[simp] theorem startFrame_prev : e.startFrame.prev = e.prev := rfl
@[simp] theorem startFrame_prevValid : e.startFrame.prevValid = e.prevValid := rfl
@[simp] theorem startFrame_inCode : e.startFrame.inCode = true := rfl
@[simp] theorem startFrame_code : e.startFrame.code = 0 := rfl
@[simp] theorem startFrame_bitsSeen : e.startFrame.bitsSeen = Config.sentinel := rfl
@[simp] theorem clearInCode_prev : e.clearInCode.prev = e.prev := rfl
@[simp] theorem clearInCode_prevValid : e.clearInCode.prevValid = e.prevValid := rfl
@[simp] theorem clearInCode_inCode : e.clearInCode.inCode = false := rfl
@[simp] theorem clearInCode_code : e.clearInCode.code = e.code := rfl
@[simp] theorem clearInCode_bitsSeen : e.clearInCode.bitsSeen = e.bitsSeen := rfl
@[simp] theorem countInterval_prev : e.countInterval.prev = e.prev := rfl
@[simp] theorem countInterval_prevValid : e.countInterval.prevValid = e.prevValid := rfl
@[simp] theorem countInterval_inCode : e.countInterval.inCode = e.inCode := rfl
@[simp] theorem countInterval_code : e.countInterval.code = e.code := rfl
@[simp] theorem countInterval_bitsSeen : e.countInterval.bitsSeen = e.bitsSeen + 1 := rfl
@[simp] theorem shiftCode_prev : e.shiftCode.prev = e.prev := rfl
@[simp] theorem shiftCode_prevValid : e.shiftCode.prevValid = e.prevValid := rfl
@[simp] theorem shiftCode_inCode : e.shiftCode.inCode = e.inCode := rfl
@[simp] theorem shiftCode_code : e.shiftCode.code = e.code <<< 1 := rfl
@[simp] theorem shiftCode_bitsSeen : e.shiftCode.bitsSeen = e.bitsSeen := rfl
@[simp] theorem addOne_prev : e.addOne.prev = e.prev := rfl
@[simp] theorem addOne_prevValid : e.addOne.prevValid = e.prevValid := rfl
@[simp] theorem addOne_inCode : e.addOne.inCode = e.inCode := rfl
@[simp] theorem addOne_code : e.addOne.code = e.code + 1 := rfl
@[simp] theorem addOne_bitsSeen : e.addOne.bitsSeen = e.bitsSeen := rfl

@[simp] theorem startReading_reading : t.startReading.reading = true := rfl
@[simp] theorem startReading_lineBuf : t.startReading.lineBuf = t.lineBuf := rfl
@[simp] theorem startReading_crc : t.startReading.crc = t.crc := rfl
@[simp] theorem stopReading_reading : t.stopReading.reading = false := rfl
@[simp] theorem stopReading_lineBuf : t.stopReading.lineBuf = t.lineBuf := rfl
@[simp] theorem stopReading_rawFrame : t.stopReading.rawFrame = t.rawFrame := rfl
@[simp] theorem stopReading_packet : t.stopReading.packet = t.packet := rfl
@[simp] theorem stopReading_crc : t.stopReading.crc = t.crc := rfl
@[simp] theorem appendLine_lineBuf : (t.appendLine b).lineBuf = t.lineBuf ++ [b] := rfl
@[simp] theorem appendLine_reading : (t.appendLine b).reading = t.reading := rfl
@[simp] theorem appendLine_rawFrame : (t.appendLine b).rawFrame = t.rawFrame := rfl
@[simp] theorem appendLine_packet : (t.appendLine b).packet = t.packet := rfl
@[simp] theorem appendLine_crc : (t.appendLine b).crc = t.crc := rfl
@[simp] theorem clearLine_lineBuf : t.clearLine.lineBuf = [] := rfl
@[simp] theorem clearLine_reading : t.clearLine.reading = t.reading := rfl
@[simp] theorem clearLine_rawFrame : t.clearLine.rawFrame = t.rawFrame := rfl
@[simp] theorem clearLine_packet : t.clearLine.packet = t.packet := rfl
@[simp] theorem clearLine_crc : t.clearLine.crc = t.crc := rfl
@[simp] theorem appendFrame_lineBuf : (t.appendFrame line).lineBuf = t.lineBuf := rfl
@[simp] theorem appendFrame_reading : (t.appendFrame line).reading = t.reading := rfl
@[simp] theorem appendFrame_rawFrame : (t.appendFrame line).rawFrame = t.rawFrame ++ (line ++ crlf) := rfl
@[simp] theorem appendFrame_packet : (t.appendFrame line).packet = t.packet := rfl
@[simp] theorem appendFrame_crc : (t.appendFrame line).crc = t.crc := rfl

end Fields

end Sys2Proof.Machine
end

