-- ==== Sys2Proof/Laws/Decode.lean ====
section
/-! SUPPORT. What the decoder's helpers compute: the classes as conditions with the numbers written out, trimming, EV33
words, little-endian byte strings, and the scan of value groups. -/

namespace Sys2Proof

/-! ## Classes -/

/-- Counting an interval adds one to the signed `bitsSeen`, except at its largest value. -/
theorem succ_toInt : ∀ b : BitVec 8, b.toInt ≤ 126 → (b + 1).toInt = b.toInt + 1 := by decide

theorem ivlClass_eq (c : Bool) (b : BitVec 8) (ivl : Tick) :
    ivlClass c b ivl =
      if 10000 < ivl.toNat then .sync
      else if c = false then .idle
      else if (b + 1).toInt < 1 then .pre
      else if 60 ≤ ivl.toNat ∧ ivl.toNat ≤ 100 then .bit0
      else if 100 < ivl.toNat ∧ ivl.toNat < 150 then .bit1
      else .inv := rfl

section
variable (c : Bool) (b : BitVec 8) (ivl : Tick)

theorem ivlClass_sync_iff : ivlClass c b ivl = .sync ↔ 10000 < ivl.toNat := by
  rw [ivlClass_eq]; split_ifs <;> simp_all
theorem ivlClass_idle_iff : ivlClass c b ivl = .idle ↔ ivl.toNat ≤ 10000 ∧ c = false := by
  rw [ivlClass_eq]; split_ifs <;> simp_all
theorem ivlClass_pre_iff : ivlClass c b ivl = .pre ↔ ivl.toNat ≤ 10000 ∧ c = true ∧ (b + 1).toInt < 1 := by
  rw [ivlClass_eq]; split_ifs <;> simp_all
theorem ivlClass_bit0_iff :
    ivlClass c b ivl = .bit0 ↔ c = true ∧ 1 ≤ (b + 1).toInt ∧ 60 ≤ ivl.toNat ∧ ivl.toNat ≤ 100 := by
  rw [ivlClass_eq]; split_ifs <;> simp_all; omega
theorem ivlClass_bit1_iff :
    ivlClass c b ivl = .bit1 ↔ c = true ∧ 1 ≤ (b + 1).toInt ∧ 100 < ivl.toNat ∧ ivl.toNat < 150 := by
  rw [ivlClass_eq]; split_ifs <;> simp_all; omega
theorem ivlClass_inv_iff :
    ivlClass c b ivl = .inv ↔ c = true ∧ 1 ≤ (b + 1).toInt ∧
      (ivl.toNat < 60 ∨ (150 ≤ ivl.toNat ∧ ivl.toNat ≤ 10000)) := by
  rw [ivlClass_eq]; split_ifs <;> simp_all <;> omega
end

theorem plsClass_pulse_iff (level : Bool) (ivl : Tick) :
    plsClass level ivl = .pulse ↔ level = true ∧ 1000000 < ivl.toNat := by
  unfold plsClass Config.pulseMin; split_ifs <;> simp_all

theorem plsClass_debounce_iff (level : Bool) (ivl : Tick) :
    plsClass level ivl = .debounce ↔ level = false ∨ ivl.toNat ≤ 1000000 := by
  have h := plsClass_pulse_iff level ivl
  cases level <;> cases hc : plsClass _ ivl <;> simp_all

section
variable (reading : Bool) (line : Bytes)

theorem lineClass_start_iff : lineClass reading line = .start ↔ reading = false ∧ line.head? = some chSlash := by
  unfold lineClass; split_ifs <;> simp_all
theorem lineClass_skip_iff : lineClass reading line = .skip ↔ reading = false ∧ line.head? ≠ some chSlash := by
  unfold lineClass; split_ifs <;> simp_all
theorem lineClass_finish_iff : lineClass reading line = .finish ↔ reading = true ∧ line.head? = some chBang := by
  unfold lineClass; split_ifs <;> simp_all
theorem lineClass_content_iff : lineClass reading line = .content ↔ reading = true ∧ line.head? ≠ some chBang := by
  unfold lineClass; split_ifs <;> simp_all
end

/-! ## Trimming (R67) -/

theorem mem_takeWhile_isWs {s : Bytes} {b : Byte} (h : b ∈ s.takeWhile isWs) : isWs b = true :=
  List.mem_takeWhile_imp h

theorem head?_dropWhile_isWs {s : Bytes} {b : Byte} (h : (s.dropWhile isWs).head? = some b) : isWs b = false := by
  simpa using List.head?_dropWhile_not isWs s |> fun x => by rw [h] at x; simpa using x

/-- A string whose ends are no whitespace is its own trim. -/
theorem trim_of_ends {s : Bytes} (hf : ∀ b, s.head? = some b → isWs b = false)
    (hb : ∀ b, s.getLast? = some b → isWs b = false) : trim s = s := by
  have key : ∀ l : Bytes, (∀ b, l.head? = some b → isWs b = false) → l.dropWhile isWs = l := by
    intro l h
    cases l with
    | nil => rfl
    | cons x l => simp [h x rfl]
  unfold trim
  rw [key s hf, key s.reverse (by simpa using hb), List.reverse_reverse]

/-- A trimmed string begins with no whitespace. -/
theorem trim_head {s : Bytes} {b : Byte} (h : (trim s).head? = some b) : isWs b = false := by
  unfold trim at h
  set d := s.dropWhile isWs with hd
  have hsplit := List.takeWhile_append_dropWhile (p := isWs) (l := d.reverse)
  have hd' : d = (d.reverse.dropWhile isWs).reverse ++ (d.reverse.takeWhile isWs).reverse := by
    rw [← List.reverse_append, hsplit, List.reverse_reverse]
  have : d.head? = some b := by
    rw [hd', List.head?_append, h]; rfl
  exact head?_dropWhile_isWs this

/-- A trimmed string ends with no whitespace. -/
theorem trim_last {s : Bytes} {b : Byte} (h : (trim s).getLast? = some b) : isWs b = false := by
  unfold trim at h
  rw [List.getLast?_reverse] at h
  exact head?_dropWhile_isWs h

/-- Trimming twice is trimming once. -/
@[simp] theorem trim_trim (s : Bytes) : trim (trim s) = trim s :=
  trim_of_ends (fun _ h => trim_head h) (fun _ h => trim_last h)

/-- A trimmed line holds only bytes of the line. -/
theorem mem_of_mem_trim {s : Bytes} {b : Byte} (h : b ∈ trim s) : b ∈ s := by
  unfold trim at h
  rw [List.mem_reverse] at h
  have h1 := (List.dropWhile_sublist isWs).subset h
  rw [List.mem_reverse] at h1
  exact (List.dropWhile_sublist isWs).subset h1

/-! ## EV33 words (R61) -/

@[simp] theorem ev33Level_ev33 (level : Bool) (tick : Tick) : ev33Level (ev33 level tick) = level := by
  show (BitVec.ofBool level ++ tick).msb = level
  rw [BitVec.msb_append]
  cases level <;> rfl

@[simp] theorem ev33Tick_ev33 (level : Bool) (tick : Tick) : ev33Tick (ev33 level tick) = tick := by
  unfold ev33Tick ev33
  exact BitVec.setWidth_append_eq_right

theorem ev33_of_word (w : BitVec 33) : ev33 (ev33Level w) (ev33Tick w) = w := by
  apply BitVec.eq_of_getLsbD_eq
  intro i hi
  unfold ev33 ev33Tick ev33Level
  rw [BitVec.getLsbD_append]
  by_cases h : i < 32
  · simp [h]
  · have : i = 32 := by omega
    subst this
    simp [BitVec.msb_eq_getLsbD_last]

/-! ## Little-endian byte strings -/

@[simp] theorem length_leBytes (k w : Nat) : (leBytes k w).length = k := by
  induction k generalizing w with
  | zero => rfl
  | succ k ih => simp [leBytes, ih]

theorem leNat_leBytes (k : Nat) {w : Nat} (h : w < 256 ^ k) : leNat (leBytes k w) = w := by
  induction k generalizing w with
  | zero => simp at h; simp [leBytes, leNat, h]
  | succ k ih =>
    have : w / 256 < 256 ^ k := by rw [pow_succ] at h; omega
    simp [leBytes, leNat, ih this]; omega

theorem leNat_lt (bs : Bytes) : leNat bs < 256 ^ bs.length := by
  induction bs with
  | nil => simp [leNat]
  | cons b bs ih =>
    have := b.isLt
    simp only [leNat, List.length_cons, pow_succ]; omega

theorem leBytes_leNat (bs : Bytes) : leBytes bs.length (leNat bs) = bs := by
  induction bs with
  | nil => rfl
  | cons b bs ih =>
    have hb := b.isLt
    have h1 : (b.toNat + 256 * leNat bs) / 256 = leNat bs := by omega
    simp only [leBytes, leNat, List.length_cons, h1, ih]
    congr 1
    apply BitVec.eq_of_toNat_eq
    simp; omega

/-! ## The scan of value groups (R69) -/

/-- Bytes of an open group up to its closing parenthesis. -/
theorem scanGroups_open {v : Bytes} (hv : ∀ b ∈ v, b ≠ chOpen ∧ b ≠ chClose) (acc rest : Bytes) :
    scanGroups (some acc) (v ++ chClose :: rest) =
      (scanGroups none rest).map fun gs => (acc.reverse ++ v) :: gs := by
  induction v generalizing acc with
  | nil => simp [scanGroups]
  | cons b v ih =>
    have hb := hv b (by simp)
    have ih' := ih (fun x hx => hv x (by simp [hx])) (b :: acc)
    simp [scanGroups, hb.1, hb.2, ih']

/-- The text of well-formed groups scans to their contents. -/
theorem scanGroups_text {gs : List Bytes} (h : ∀ v ∈ gs, ∀ b ∈ v, b ≠ chOpen ∧ b ≠ chClose) :
    scanGroups none (gs.flatMap groupText) = some gs := by
  induction gs with
  | nil => rfl
  | cons v gs ih =>
    have hv := h v (by simp)
    have ih' := ih fun x hx => h x (by simp [hx])
    simp [groupText, scanGroups, scanGroups_open hv, ih']

/-- What scans is the text of well-formed groups, after the rest of an open one. -/
theorem scanGroups_inv {acc : Option Bytes} {s : Bytes} {gs : List Bytes} (h : scanGroups acc s = some gs) :
    match acc with
    | none => s = gs.flatMap groupText ∧ ∀ v ∈ gs, ∀ b ∈ v, b ≠ chOpen ∧ b ≠ chClose
    | some a => ∃ v gs', gs = (a.reverse ++ v) :: gs' ∧ s = v ++ chClose :: gs'.flatMap groupText ∧
        (∀ b ∈ v, b ≠ chOpen ∧ b ≠ chClose) ∧ ∀ v ∈ gs', ∀ b ∈ v, b ≠ chOpen ∧ b ≠ chClose := by
  induction s generalizing acc gs with
  | nil =>
    cases acc with
    | none => cases (show some [] = some gs from h); simp
    | some a => cases (show none = some gs from h)
  | cons b s ih =>
    cases acc with
    | none =>
      simp only [scanGroups] at h
      split_ifs at h with hb
      obtain ⟨v, gs', rfl, rfl, hv, hgs⟩ := ih h
      refine ⟨by simp [groupText, hb], ?_⟩
      intro x hx
      rcases List.mem_cons.1 hx with rfl | hx
      · simpa using hv
      · exact hgs x hx
    | some a =>
      simp only [scanGroups] at h
      split_ifs at h with hc ho
      · cases hs : scanGroups none s with
        | none => simp [hs] at h
        | some gs' =>
          simp [hs] at h
          obtain ⟨h1, h2⟩ := ih hs
          exact ⟨[], gs', by simp [← h], by simp [hc, h1], by simp, h2⟩
      · obtain ⟨v, gs', h1, h2, hv, hgs⟩ := ih h
        refine ⟨b :: v, gs', by simp [h1], by simp [h2], ?_, hgs⟩
        intro x hx
        rcases List.mem_cons.1 hx with rfl | hx
        · exact ⟨ho, hc⟩
        · exact hv x hx

/-- What the parser reads is the line: the text of its parts (R69). -/
theorem fieldText_parseField {line : Bytes} {f : FieldLine} (h : parseField line = some f) :
    fieldText f.oid f.value1 f.groups = line := by
  unfold parseField at h
  simp only at h
  split_ifs at h
  split at h
  · rename_i value1 groups hs
    cases h
    have ht := (scanGroups_inv hs).1
    simp only [fieldText]
    rw [List.append_assoc, ← List.flatMap_cons, ← ht]
    exact List.takeWhile_append_dropWhile
  · simp at h

/-! ## The dispatch table (R72) -/

/-- An identifier of a class other than FIELD.OTHER stands in the table beside the class. -/
theorem mem_dispatchTable {oid : Bytes} (h : fieldKind oid ≠ .other) : (oid, fieldKind oid) ∈ dispatchTable := by
  unfold fieldKind at h ⊢
  cases hl : dispatchTable.lookup oid with
  | none => simp [hl] at h
  | some k =>
    have key : ∀ l : List (Bytes × FieldKind), l.lookup oid = some k → (oid, k) ∈ l := by
      intro l
      induction l with
      | nil => simp
      | cons a l ih =>
        rw [List.lookup_cons]
        by_cases e : oid = a.1
        · subst e
          intro h
          have : k = a.2 := by simpa using h.symm
          simp [this]
        · rw [show (oid == a.1) = false by simpa using e]
          intro h
          exact List.mem_cons_of_mem _ (ih h)
    simpa using key _ hl

section
variable {oid : Bytes}
theorem oid_eid (h : fieldKind oid = .eid) : oid = oidEid := by
  simpa [h, dispatchTable] using mem_dispatchTable (oid := oid) (by simp [h])
theorem oid_tariff (h : fieldKind oid = .tariff) : oid = oidTariff := by
  simpa [h, dispatchTable] using mem_dispatchTable (oid := oid) (by simp [h])
theorem oid_low (h : fieldKind oid = .low) : oid = oidLow := by
  simpa [h, dispatchTable] using mem_dispatchTable (oid := oid) (by simp [h])
theorem oid_high (h : fieldKind oid = .high) : oid = oidHigh := by
  simpa [h, dispatchTable] using mem_dispatchTable (oid := oid) (by simp [h])
theorem oid_current (h : fieldKind oid = .current) : oid = oidCurrent := by
  simpa [h, dispatchTable] using mem_dispatchTable (oid := oid) (by simp [h])
theorem oid_gas1 (h : fieldKind oid = .gas1) : oid = oidGas1 := by
  simpa [h, dispatchTable] using mem_dispatchTable (oid := oid) (by simp [h])
theorem oid_gas2 (h : fieldKind oid = .gas2) : oid = oidGas2 := by
  simpa [h, dispatchTable] using mem_dispatchTable (oid := oid) (by simp [h])
theorem oid_gas3 (h : fieldKind oid = .gas3) : oid = oidGas3 := by
  simpa [h, dispatchTable] using mem_dispatchTable (oid := oid) (by simp [h])
theorem oid_gas4 (h : fieldKind oid = .gas4) : oid = oidGas4 := by
  simpa [h, dispatchTable] using mem_dispatchTable (oid := oid) (by simp [h])
end

end Sys2Proof
end

