-- ==== Sys2Proof/Laws/Ops.lean ====
section
/-! SUPPORT. What each shared operation can do, once: the selection guard, the capacities, the CRC loop, taking the next
input, trimming, and that a performed class is the class the decoder selects. -/

namespace Sys2Proof.Machine

/-! ## Guards -/

/-- A guarded meaning answers a next state exactly where it is selected. -/
theorem whenSelected_next {c : Prop} [Decidable c] {r : Result} {t : State} :
    whenSelected c r = .next t ↔ c ∧ r = .next t := by
  by_cases h : c <;> simp [whenSelected, h]

@[simp] theorem whenSelected_pos {c : Prop} [Decidable c] (h : c) (r : Result) : whenSelected c r = r := by
  simp [whenSelected, h]

@[simp] theorem whenSelected_neg {c : Prop} [Decidable c] (h : ¬c) (r : Result) :
    whenSelected c r = .refused .notSelected := by
  simp [whenSelected, h]

@[simp] theorem fits_none (len : Nat) : Config.fits none len = true := rfl
@[simp] theorem whenFits_lineMax (len : Nat) (r : Result) : whenFits Config.lineMax len r = r := rfl
@[simp] theorem whenFits_frameMax (len : Nat) (r : Result) : whenFits Config.frameMax len r = r := rfl
@[simp] theorem whenFits_strMax (len : Nat) (r : Result) : whenFits Config.strMax len r = r := rfl

/-! ## The CRC loop (R170, R173) -/

theorem crcFrom_append (c : BitVec 16) (s t : Bytes) : crcFrom c (s ++ t) = crcFrom (crcFrom c s) t := by
  simp [crcFrom]

theorem crc16_eq_crcFrom (s : Bytes) : crc16 s = crcFrom 0 s := by
  simp [crc16, Config.crcXorOut, Config.crcInit]

/-- The register form runs the loop of R170 and changes nothing else. -/
theorem crcFeed_eq (t : Tel) (bs : Bytes) : t.crcFeed bs = { t with crc := crcFrom t.crc bs } := by
  unfold Tel.crcFeed crcFrom
  induction bs generalizing t with
  | nil => rfl
  | cons b bs ih => simp [ih, Tel.crcStep]

theorem runCrc_eq (t : Tel) : t.runCrc = { t with crc := crc16 (t.rawFrame ++ [chBang]) } := by
  simp [Tel.runCrc, crcFeed_eq, crc16_eq_crcFrom, Config.crcInit]

/-! ## Nested classes are the ones the decoder selects -/

theorem performIvl_eq_exec (n : Nat) (ivl : Tick) (s : State) :
    performIvl n ivl s = exec (decodeIvl n (s.etd n).inCode (s.etd n).bitsSeen ivl) s := by
  unfold performIvl decodeIvl State.ivlClass
  cases Sys2Proof.ivlClass (s.etd n).inCode (s.etd n).bitsSeen ivl <;> rfl

theorem performPls_eq_exec (n : Nat) (level : Bool) (ivl : Tick) (s : State) :
    performPls n level ivl s = exec (decodePls n level ivl) s := by
  unfold performPls decodePls
  cases plsClass level ivl <;> rfl

theorem performLine_eq_exec (n : Nat) (line : Bytes) (s : State) :
    performLine n line s = exec (decodeLine n (s.tel n).reading line) s := by
  unfold performLine decodeLine State.lineClass
  cases Sys2Proof.lineClass (s.tel n).reading line <;> rfl

theorem performContent_eq_exec (n : Nat) (line : Bytes) (s : State) :
    performContent n line s = exec (decodeContent n line) s := by
  unfold performContent decodeContent
  cases parseField line with
  | none => rfl
  | some f =>
    simp only [performField]
    cases fieldKind f.oid <;> rfl

/-! ## Selection (R60, R65) -/

theorem atDataBit_iff (b : BitVec 8) : atDataBit b = true ↔ 1 ≤ (b + 1).toInt := decide_eq_true_iff

theorem atDataBit_false_iff (b : BitVec 8) : atDataBit b = false ↔ (b + 1).toInt < 1 := by
  rw [← Bool.not_eq_true, atDataBit_iff, Int.not_le]

section
variable (s : State) (n : Nat)
@[simp] theorem control_edge (u : EdgeUnit) : s.control (.edge u) = s.edgeControl u := rfl
@[simp] theorem control_ivl : s.control (.ivl n) = s.edgeControl (.etd n) := rfl
@[simp] theorem control_pulse : s.control (.pulse n) = s.edgeControl (.pls n) := rfl
@[simp] theorem control_done : s.control (.done n) = s.edgeControl (.etd n) := rfl
@[simp] theorem control_byte : s.control (.byte n) = s.telControl n := rfl
@[simp] theorem control_line : s.control (.line n) = s.telControl n := rfl
@[simp] theorem control_content : s.control (.content n) = s.telControl n := rfl
@[simp] theorem control_crc : s.control (.crc n) = s.telControl n := rfl
@[simp] theorem edgeControl_prevValid (u : EdgeUnit) : (s.edgeControl u).prevValid = s.prevValid u := by
  cases u <;> rfl
@[simp] theorem edgeControl_inCode : (s.edgeControl (.etd n)).inCode = (s.etd n).inCode := rfl
@[simp] theorem edgeControl_bitsSeen : (s.edgeControl (.etd n)).bitsSeen = (s.etd n).bitsSeen := rfl
@[simp] theorem telControl_reading : (s.telControl n).reading = (s.tel n).reading := rfl
end

/-! ## One step -/

/-- A step holds the state, or performs the operation of the oldest input (R48). -/
theorem step_eq (s : State) :
    step s = match s.inputs with
      | [] => .next s
      | x :: rest => exec (decodeTransaction ({ s with inputs := rest }.control x.port) x) { s with inputs := rest } := by
  unfold step State.fetch
  cases s.inputs <;> rfl

theorem step_nil {s : State} (h : s.inputs = []) : step s = .next s := by rw [step_eq, h]

theorem step_cons {s : State} {x : Transaction} {rest : List Transaction} (h : s.inputs = x :: rest) :
    step s = exec (decodeTransaction ({ s with inputs := rest }.control x.port) x) { s with inputs := rest } := by
  rw [step_eq, h]

end Sys2Proof.Machine
end

