-- ==== Sys2Proof/Laws/PerInstr.lean ====
section
/-! SUPPORT. Statements made once per operation. `WordLength`: the word of an operation has the length of its port's
format, where that format has a fixed length (R61, R62, R64; the opcode table's "format" and "encoding"). -/

namespace Sys2Proof.Laws.WordLength

/-- The bytes of a port's format: EV33 and IVL32+level take five, IVL32 four, B8 one; a control or DONE carries no word;
LINE and FIELD have no fixed length. -/
def portLength : Port → Option Nat
  | .edge _ => some 5
  | .pulse _ => some 5
  | .ivl _ => some 4
  | .byte _ => some 1
  | .crc _ => some 1
  | .done _ => some 0
  | .reset _ => some 0
  | .cancel _ => some 0
  | .line _ => none
  | .content _ => none

/-- The operation's word has its format's length. -/
def Statement (i : Instr) : Prop := ∀ k, portLength i.port = some k → (encode i).length = k

theorem edgeFirst (u : EdgeUnit) (level : Bool) (tick : Tick) : Statement (.edgeFirst u level tick) := by
  intro k h; cases h; exact length_leBytes _ _
theorem edgeNext (u : EdgeUnit) (level : Bool) (tick : Tick) : Statement (.edgeNext u level tick) := by
  intro k h; cases h; exact length_leBytes _ _
theorem sync (n : Nat) (ivl : Tick) : Statement (.sync n ivl) := by
  intro k h; cases h; exact length_leBytes _ _
theorem idle (n : Nat) (ivl : Tick) : Statement (.idle n ivl) := by
  intro k h; cases h; exact length_leBytes _ _
theorem pre (n : Nat) (ivl : Tick) : Statement (.pre n ivl) := by
  intro k h; cases h; exact length_leBytes _ _
theorem bit0 (n : Nat) (ivl : Tick) : Statement (.bit0 n ivl) := by
  intro k h; cases h; exact length_leBytes _ _
theorem bit1 (n : Nat) (ivl : Tick) : Statement (.bit1 n ivl) := by
  intro k h; cases h; exact length_leBytes _ _
theorem inv (n : Nat) (ivl : Tick) : Statement (.inv n ivl) := by
  intro k h; cases h; exact length_leBytes _ _
theorem done (n : Nat) : Statement (.done n) := by
  intro k h; cases h; rfl
theorem pulse (n : Nat) (ivl : Tick) : Statement (.pulse n ivl) := by
  intro k h; cases h; exact length_leBytes _ _
theorem debounce (n : Nat) (level : Bool) (ivl : Tick) : Statement (.debounce n level ivl) := by
  intro k h; cases h; exact length_leBytes _ _
theorem byteEol (n : Nat) : Statement (.byteEol n) := by
  intro k h; cases h; rfl
theorem byteData (n : Nat) (b : Byte) : Statement (.byteData n b) := by
  intro k h; cases h; rfl
theorem lineStart (n : Nat) (header : Bytes) : Statement (.lineStart n header) := by
  intro k h; cases h
theorem lineSkip (n : Nat) (line : Bytes) : Statement (.lineSkip n line) := by
  intro k h; cases h
theorem lineEnd (n : Nat) (digits : Bytes) : Statement (.lineEnd n digits) := by
  intro k h; cases h
theorem lineContent (n : Nat) (line : Bytes) : Statement (.lineContent n line) := by
  intro k h; cases h
theorem lineNomatch (n : Nat) (line : Bytes) : Statement (.lineNomatch n line) := by
  intro k h; cases h
theorem fieldEid (n : Nat) (value1 : Bytes) (groups : List Bytes) : Statement (.fieldEid n value1 groups) := by
  intro k h; cases h
theorem fieldTariff (n : Nat) (value1 : Bytes) (groups : List Bytes) : Statement (.fieldTariff n value1 groups) := by
  intro k h; cases h
theorem fieldLow (n : Nat) (value1 : Bytes) (groups : List Bytes) : Statement (.fieldLow n value1 groups) := by
  intro k h; cases h
theorem fieldHigh (n : Nat) (value1 : Bytes) (groups : List Bytes) : Statement (.fieldHigh n value1 groups) := by
  intro k h; cases h
theorem fieldCurrent (n : Nat) (value1 : Bytes) (groups : List Bytes) : Statement (.fieldCurrent n value1 groups) := by
  intro k h; cases h
theorem fieldGas1 (n : Nat) (value1 : Bytes) (groups : List Bytes) : Statement (.fieldGas1 n value1 groups) := by
  intro k h; cases h
theorem fieldGas2 (n : Nat) (value1 : Bytes) (groups : List Bytes) : Statement (.fieldGas2 n value1 groups) := by
  intro k h; cases h
theorem fieldGas3 (n : Nat) (value1 : Bytes) (groups : List Bytes) : Statement (.fieldGas3 n value1 groups) := by
  intro k h; cases h
theorem fieldGas4 (n : Nat) (value1 : Bytes) (groups : List Bytes) : Statement (.fieldGas4 n value1 groups) := by
  intro k h; cases h
theorem fieldOther (n : Nat) (oid : Bytes) (value1 : Bytes) (groups : List Bytes) : Statement (.fieldOther n oid value1 groups) := by
  intro k h; cases h
theorem crcByte (n : Nat) (b : Byte) : Statement (.crcByte n b) := by
  intro k h; cases h; rfl
theorem reset (u : UnitRef) : Statement (.reset u) := by
  intro k h; cases h; rfl
theorem cancel (u : UnitRef) : Statement (.cancel u) := by
  intro k h; cases h; rfl

end Sys2Proof.Laws.WordLength
end

