-- ==== Sys2Proof/Laws/Units.lean ====
section
/-! SUPPORT. What a unit's step does, said once per unit as a function of the unit's own state: its state afterwards and
the outputs it emits. Every operation that performs a nested class has one lemma that gives this effect and the frame
around it. -/

namespace Sys2Proof.Machine

/-! ## Effects -/

/-- From `s` to `t` only ETD unit `n` steps: it ends in `e`, `os` is emitted, no input is consumed. -/
structure StepsEtd (n : Nat) (e : Etd) (os : List Output) (s t : State) : Prop where
  self : t.etd n = e
  etd : ∀ m, m ≠ n → t.etd m = s.etd m
  pls : ∀ m, t.pls m = s.pls m
  tel : ∀ m, t.tel m = s.tel m
  inputs : t.inputs = s.inputs
  outputs : t.outputs = s.outputs ++ os
  wf : s.wf = true → t.wf = true

/-- From `s` to `t` only PLS unit `n` steps. -/
structure StepsPls (n : Nat) (p : Pls) (os : List Output) (s t : State) : Prop where
  self : t.pls n = p
  etd : ∀ m, t.etd m = s.etd m
  pls : ∀ m, m ≠ n → t.pls m = s.pls m
  tel : ∀ m, t.tel m = s.tel m
  inputs : t.inputs = s.inputs
  outputs : t.outputs = s.outputs ++ os
  wf : s.wf = true → t.wf = true

/-- From `s` to `t` only TEL unit `n` steps. -/
structure StepsTel (n : Nat) (u : Tel) (os : List Output) (s t : State) : Prop where
  self : t.tel n = u
  etd : ∀ m, t.etd m = s.etd m
  pls : ∀ m, t.pls m = s.pls m
  tel : ∀ m, m ≠ n → t.tel m = s.tel m
  inputs : t.inputs = s.inputs
  outputs : t.outputs = s.outputs ++ os
  wf : s.wf = true → t.wf = true

theorem StepsEtd.hold (s : State) (n : Nat) : StepsEtd n (s.etd n) [] s s :=
  ⟨rfl, fun _ _ => rfl, fun _ => rfl, fun _ => rfl, rfl, by simp, id⟩
theorem StepsPls.hold (s : State) (n : Nat) : StepsPls n (s.pls n) [] s s :=
  ⟨rfl, fun _ => rfl, fun _ _ => rfl, fun _ => rfl, rfl, by simp, id⟩
theorem StepsTel.hold (s : State) (n : Nat) : StepsTel n (s.tel n) [] s s :=
  ⟨rfl, fun _ => rfl, fun _ => rfl, fun _ _ => rfl, rfl, by simp, id⟩

theorem StepsEtd.set (s : State) (n : Nat) (e : Etd) : StepsEtd n e [] s (s.setEtd n e) :=
  ⟨by simp, fun m h => by simp [etd_setEtd, h], fun _ => rfl, fun _ => rfl, rfl, by simp, wf_setEtd s n e⟩
theorem StepsPls.set (s : State) (n : Nat) (p : Pls) : StepsPls n p [] s (s.setPls n p) :=
  ⟨by simp, fun _ => rfl, fun m h => by simp [pls_setPls, h], fun _ => rfl, rfl, by simp, wf_setPls s n p⟩
theorem StepsTel.set (s : State) (n : Nat) (u : Tel) : StepsTel n u [] s (s.setTel n u) :=
  ⟨by simp, fun _ => rfl, fun _ => rfl, fun m h => by simp [tel_setTel, h], rfl, by simp, wf_setTel s n u⟩

section
variable {n : Nat} {os os' : List Output} {r s t : State}

/-- An output after an effect. -/
theorem StepsEtd.emit {e : Etd} (h : StepsEtd n e os s t) (o : Output) : StepsEtd n e (os ++ [o]) s (t.emit o) :=
  ⟨h.self, h.etd, h.pls, h.tel, h.inputs, by simp [h.outputs], h.wf⟩
theorem StepsPls.emit {p : Pls} (h : StepsPls n p os s t) (o : Output) : StepsPls n p (os ++ [o]) s (t.emit o) :=
  ⟨h.self, h.etd, h.pls, h.tel, h.inputs, by simp [h.outputs], h.wf⟩
theorem StepsTel.emit {u : Tel} (h : StepsTel n u os s t) (o : Output) : StepsTel n u (os ++ [o]) s (t.emit o) :=
  ⟨h.self, h.etd, h.pls, h.tel, h.inputs, by simp [h.outputs], h.wf⟩

/-- One effect after another. -/
theorem StepsEtd.trans {e e' : Etd} (h : StepsEtd n e os r s) (h' : StepsEtd n e' os' s t) :
    StepsEtd n e' (os ++ os') r t :=
  ⟨h'.self, fun m hm => (h'.etd m hm).trans (h.etd m hm), fun m => (h'.pls m).trans (h.pls m),
    fun m => (h'.tel m).trans (h.tel m), h'.inputs.trans h.inputs, by simp [h'.outputs, h.outputs],
    fun w => h'.wf (h.wf w)⟩
theorem StepsPls.trans {p p' : Pls} (h : StepsPls n p os r s) (h' : StepsPls n p' os' s t) :
    StepsPls n p' (os ++ os') r t :=
  ⟨h'.self, fun m => (h'.etd m).trans (h.etd m), fun m hm => (h'.pls m hm).trans (h.pls m hm),
    fun m => (h'.tel m).trans (h.tel m), h'.inputs.trans h.inputs, by simp [h'.outputs, h.outputs],
    fun w => h'.wf (h.wf w)⟩
theorem StepsTel.trans {u u' : Tel} (h : StepsTel n u os r s) (h' : StepsTel n u' os' s t) :
    StepsTel n u' (os ++ os') r t :=
  ⟨h'.self, fun m => (h'.etd m).trans (h.etd m), fun m => (h'.pls m).trans (h.pls m),
    fun m hm => (h'.tel m hm).trans (h.tel m hm), h'.inputs.trans h.inputs, by simp [h'.outputs, h.outputs],
    fun w => h'.wf (h.wf w)⟩
end

/-! ## ETD -/

/-- What a verdict emits. -/
def Verdict.out (n : Nat) : Verdict → List Output
  | .accept temp hum => [.reading n temp hum]
  | .reject _ => []

/-- The completion test of R100 on a unit's state. -/
def Etd.finish (e : Etd) : Etd :=
  if e.inCode = true ∧ e.bitsSeen = Config.frameBits then e.clearInCode else e

/-- What the completion test emits. -/
def Etd.finishOut (n : Nat) (e : Etd) : List Output :=
  if e.inCode = true ∧ e.bitsSeen = Config.frameBits then (doneVerdict e.code).out n else []

/-- An ETD unit after an interval. -/
def Etd.afterIvl (e : Etd) (ivl : Tick) : Etd :=
  match Sys2Proof.ivlClass e.inCode e.bitsSeen ivl with
  | .sync => e.startFrame
  | .idle => e
  | .pre => e.countInterval
  | .bit0 => e.countInterval.shiftCode.finish
  | .bit1 => e.countInterval.shiftCode.addOne.finish
  | .inv => e.countInterval.shiftCode.clearInCode

/-- What an interval makes an ETD unit emit. -/
def Etd.ivlOut (n : Nat) (e : Etd) (ivl : Tick) : List Output :=
  match Sys2Proof.ivlClass e.inCode e.bitsSeen ivl with
  | .bit0 => e.countInterval.shiftCode.finishOut n
  | .bit1 => e.countInterval.shiftCode.addOne.finishOut n
  | _ => []

theorem execDone_eq {n : Nat} {s : State}
    (h : (s.etd n).inCode = true ∧ (s.etd n).bitsSeen = Config.frameBits) :
    execDone n s = .next ((s.emitVerdict n (doneVerdict (s.etd n).code)).setEtd n (s.etd n).clearInCode) :=
  whenSelected_pos h _

theorem execDone_steps {n : Nat} {s : State}
    (h : (s.etd n).inCode = true ∧ (s.etd n).bitsSeen = Config.frameBits) :
    ∃ t, execDone n s = .next t ∧
      StepsEtd n (s.etd n).clearInCode ((doneVerdict (s.etd n).code).out n) s t := by
  refine ⟨_, execDone_eq h, ?_⟩
  cases doneVerdict (s.etd n).code with
  | accept temp hum =>
    exact ((StepsEtd.hold s n).emit _).trans (StepsEtd.set _ n _)
  | reject r => exact StepsEtd.set s n _

/-- The completion test after a bit. -/
theorem finishBit_steps (s : State) (n : Nat) (e : Etd) :
    ∃ t, finishBit n (s.setEtd n e) = .next t ∧ StepsEtd n e.finish (e.finishOut n) s t := by
  have set := StepsEtd.set s n e
  unfold finishBit Etd.finish Etd.finishOut
  simp only [etd_setEtd_self]
  split_ifs with h
  · obtain ⟨t, ht, st⟩ := execDone_steps (n := n) (s := s.setEtd n e) (by simpa using h)
    rw [etd_setEtd_self] at st
    exact ⟨t, ht, set.trans st⟩
  · exact ⟨_, rfl, set⟩

/-- An interval: one class is performed, and completes. -/
theorem performIvl_steps (n : Nat) (ivl : Tick) (s : State) :
    ∃ t, performIvl n ivl s = .next t ∧
      StepsEtd n ((s.etd n).afterIvl ivl) ((s.etd n).ivlOut n ivl) s t := by
  have hc : s.ivlClass n ivl = Sys2Proof.ivlClass (s.etd n).inCode (s.etd n).bitsSeen ivl := rfl
  unfold performIvl Etd.afterIvl Etd.ivlOut
  rw [← hc]
  cases h : s.ivlClass n ivl <;>
    simp only [execSync, execIdle, execPre, execBit0, execBit1, execInv, h, whenSelected_pos]
  · exact ⟨_, rfl, StepsEtd.set _ _ _⟩
  · exact ⟨_, rfl, StepsEtd.hold _ _⟩
  · exact ⟨_, rfl, StepsEtd.set _ _ _⟩
  · exact finishBit_steps _ _ _
  · exact finishBit_steps _ _ _
  · exact ⟨_, rfl, StepsEtd.set _ _ _⟩

/-- An ETD unit after an edge event. -/
def Etd.afterEdge (e : Etd) (tick : Tick) : Etd :=
  if e.prevValid = false then { e with prev := tick, prevValid := true }
  else ({ e with prev := tick } : Etd).afterIvl (interval e.prev tick)

/-- What an edge event makes an ETD unit emit. -/
def Etd.edgeOut (n : Nat) (e : Etd) (tick : Tick) : List Output :=
  if e.prevValid = false then [] else e.ivlOut n (interval e.prev tick)

/-- An edge event at an ETD unit: one operation is performed, and completes. -/
theorem edgeEtd_steps (n : Nat) (w : BitVec 33) (s : State) :
    ∃ t, exec (decodeEdge (.etd n) (s.etd n).prevValid w) s = .next t ∧
      StepsEtd n ((s.etd n).afterEdge (ev33Tick w)) ((s.etd n).edgeOut n (ev33Tick w)) s t := by
  unfold decodeEdge Etd.afterEdge Etd.edgeOut
  split_ifs with h
  · refine ⟨_, whenSelected_pos h _, ?_⟩
    simpa [State.setPrev, State.setPrevValid] using StepsEtd.set s n _
  · have h' : s.prevValid (.etd n) = true := by simpa [State.prevValid] using h
    obtain ⟨t, ht, st⟩ := performIvl_steps n (interval (s.etd n).prev (ev33Tick w))
      (s.setEtd n { s.etd n with prev := ev33Tick w })
    rw [etd_setEtd_self] at st
    exact ⟨t, (whenSelected_pos h' _).trans ht, (StepsEtd.set s n _).trans st⟩

/-! ## PLS -/

/-- What an interval makes a PLS unit emit. -/
def plsOut (n : Nat) (level : Bool) (ivl : Tick) : List Output :=
  match plsClass level ivl with
  | .pulse => [.pulseUnit n]
  | .debounce => []

/-- An interval: one class is performed, and completes. -/
theorem performPls_steps (n : Nat) (level : Bool) (ivl : Tick) (s : State) :
    ∃ t, performPls n level ivl s = .next t ∧ StepsPls n (s.pls n) (plsOut n level ivl) s t := by
  unfold performPls plsOut
  cases h : plsClass level ivl with
  | pulse =>
    have h' : plsClass true ivl = .pulse := by
      obtain ⟨rfl, -⟩ := (plsClass_pulse_iff _ _).1 h; exact h
    exact ⟨_, whenSelected_pos h' _, (StepsPls.hold s n).emit _⟩
  | debounce => exact ⟨_, whenSelected_pos h _, StepsPls.hold s n⟩

/-- What an edge event makes a PLS unit emit. -/
def Pls.edgeOut (n : Nat) (p : Pls) (level : Bool) (tick : Tick) : List Output :=
  if p.prevValid = false then [] else plsOut n level (interval p.prev tick)

/-- An edge event at a PLS unit: one operation is performed, and completes; `prev` becomes the tick. -/
theorem edgePls_steps (n : Nat) (w : BitVec 33) (s : State) :
    ∃ t, exec (decodeEdge (.pls n) (s.pls n).prevValid w) s = .next t ∧
      StepsPls n ⟨ev33Tick w, true⟩ ((s.pls n).edgeOut n (ev33Level w) (ev33Tick w)) s t := by
  unfold decodeEdge Pls.edgeOut
  split_ifs with h
  · refine ⟨_, whenSelected_pos h _, ?_⟩
    simpa [State.setPrev, State.setPrevValid] using StepsPls.set s n _
  · have h' : s.prevValid (.pls n) = true := by simpa [State.prevValid] using h
    have hv : (s.pls n).prevValid = true := by simpa using h
    obtain ⟨t, ht, st⟩ := performPls_steps n (ev33Level w) (interval (s.pls n).prev (ev33Tick w))
      (s.setPls n { s.pls n with prev := ev33Tick w })
    have hp : ({ s.pls n with prev := ev33Tick w } : Pls) = ⟨ev33Tick w, true⟩ := by rw [← hv]
    rw [pls_setPls_self] at st
    exact ⟨t, (whenSelected_pos h' _).trans ht, hp ▸ (StepsPls.set s n _).trans st⟩

/-! ## TEL -/

/-- The error a content line raises (R160). -/
def lineError (line : Bytes) : Option ErrorCode :=
  match parseField line with
  | none => none
  | some f =>
    if lineRaises line = false then none
    else match fieldKind f.oid with
      | .tariff => some .fieldTariff
      | .low => some .fieldKwh
      | .high => some .fieldKwh
      | .current => some .fieldKwh
      | _ => some .fieldM3

/-- A TEL unit after the field class of a content line. -/
def Tel.afterContent (t : Tel) (line : Bytes) : Tel :=
  if lineRaises line = true then t.stopReading else { t with packet := packetAfterLine t.packet line }

/-- What a content line makes a TEL unit emit. -/
def contentOut (n : Nat) (line : Bytes) : List Output :=
  match lineError line with
  | none => []
  | some code => [.error n code line 0]

/-- The one lemma of the numeric classes (R150): the operand is stored, or the error raised. -/
theorem numericField_steps {n : Nat} {s : State} (h : (s.tel n).reading = true) (code : ErrorCode) (line : Bytes)
    (operand : Option Nat) (write : Packet → BitVec 64 → Packet) :
    ∃ t, numericField n code line operand write s = .next t ∧
      StepsTel n
        (match operand with
          | none => (s.tel n).stopReading
          | some v => { s.tel n with packet := write (s.tel n).packet (BitVec.ofNat 64 v) })
        (match operand with
          | none => [.error n code line 0]
          | some _ => []) s t := by
  unfold numericField
  rw [whenSelected_pos h]
  cases operand with
  | none => exact ⟨_, rfl, (StepsTel.set s n _).emit _⟩
  | some v => exact ⟨_, rfl, StepsTel.set s n _⟩

/-- The gas class at a line of one of its identifiers. -/
theorem gasField_steps {n : Nat} {s : State} (h : (s.tel n).reading = true) (oid : Bytes) (f : FieldLine) :
    ∃ t, gasField n oid f.value1 f.groups s = .next t ∧
      StepsTel n
        (match m3Operand f.value1 with
          | none => (s.tel n).stopReading
          | some v => { s.tel n with packet := { (s.tel n).packet with gasConsumedL := BitVec.ofNat 64 v } })
        (match m3Operand f.value1 with
          | none => [.error n .fieldM3 (fieldText oid f.value1 f.groups) 0]
          | some _ => []) s t :=
  numericField_steps h .fieldM3 _ (m3Operand f.value1) fun p v => { p with gasConsumedL := v }

/-- The field class of a content line: one class is performed, and completes. -/
theorem performContent_steps {n : Nat} {s : State} (h : (s.tel n).reading = true) (line : Bytes) :
    ∃ t, performContent n line s = .next t ∧ StepsTel n ((s.tel n).afterContent line) (contentOut n line) s t := by
  unfold performContent Tel.afterContent contentOut lineError
  cases hp : parseField line with
  | none =>
    refine ⟨_, whenSelected_pos ⟨h, hp⟩ _, ?_⟩
    simpa [lineRaises, packetAfterLine, hp] using StepsTel.hold s n
  | some f =>
    have text := fieldText_parseField hp
    simp only [performField, lineRaises, packetAfterLine, hp]
    cases hk : fieldKind f.oid with
    | eid => exact ⟨_, whenSelected_pos h _, by simpa using StepsTel.set s n _⟩
    | other => exact ⟨_, whenSelected_pos ⟨h, hk⟩ _, by simpa using StepsTel.hold s n⟩
    | tariff =>
      rw [oid_tariff hk] at text
      obtain ⟨t, ht, st⟩ := numericField_steps h .fieldTariff (fieldText oidTariff f.value1 f.groups)
        (tariffOperand f.value1) fun p v => { p with tariff := v }
      refine ⟨t, ht, ?_⟩
      rw [text] at st
      cases ho : tariffOperand f.value1 <;> simpa [ho] using st
    | low =>
      rw [oid_low hk] at text
      obtain ⟨t, ht, st⟩ := numericField_steps h .fieldKwh (fieldText oidLow f.value1 f.groups)
        (kwhOperand Config.kwhScaleMode f.value1) fun p v => { p with lowConsumedWh := v }
      refine ⟨t, ht, ?_⟩
      rw [text] at st
      cases ho : kwhOperand Config.kwhScaleMode f.value1 <;> simpa [ho] using st
    | high =>
      rw [oid_high hk] at text
      obtain ⟨t, ht, st⟩ := numericField_steps h .fieldKwh (fieldText oidHigh f.value1 f.groups)
        (kwhOperand Config.kwhScaleMode f.value1) fun p v => { p with highConsumedWh := v }
      refine ⟨t, ht, ?_⟩
      rw [text] at st
      cases ho : kwhOperand Config.kwhScaleMode f.value1 <;> simpa [ho] using st
    | current =>
      rw [oid_current hk] at text
      obtain ⟨t, ht, st⟩ := numericField_steps h .fieldKwh (fieldText oidCurrent f.value1 f.groups)
        (kwhOperand Config.kwhScaleMode f.value1) fun p v => { p with currentConsumedWh := v }
      refine ⟨t, ht, ?_⟩
      rw [text] at st
      cases ho : kwhOperand Config.kwhScaleMode f.value1 <;> simpa [ho] using st
    | gas1 =>
      rw [oid_gas1 hk] at text
      obtain ⟨t, ht, st⟩ := gasField_steps h oidGas1 f
      refine ⟨t, ht, ?_⟩
      rw [text] at st
      cases ho : m3Operand f.value1 <;> simpa [ho] using st
    | gas2 =>
      rw [oid_gas2 hk] at text
      obtain ⟨t, ht, st⟩ := gasField_steps h oidGas2 f
      refine ⟨t, ht, ?_⟩
      rw [text] at st
      cases ho : m3Operand f.value1 <;> simpa [ho] using st
    | gas3 =>
      rw [oid_gas3 hk] at text
      obtain ⟨t, ht, st⟩ := gasField_steps h oidGas3 f
      refine ⟨t, ht, ?_⟩
      rw [text] at st
      cases ho : m3Operand f.value1 <;> simpa [ho] using st
    | gas4 =>
      rw [oid_gas4 hk] at text
      obtain ⟨t, ht, st⟩ := gasField_steps h oidGas4 f
      refine ⟨t, ht, ?_⟩
      rw [text] at st
      cases ho : m3Operand f.value1 <;> simpa [ho] using st

/-- A TEL unit after a line (R132). -/
def Tel.afterLine (t : Tel) (line : Bytes) : Tel :=
  match Sys2Proof.lineClass t.reading line with
  | .start =>
    { t.startReading with
      packet := zeroPacket (line.drop 1)
      rawFrame := startText Config.rawIncludesStart line }
  | .skip => t
  | .finish =>
    if checksumOperand (line.drop 1) = none then t.stopReading else { t.stopReading with crc := 0 }
  | .content => (t.appendFrame line).afterContent line

/-- What a line makes a TEL unit emit. -/
def Tel.lineOut (n : Nat) (t : Tel) (line : Bytes) : List Output :=
  match Sys2Proof.lineClass t.reading line with
  | .start => []
  | .skip => []
  | .finish =>
    match checksumOperand (line.drop 1) with
    | none => [.error n .checksumParse line 0]
    | some tx =>
      if tx = (crc16 (t.rawFrame ++ [chBang])).toNat then [.packet n t.packet]
      else [.error n .checksumMismatch line (crc16 (t.rawFrame ++ [chBang]))]
  | .content => contentOut n line

theorem cons_drop_of_head {line : Bytes} {c : Byte} (h : line.head? = some c) : c :: line.drop 1 = line := by
  cases line with
  | nil => simp at h
  | cons b l => simp at h; simp [h]

theorem execLineEnd_steps {n : Nat} {s : State} (h : (s.tel n).reading = true) {line : Bytes}
    (hl : line.head? = some chBang) :
    ∃ t, execLineEnd n (line.drop 1) s = .next t ∧
      StepsTel n ((s.tel n).afterLine line) ((s.tel n).lineOut n line) s t := by
  have hc : Sys2Proof.lineClass (s.tel n).reading line = .finish := (lineClass_finish_iff _ _).2 ⟨h, hl⟩
  unfold execLineEnd Tel.afterLine Tel.lineOut
  rw [whenSelected_pos h, hc, cons_drop_of_head hl]
  simp only
  cases checksumOperand (line.drop 1) with
  | none => exact ⟨_, rfl, (StepsTel.set s n _).emit _⟩
  | some tx =>
    have hx : ∀ c : BitVec 16, c ^^^ Config.crcXorOut = c := by simp
    simp only [runCrc_eq, hx]
    have set := StepsTel.set s n { (s.tel n).stopReading with crc := 0 }
    by_cases ht : tx = (crc16 ((s.tel n).rawFrame ++ [chBang])).toNat
    · rw [if_pos ht, if_pos ht]; exact ⟨_, rfl, set.emit _⟩
    · rw [if_neg ht, if_neg ht]; exact ⟨_, rfl, set.emit _⟩

/-- A line: one class is performed, and completes. -/
theorem performLine_steps (n : Nat) (line : Bytes) (s : State) :
    ∃ t, performLine n line s = .next t ∧
      StepsTel n ((s.tel n).afterLine line) ((s.tel n).lineOut n line) s t := by
  have hc : s.lineClass n line = Sys2Proof.lineClass (s.tel n).reading line := rfl
  unfold performLine
  cases h : s.lineClass n line with
  | start =>
    obtain ⟨hr, hl⟩ := (lineClass_start_iff _ _).1 (hc.symm.trans h)
    have hd := cons_drop_of_head hl
    have hl' := hc.symm.trans h
    unfold Tel.afterLine Tel.lineOut
    rw [hl']
    simp only [execLineStart, whenSelected_pos hr, whenFits_strMax, hd]
    exact ⟨_, rfl, StepsTel.set _ _ _⟩
  | skip =>
    simp only [execLineSkip, h, whenSelected_pos, Tel.afterLine, Tel.lineOut, ← hc]
    exact ⟨_, rfl, StepsTel.hold _ _⟩
  | finish =>
    obtain ⟨hr, hl⟩ := (lineClass_finish_iff _ _).1 (hc.symm.trans h)
    exact execLineEnd_steps hr hl
  | content =>
    obtain ⟨hr, -⟩ := (lineClass_content_iff _ _).1 (hc.symm.trans h)
    simp only [execLineContent, h, whenSelected_pos, whenFits_frameMax, Tel.afterLine, Tel.lineOut, ← hc]
    obtain ⟨t, ht, st⟩ := performContent_steps (n := n) (s := s.setTel n ((s.tel n).appendFrame line)) (by simpa using hr) line
    rw [tel_setTel_self] at st
    exact ⟨t, ht, (StepsTel.set _ _ _).trans st⟩

/-- A TEL unit after a byte. -/
def Tel.afterByte (t : Tel) (b : Byte) : Tel :=
  if b = Config.eol then t.clearLine.afterLine (trim t.lineBuf) else t.appendLine b

/-- What a byte makes a TEL unit emit. -/
def Tel.byteOut (n : Nat) (t : Tel) (b : Byte) : List Output :=
  if b = Config.eol then t.clearLine.lineOut n (trim t.lineBuf) else []

/-- A byte: one operation is performed, and completes. -/
theorem byte_steps (n : Nat) (b : Byte) (s : State) :
    ∃ t, exec (decodeByte n b) s = .next t ∧ StepsTel n ((s.tel n).afterByte b) ((s.tel n).byteOut n b) s t := by
  unfold decodeByte Tel.afterByte Tel.byteOut
  split_ifs with h
  · obtain ⟨t, ht, st⟩ := performLine_steps n (trim (s.tel n).lineBuf) (s.setTel n (s.tel n).clearLine)
    rw [tel_setTel_self] at st
    exact ⟨t, ht, (StepsTel.set _ _ _).trans st⟩
  · exact ⟨_, (whenSelected_pos h _).trans (whenFits_lineMax _ _), StepsTel.set _ _ _⟩

/-! ## One step -/

/-- A step whose input is an edge event of an ETD unit. -/
theorem step_etd {s : State} {n : Nat} {w : BitVec 33} {rest : List Transaction}
    (h : s.inputs = .edge (.etd n) w :: rest) :
    ∃ t, step s = .next t ∧ StepsEtd n ((s.etd n).afterEdge (ev33Tick w)) ((s.etd n).edgeOut n (ev33Tick w))
      { s with inputs := rest } t := by
  rw [step_cons h]; exact edgeEtd_steps n w { s with inputs := rest }

/-- A step whose input is an edge event of a PLS unit. -/
theorem step_pls {s : State} {n : Nat} {w : BitVec 33} {rest : List Transaction}
    (h : s.inputs = .edge (.pls n) w :: rest) :
    ∃ t, step s = .next t ∧ StepsPls n ⟨ev33Tick w, true⟩ ((s.pls n).edgeOut n (ev33Level w) (ev33Tick w))
      { s with inputs := rest } t := by
  rw [step_cons h]; exact edgePls_steps n w { s with inputs := rest }

/-- A step whose input is a byte of a TEL unit. -/
theorem step_tel {s : State} {n : Nat} {b : Byte} {rest : List Transaction} (h : s.inputs = .byte n b :: rest) :
    ∃ t, step s = .next t ∧ StepsTel n ((s.tel n).afterByte b) ((s.tel n).byteOut n b)
      { s with inputs := rest } t := by
  rw [step_cons h]; exact byte_steps n b { s with inputs := rest }

end Sys2Proof.Machine
end

