-- ==== Sys2Proof/Tests/Slice0.lean ====
section
/-! SUPPORT. Tests. Expected values come from spec/95_test_vectors.md (S4 to S6, V1 to V10, P1 to P6) or from the rules
named beside the test; none is the model's own answer. Texts are written in ASCII codes, with the text in the comment. -/

namespace Sys2Proof.Tests

open Sys2Proof.Machine

/-! ## Small states -/

/-- The next state, if there is one. -/
def after (i : Instr) (s : State) : Option State :=
  match exec i s with
  | .next t => some t
  | .fault _ => none
  | .refused _ => none

/-- ETD unit 0 with a primed clock at tick 0. -/
def etdAt (inCode : Bool) (bitsSeen : BitVec 8) (code : BitVec 64) : State :=
  State.reset.setEtd 0 ⟨0, true, inCode, code, bitsSeen⟩

/-- PLS unit 0 with a primed clock. -/
def plsAt (prev : Tick) : State := State.reset.setPls 0 ⟨prev, true⟩

/-- TEL unit 0 with this line buffer, inside the frame of the start line `/X`, or outside a frame. -/
def telAt (reading : Bool) (lineBuf : Bytes) : State :=
  State.reset.setTel 0 ⟨lineBuf, reading, [0x2F, 0x58, 0x0D, 0x0A], zeroPacket [0x58], 0⟩

/-- These inputs pending. -/
def given (s : State) (xs : List Transaction) : State := { s with inputs := xs }

/-- What ETD unit 0 holds of a frame after an operation, and what was emitted. -/
def etdAfter (i : Instr) (s : State) : Option (Bool × BitVec 8 × BitVec 64 × List Output) :=
  (after i s).map fun t => ((t.etd 0).inCode, (t.etd 0).bitsSeen, (t.etd 0).code, t.outputs)

/-- Whether TEL unit 0 reads, its packet, and what was emitted, after an operation. -/
def telAfter (i : Instr) (s : State) : Option (Bool × Packet × List Output) :=
  (after i s).map fun t => ((t.tel 0).reading, (t.tel 0).packet, t.outputs)

/-! ## Well-formedness: each check refuses an ill-formed term -/

theorem test_wf_refuses_sync :
    Instr.wf (.sync 0 10000) = false := by decide
theorem test_wf_refuses_idle :
    Instr.wf (.idle 0 10001) = false := by decide
theorem test_wf_refuses_pre :
    Instr.wf (.pre 0 10001) = false := by decide
theorem test_wf_refuses_bit0_low :
    Instr.wf (.bit0 0 59) = false := by decide
theorem test_wf_refuses_bit0_high :
    Instr.wf (.bit0 0 101) = false := by decide
theorem test_wf_refuses_bit1_low :
    Instr.wf (.bit1 0 100) = false := by decide
theorem test_wf_refuses_bit1_high :
    Instr.wf (.bit1 0 150) = false := by decide
theorem test_wf_refuses_inv_mid :
    Instr.wf (.inv 0 60) = false := by decide
theorem test_wf_refuses_inv_high :
    Instr.wf (.inv 0 10001) = false := by decide
theorem test_wf_refuses_pulse :
    Instr.wf (.pulse 0 1000000) = false := by decide
theorem test_wf_refuses_debounce :
    Instr.wf (.debounce 0 true 1000001) = false := by decide
theorem test_wf_refuses_byteData :
    Instr.wf (.byteData 0 0x0A) = false := by decide
theorem test_wf_refuses_lineStart :
    Instr.wf (.lineStart 0 [0x41, 0x20]) = false := by decide
theorem test_wf_refuses_lineSkip_untrimmed :
    Instr.wf (.lineSkip 0 [0x20, 0x41]) = false := by decide
theorem test_wf_refuses_lineSkip_slash :
    Instr.wf (.lineSkip 0 [0x2F]) = false := by decide
theorem test_wf_refuses_lineEnd :
    Instr.wf (.lineEnd 0 [0x0D]) = false := by decide
theorem test_wf_refuses_lineContent_untrimmed :
    Instr.wf (.lineContent 0 [0x41, 0x0D]) = false := by decide
theorem test_wf_refuses_lineContent_bang :
    Instr.wf (.lineContent 0 [0x21]) = false := by decide
theorem test_wf_refuses_lineNomatch_untrimmed :
    Instr.wf (.lineNomatch 0 [0x09]) = false := by decide
theorem test_wf_refuses_lineNomatch_bang :
    Instr.wf (.lineNomatch 0 [0x21]) = false := by decide
theorem test_wf_refuses_lineNomatch_matching :
    Instr.wf (.lineNomatch 0 [0x31, 0x28, 0x29]) = false := by decide
theorem test_wf_refuses_fieldEid :
    Instr.wf (.fieldEid 0 [0x28] []) = false := by decide
theorem test_wf_refuses_fieldTariff :
    Instr.wf (.fieldTariff 0 [0x28] []) = false := by decide
theorem test_wf_refuses_fieldLow :
    Instr.wf (.fieldLow 0 [0x28] []) = false := by decide
theorem test_wf_refuses_fieldHigh :
    Instr.wf (.fieldHigh 0 [0x28] []) = false := by decide
theorem test_wf_refuses_fieldCurrent :
    Instr.wf (.fieldCurrent 0 [0x28] []) = false := by decide
theorem test_wf_refuses_fieldGas1 :
    Instr.wf (.fieldGas1 0 [0x28] []) = false := by decide
theorem test_wf_refuses_fieldGas2 :
    Instr.wf (.fieldGas2 0 [0x28] []) = false := by decide
theorem test_wf_refuses_fieldGas3 :
    Instr.wf (.fieldGas3 0 [0x28] []) = false := by decide
theorem test_wf_refuses_fieldGas4 :
    Instr.wf (.fieldGas4 0 [0x28] []) = false := by decide
theorem test_wf_refuses_fieldEid_group :
    Instr.wf (.fieldEid 0 [] [[0x41], [0x29]]) = false := by decide
theorem test_wf_refuses_fieldOther_empty :
    Instr.wf (.fieldOther 0 [] [] []) = false := by decide
theorem test_wf_refuses_fieldOther_letter :
    Instr.wf (.fieldOther 0 [0x41] [] []) = false := by decide
theorem test_wf_refuses_fieldOther_listed :
    Instr.wf (.fieldOther 0 oidEid [] []) = false := by decide
theorem test_wf_refuses_fieldOther_paren :
    Instr.wf (.fieldOther 0 [0x31] [0x29] []) = false := by decide

/-! ## Decoding: words written out from the spec's encodings, least significant byte first (log 9) -/

/-- P1 step 0: `EDGE 1000, 1` is 0x1000003E8. -/
theorem test_decode_edgeFirst :
    decode (.edge (.etd 0)) ⟨false, false, 0xFE, false⟩ [0xE8, 0x03, 0x00, 0x00, 0x01]
      = .ok (.edgeFirst (.etd 0) true 1000) := by decide
/-- P3 step 0: `EDGE 0xFFF00000, 0` is 0x0FFF00000. -/
theorem test_decode_edgeFirst_pls :
    decode (.edge (.pls 2)) ⟨false, false, 0xFE, false⟩ [0x00, 0x00, 0xF0, 0xFF, 0x00]
      = .ok (.edgeFirst (.pls 2) false 0xFFF00000) := by decide
/-- P1 step 1: `EDGE 13000, 1` is 0x1000032C8. -/
theorem test_decode_edgeNext :
    decode (.edge (.etd 0)) ⟨true, false, 0xFE, false⟩ [0xC8, 0x32, 0x00, 0x00, 0x01]
      = .ok (.edgeNext (.etd 0) true 13000) := by decide
/-- R65: 12000 exceeds 10000. -/
theorem test_decode_sync :
    decode (.ivl 0) ⟨false, false, 0xFE, false⟩ [0xE0, 0x2E, 0x00, 0x00]
      = .ok (.sync 0 12000) := by decide
/-- V2, column idle. -/
theorem test_decode_idle :
    decode (.ivl 0) ⟨false, false, 0xFE, false⟩ [0x10, 0x27, 0x00, 0x00]
      = .ok (.idle 0 10000) := by decide
/-- V2, column pre₂. -/
theorem test_decode_pre :
    decode (.ivl 0) ⟨true, true, 0xFE, false⟩ [0x10, 0x27, 0x00, 0x00]
      = .ok (.pre 0 10000) := by decide
/-- V2, column first bit. -/
theorem test_decode_bit0 :
    decode (.ivl 0) ⟨true, true, 0, false⟩ [0x64, 0x00, 0x00, 0x00]
      = .ok (.bit0 0 100) := by decide
/-- V2, the fortieth position. -/
theorem test_decode_bit1 :
    decode (.ivl 0) ⟨true, true, 39, false⟩ [0x95, 0x00, 0x00, 0x00]
      = .ok (.bit1 0 149) := by decide
/-- V2, column mid. -/
theorem test_decode_inv :
    decode (.ivl 0) ⟨true, true, 5, false⟩ [0x96, 0x00, 0x00, 0x00]
      = .ok (.inv 0 150) := by decide
/-- R107: `bitsSeen` is 40. -/
theorem test_decode_done :
    decode (.done 0) ⟨true, true, 40, false⟩ []
      = .ok (.done 0) := by decide
/-- P3 step 8, the interval. -/
theorem test_decode_pulse :
    decode (.pulse 0) ⟨true, false, 0xFE, false⟩ [0x41, 0x42, 0x0F, 0x00, 0x01]
      = .ok (.pulse 0 1000001) := by decide
/-- S5: the same interval on a falling edge. -/
theorem test_decode_debounce :
    decode (.pulse 0) ⟨true, false, 0xFE, false⟩ [0x80, 0x4F, 0x12, 0x00, 0x00]
      = .ok (.debounce 0 false 1200000) := by decide
/-- P3 step 6. -/
theorem test_decode_debounce_rising :
    decode (.pulse 0) ⟨true, false, 0xFE, false⟩ [0x40, 0x42, 0x0F, 0x00, 0x01]
      = .ok (.debounce 0 true 1000000) := by decide
/-- R62. -/
theorem test_decode_byteEol :
    decode (.byte 0) ⟨false, false, 0xFE, false⟩ [0x0A]
      = .ok (.byteEol 0) := by decide
/-- R62. -/
theorem test_decode_byteData :
    decode (.byte 0) ⟨false, false, 0xFE, false⟩ [0x0D]
      = .ok (.byteData 0 0x0D) := by decide
/-- V7: `/ISK5` outside a frame. -/
theorem test_decode_lineStart :
    decode (.line 0) ⟨false, false, 0xFE, false⟩ [0x2F, 0x49, 0x53, 0x4B, 0x35]
      = .ok (.lineStart 0 [0x49, 0x53, 0x4B, 0x35]) := by decide
/-- V7: `!13A9` outside a frame. -/
theorem test_decode_lineSkip :
    decode (.line 0) ⟨false, false, 0xFE, false⟩ [0x21, 0x31, 0x33, 0x41, 0x39]
      = .ok (.lineSkip 0 [0x21, 0x31, 0x33, 0x41, 0x39]) := by decide
/-- V7: `!13A9` inside a frame. -/
theorem test_decode_lineEnd :
    decode (.line 0) ⟨false, false, 0xFE, true⟩ [0x21, 0x31, 0x33, 0x41, 0x39]
      = .ok (.lineEnd 0 [0x31, 0x33, 0x41, 0x39]) := by decide
/-- V7: `/ISK5` inside a frame. -/
theorem test_decode_lineContent :
    decode (.line 0) ⟨false, false, 0xFE, true⟩ [0x2F, 0x49, 0x53, 0x4B, 0x35]
      = .ok (.lineContent 0 [0x2F, 0x49, 0x53, 0x4B, 0x35]) := by decide
/-- V8: `(1.0*kWh)`. -/
theorem test_decode_lineNomatch :
    decode (.content 0) ⟨false, false, 0xFE, true⟩ [0x28, 0x31, 0x2E, 0x30, 0x2A, 0x6B, 0x57, 0x68, 0x29]
      = .ok (.lineNomatch 0 [0x28, 0x31, 0x2E, 0x30, 0x2A, 0x6B, 0x57, 0x68, 0x29]) := by decide
/-- V9: `0-0:96.1.1()`. -/
theorem test_decode_fieldEid :
    decode (.content 0) ⟨false, false, 0xFE, true⟩ [0x30, 0x2D, 0x30, 0x3A, 0x39, 0x36, 0x2E, 0x31, 0x2E, 0x31, 0x28, 0x29]
      = .ok (.fieldEid 0 [] []) := by decide
/-- V9: `0-0:96.14.0(0002)`. -/
theorem test_decode_fieldTariff :
    decode (.content 0) ⟨false, false, 0xFE, true⟩ [0x30, 0x2D, 0x30, 0x3A, 0x39, 0x36, 0x2E, 0x31, 0x34, 0x2E, 0x30, 0x28, 0x30, 0x30, 0x30, 0x32, 0x29]
      = .ok (.fieldTariff 0 [0x30, 0x30, 0x30, 0x32] []) := by decide
/-- V9: `1-0:1.8.1(2.*kWh)`. -/
theorem test_decode_fieldLow :
    decode (.content 0) ⟨false, false, 0xFE, true⟩ [0x31, 0x2D, 0x30, 0x3A, 0x31, 0x2E, 0x38, 0x2E, 0x31, 0x28, 0x32, 0x2E, 0x2A, 0x6B, 0x57, 0x68, 0x29]
      = .ok (.fieldLow 0 [0x32, 0x2E, 0x2A, 0x6B, 0x57, 0x68] []) := by decide
/-- V9: `1-0:1.8.2(x)`. -/
theorem test_decode_fieldHigh :
    decode (.content 0) ⟨false, false, 0xFE, true⟩ [0x31, 0x2D, 0x30, 0x3A, 0x31, 0x2E, 0x38, 0x2E, 0x32, 0x28, 0x78, 0x29]
      = .ok (.fieldHigh 0 [0x78] []) := by decide
/-- V9: `1-0:1.7.0(00.123*kWh)(ignored)`. -/
theorem test_decode_fieldCurrent :
    decode (.content 0) ⟨false, false, 0xFE, true⟩ [0x31, 0x2D, 0x30, 0x3A, 0x31, 0x2E, 0x37, 0x2E, 0x30, 0x28, 0x30, 0x30, 0x2E, 0x31, 0x32, 0x33, 0x2A, 0x6B, 0x57, 0x68, 0x29, 0x28, 0x69, 0x67, 0x6E, 0x6F, 0x72, 0x65, 0x64, 0x29]
      = .ok (.fieldCurrent 0 [0x30, 0x30, 0x2E, 0x31, 0x32, 0x33, 0x2A, 0x6B, 0x57, 0x68] [[0x69, 0x67, 0x6E, 0x6F, 0x72, 0x65, 0x64]]) := by decide
/-- V9: `1-1:24.2.1(1.5*M3)`. -/
theorem test_decode_fieldGas1 :
    decode (.content 0) ⟨false, false, 0xFE, true⟩ [0x31, 0x2D, 0x31, 0x3A, 0x32, 0x34, 0x2E, 0x32, 0x2E, 0x31, 0x28, 0x31, 0x2E, 0x35, 0x2A, 0x4D, 0x33, 0x29]
      = .ok (.fieldGas1 0 [0x31, 0x2E, 0x35, 0x2A, 0x4D, 0x33] []) := by decide
/-- V9: `1-2:24.2.1(12785.123*m3)`. -/
theorem test_decode_fieldGas2 :
    decode (.content 0) ⟨false, false, 0xFE, true⟩ [0x31, 0x2D, 0x32, 0x3A, 0x32, 0x34, 0x2E, 0x32, 0x2E, 0x31, 0x28, 0x31, 0x32, 0x37, 0x38, 0x35, 0x2E, 0x31, 0x32, 0x33, 0x2A, 0x6D, 0x33, 0x29]
      = .ok (.fieldGas2 0 [0x31, 0x32, 0x37, 0x38, 0x35, 0x2E, 0x31, 0x32, 0x33, 0x2A, 0x6D, 0x33] []) := by decide
/-- V9: `1-3:24.2.1(0.999*m3)`. -/
theorem test_decode_fieldGas3 :
    decode (.content 0) ⟨false, false, 0xFE, true⟩ [0x31, 0x2D, 0x33, 0x3A, 0x32, 0x34, 0x2E, 0x32, 0x2E, 0x31, 0x28, 0x30, 0x2E, 0x39, 0x39, 0x39, 0x2A, 0x6D, 0x33, 0x29]
      = .ok (.fieldGas3 0 [0x30, 0x2E, 0x39, 0x39, 0x39, 0x2A, 0x6D, 0x33] []) := by decide
/-- V9: `1-4:24.2.1(7.*m3)`. -/
theorem test_decode_fieldGas4 :
    decode (.content 0) ⟨false, false, 0xFE, true⟩ [0x31, 0x2D, 0x34, 0x3A, 0x32, 0x34, 0x2E, 0x32, 0x2E, 0x31, 0x28, 0x37, 0x2E, 0x2A, 0x6D, 0x33, 0x29]
      = .ok (.fieldGas4 0 [0x37, 0x2E, 0x2A, 0x6D, 0x33] []) := by decide
/-- V9: `1-0:1.8.10(1.0*kWh)`. -/
theorem test_decode_fieldOther :
    decode (.content 0) ⟨false, false, 0xFE, true⟩ [0x31, 0x2D, 0x30, 0x3A, 0x31, 0x2E, 0x38, 0x2E, 0x31, 0x30, 0x28, 0x31, 0x2E, 0x30, 0x2A, 0x6B, 0x57, 0x68, 0x29]
      = .ok (.fieldOther 0 [0x31, 0x2D, 0x30, 0x3A, 0x31, 0x2E, 0x38, 0x2E, 0x31, 0x30] [0x31, 0x2E, 0x30, 0x2A, 0x6B, 0x57, 0x68] []) := by decide
/-- R170. -/
theorem test_decode_crcByte :
    decode (.crc 0) ⟨false, false, 0xFE, false⟩ [0x21]
      = .ok (.crcByte 0 0x21) := by decide
/-- R180. -/
theorem test_decode_reset :
    decode (.reset (.etd 1)) ⟨false, false, 0xFE, false⟩ []
      = .ok (.reset (.etd 1)) := by decide
/-- R188. -/
theorem test_decode_cancel :
    decode (.cancel (.tel 0)) ⟨false, false, 0xFE, false⟩ []
      = .ok (.cancel (.tel 0)) := by decide

/-! ## Byte strings that are no word of the port's format -/

/-- IVL32 has 32 bits. -/
theorem test_reject_wrongLength :
    decode (.ivl 0) ⟨false, false, 0xFE, false⟩ [0x00, 0x00, 0x00] = .error .wrongLength := by decide
/-- EV33 has 33 bits. -/
theorem test_reject_padBits :
    decode (.edge (.etd 0)) ⟨false, false, 0xFE, false⟩ [0x00, 0x00, 0x00, 0x00, 0x02] = .error .padBits := by decide
/-- R180: no data word. -/
theorem test_reject_noDataWord :
    decode (.reset (.etd 0)) ⟨false, false, 0xFE, false⟩ [0x00] = .error .noDataWord := by decide
/-- R67: a line is trimmed. -/
theorem test_reject_notTrimmed :
    decode (.line 0) ⟨false, false, 0xFE, false⟩ [0x2F, 0x0D] = .error .notTrimmed := by decide
/-- R68: `!` begins an end line. -/
theorem test_reject_notContent :
    decode (.content 0) ⟨false, false, 0xFE, true⟩ [0x21] = .error .notContent := by decide
/-- R107: DONE needs `bitsSeen = 40`. -/
theorem test_reject_notSelected :
    decode (.done 0) ⟨true, true, 39, false⟩ [] = .error .notSelected := by decide

/-! ## One step of each operation -/

/-- P1 step 0. -/
theorem test_edgeFirst_etd :
    (after (.edgeFirst (.etd 0) true 1000) State.reset).map (fun t => (t.etd 0).prev) = some 1000 := by decide
/-- P3 step 0. -/
theorem test_edgeFirst_pls :
    (after (.edgeFirst (.pls 0) false 0xFFF00000) State.reset).map (fun t => (t.pls 0, t.outputs))
      = some (⟨0xFFF00000, true⟩, []) := by decide
/-- V1: the interval from 0xFFFFE000 to 0x00000EE0 is 12000, a sync. -/
theorem test_edgeNext_sync :
    (after (.edgeNext (.etd 0) true 0x00000EE0) (State.reset.setEtd 0 ⟨0xFFFFE000, true, false, 0, 0xFE⟩)).map
      (fun t => ((t.etd 0).prev, (t.etd 0).inCode)) = some (0x00000EE0, true) := by decide
/-- P3 step 1. -/
theorem test_edgeNext_pulse :
    (after (.edgeNext (.pls 0) true 0x00024F80) (plsAt 0xFFF00000)).map (fun t => (t.pls 0, t.outputs))
      = some (⟨0x00024F80, true⟩, [.pulseUnit 0]) := by decide
/-- V2, column mid. -/
theorem test_sync :
    etdAfter (.sync 0 10001) (etdAt true 5 22) = some (true, 0xFE, 0, []) := by decide
/-- V2, column idle. -/
theorem test_idle :
    etdAfter (.idle 0 10000) (etdAt false 0xFE 0) = some (false, 0xFE, 0, []) := by decide
/-- V2, column pre₂. -/
theorem test_pre_first :
    etdAfter (.pre 0 10000) (etdAt true 0xFE 0) = some (true, 0xFF, 0, []) := by decide
/-- V2, column pre₁. -/
theorem test_pre_second :
    etdAfter (.pre 0 0) (etdAt true 0xFF 0) = some (true, 0, 0, []) := by decide
/-- V2, column mid. -/
theorem test_bit0 :
    etdAfter (.bit0 0 100) (etdAt true 5 22) = some (true, 6, 44, []) := by decide
/-- V2, the fortieth position: the checksum fails. -/
theorem test_bit0_fortieth :
    etdAfter (.bit0 0 60) (etdAt true 39 0x014540A42A) = some (false, 40, 0x028A814854, []) := by decide
/-- V2, column mid. -/
theorem test_bit1 :
    etdAfter (.bit1 0 101) (etdAt true 5 22) = some (true, 6, 45, []) := by decide
/-- V2, the fortieth position, and P1 step 43. -/
theorem test_bit1_fortieth :
    etdAfter (.bit1 0 149) (etdAt true 39 0x014540A42A)
      = some (false, 40, 0x028A814855, [.reading 0 (BitVec.ofInt 16 (-328)) 650]) := by decide
/-- V2, column mid. -/
theorem test_inv :
    etdAfter (.inv 0 59) (etdAt true 5 22) = some (false, 6, 44, []) := by decide
/-- V2, the fortieth position: no DONE. -/
theorem test_inv_fortieth :
    etdAfter (.inv 0 150) (etdAt true 39 0x014540A42A) = some (false, 40, 0x028A814854, []) := by decide
/-- V3 row 14, both limits met. -/
theorem test_done_emits :
    etdAfter (.done 0) (etdAt true 40 0x044C81F4C5)
      = some (false, 40, 0x044C81F4C5, [.reading 0 (BitVec.ofInt 16 (-500)) 1100]) := by decide
/-- V3 row 6: 110.1 %. -/
theorem test_done_rejects :
    etdAfter (.done 0) (etdAt true 40 0x044D000051) = some (false, 40, 0x044D000051, []) := by decide
/-- P3 step 8. -/
theorem test_pulse :
    (after (.pulse 0 1000001) (plsAt 7)).map (fun t => (t.pls 0, t.outputs))
      = some (⟨7, true⟩, [.pulseUnit 0]) := by decide
/-- P3 step 6. -/
theorem test_debounce :
    (after (.debounce 0 true 1000000) (plsAt 7)).map State.outputs = some [] := by decide
/-- V7: the line trims to `/ISK5`, a start line. -/
theorem test_byteEol :
    (after (.byteEol 0) (telAt false [0x20, 0x20, 0x2F, 0x49, 0x53, 0x4B, 0x35, 0x20, 0x20, 0x0D])).map
      (fun t => ((t.tel 0).lineBuf, (t.tel 0).reading, (t.tel 0).packet.header)) = some ([], true, [0x49, 0x53, 0x4B, 0x35]) := by decide
/-- V7: an empty line outside a frame. -/
theorem test_byteEol_skip :
    (after (.byteEol 0) (telAt false [0x0D])).map (fun t => ((t.tel 0).lineBuf, (t.tel 0).reading))
      = some ([], false) := by decide
/-- R130. -/
theorem test_byteData :
    (after (.byteData 0 0x41) (telAt true [0x31])).map (fun t => (t.tel 0).lineBuf) = some [0x31, 0x41] := by decide
/-- V6: `/X` gives a `rawFrame` of four bytes. -/
theorem test_lineStart :
    (after (.lineStart 0 [0x58]) (telAt false [])).map
      (fun t => ((t.tel 0).reading, (t.tel 0).rawFrame, (t.tel 0).packet.header))
      = some (true, [0x2F, 0x58, 0x0D, 0x0A], [0x58]) := by decide
/-- R136. -/
theorem test_lineSkip :
    telAfter (.lineSkip 0 [0x78]) (telAt false []) = some (false, zeroPacket [0x58], []) := by decide
/-- V6: after `/X` the checksum is DD91; either case of a digit (V10). -/
theorem test_lineEnd_packet :
    telAfter (.lineEnd 0 [0x64, 0x44, 0x39, 0x31]) (telAt true []) = some (false, zeroPacket [0x58], [.packet 0 (zeroPacket [0x58])]) := by decide +kernel
/-- V10: a value above 0xFFFF is not truncated. -/
theorem test_lineEnd_mismatch :
    telAfter (.lineEnd 0 [0x31, 0x44, 0x44, 0x39, 0x31]) (telAt true [])
      = some (false, zeroPacket [0x58], [.error 0 .checksumMismatch [0x21, 0x31, 0x44, 0x44, 0x39, 0x31] 0xDD91]) := by decide +kernel
/-- V6, fifth row: a `/` line inside a frame is content. -/
theorem test_lineContent :
    (after (.lineContent 0 [0x2F, 0x42]) (telAt true [])).map (fun t => (t.tel 0).rawFrame)
      = some [0x2F, 0x58, 0x0D, 0x0A, 0x2F, 0x42, 0x0D, 0x0A] := by decide
/-- V9: `0-0:96.14.0(2.0)`. -/
theorem test_lineContent_abort :
    telAfter (.lineContent 0 [0x30, 0x2D, 0x30, 0x3A, 0x39, 0x36, 0x2E, 0x31, 0x34, 0x2E, 0x30, 0x28, 0x32, 0x2E, 0x30, 0x29]) (telAt true [])
      = some (false, zeroPacket [0x58], [.error 0 .fieldTariff [0x30, 0x2D, 0x30, 0x3A, 0x39, 0x36, 0x2E, 0x31, 0x34, 0x2E, 0x30, 0x28, 0x32, 0x2E, 0x30, 0x29] 0]) := by decide
/-- R135. -/
theorem test_lineNomatch :
    telAfter (.lineNomatch 0 [0x41]) (telAt true []) = some (true, zeroPacket [0x58], []) := by decide
/-- V9: `0-0:96.1.1(any *text* 123)`. -/
theorem test_fieldEid :
    telAfter (.fieldEid 0 [0x61, 0x6E, 0x79, 0x20, 0x2A, 0x74, 0x65, 0x78, 0x74, 0x2A, 0x20, 0x31, 0x32, 0x33] []) (telAt true [])
      = some (true, { zeroPacket [0x58] with eid := [0x61, 0x6E, 0x79, 0x20, 0x2A, 0x74, 0x65, 0x78, 0x74, 0x2A, 0x20, 0x31, 0x32, 0x33] }, []) := by decide
/-- V9: the largest value stored. -/
theorem test_fieldTariff :
    telAfter (.fieldTariff 0 [0x39, 0x32, 0x32, 0x33, 0x33, 0x37, 0x32, 0x30, 0x33, 0x36, 0x38, 0x35, 0x34, 0x37, 0x37, 0x35, 0x38, 0x30, 0x37] []) (telAt true [])
      = some (true, { zeroPacket [0x58] with tariff := 9223372036854775807 }, []) := by decide
/-- V9: 2^63 is refused. -/
theorem test_fieldTariff_limit :
    telAfter (.fieldTariff 0 [0x39, 0x32, 0x32, 0x33, 0x33, 0x37, 0x32, 0x30, 0x33, 0x36, 0x38, 0x35, 0x34, 0x37, 0x37, 0x35, 0x38, 0x30, 0x38] []) (telAt true [])
      = some (false, zeroPacket [0x58], [.error 0 .fieldTariff [0x30, 0x2D, 0x30, 0x3A, 0x39, 0x36, 0x2E, 0x31, 0x34, 0x2E, 0x30, 0x28, 0x39, 0x32, 0x32, 0x33, 0x33, 0x37, 0x32, 0x30, 0x33, 0x36, 0x38, 0x35, 0x34, 0x37, 0x37, 0x35, 0x38, 0x30, 0x38, 0x29] 0]) := by decide
/-- V9: `1-0:1.8.1(0.0019*kWh)`. -/
theorem test_fieldLow :
    telAfter (.fieldLow 0 [0x30, 0x2E, 0x30, 0x30, 0x31, 0x39, 0x2A, 0x6B, 0x57, 0x68] []) (telAt true [])
      = some (true, { zeroPacket [0x58] with lowConsumedWh := 1 }, []) := by decide
/-- V9: `1-0:1.8.1(.5*kWh)`. -/
theorem test_fieldLow_abort :
    telAfter (.fieldLow 0 [0x2E, 0x35, 0x2A, 0x6B, 0x57, 0x68] []) (telAt true [])
      = some (false, zeroPacket [0x58], [.error 0 .fieldKwh [0x31, 0x2D, 0x30, 0x3A, 0x31, 0x2E, 0x38, 0x2E, 0x31, 0x28, 0x2E, 0x35, 0x2A, 0x6B, 0x57, 0x68, 0x29] 0]) := by decide
/-- V9: `1-0:1.8.2(000042.100*kWh)`. -/
theorem test_fieldHigh :
    telAfter (.fieldHigh 0 [0x30, 0x30, 0x30, 0x30, 0x34, 0x32, 0x2E, 0x31, 0x30, 0x30, 0x2A, 0x6B, 0x57, 0x68] []) (telAt true [])
      = some (true, { zeroPacket [0x58] with highConsumedWh := 42100 }, []) := by decide
/-- V9: `1-0:1.8.2(x)`. -/
theorem test_fieldHigh_abort :
    telAfter (.fieldHigh 0 [0x78] []) (telAt true [])
      = some (false, zeroPacket [0x58], [.error 0 .fieldKwh [0x31, 0x2D, 0x30, 0x3A, 0x31, 0x2E, 0x38, 0x2E, 0x32, 0x28, 0x78, 0x29] 0]) := by decide
/-- V9: `1-0:1.7.0(00.123*kWh)(ignored)`. -/
theorem test_fieldCurrent :
    telAfter (.fieldCurrent 0 [0x30, 0x30, 0x2E, 0x31, 0x32, 0x33, 0x2A, 0x6B, 0x57, 0x68] [[0x69, 0x67, 0x6E, 0x6F, 0x72, 0x65, 0x64]]) (telAt true [])
      = some (true, { zeroPacket [0x58] with currentConsumedWh := 123 }, []) := by decide
/-- V9: `1-0:1.7.0(0.500*kW)`. -/
theorem test_fieldCurrent_abort :
    telAfter (.fieldCurrent 0 [0x30, 0x2E, 0x35, 0x30, 0x30, 0x2A, 0x6B, 0x57] []) (telAt true [])
      = some (false, zeroPacket [0x58], [.error 0 .fieldKwh [0x31, 0x2D, 0x30, 0x3A, 0x31, 0x2E, 0x37, 0x2E, 0x30, 0x28, 0x30, 0x2E, 0x35, 0x30, 0x30, 0x2A, 0x6B, 0x57, 0x29] 0]) := by decide
/-- V9: `1-1:24.2.1(00123.456*m3)`. -/
theorem test_fieldGas1 :
    telAfter (.fieldGas1 0 [0x30, 0x30, 0x31, 0x32, 0x33, 0x2E, 0x34, 0x35, 0x36, 0x2A, 0x6D, 0x33] []) (telAt true [])
      = some (true, { zeroPacket [0x58] with gasConsumedL := 123 }, []) := by decide
/-- V9: only the first group is read, and the error line is whole. -/
theorem test_fieldGas1_abort :
    telAfter (.fieldGas1 0 [0x31, 0x30, 0x31, 0x32, 0x30, 0x39, 0x31, 0x31, 0x32, 0x35, 0x30, 0x30, 0x57] [[0x31, 0x32, 0x37, 0x38, 0x35, 0x2E, 0x31, 0x32, 0x33, 0x2A, 0x6D, 0x33]]) (telAt true [])
      = some (false, zeroPacket [0x58], [.error 0 .fieldM3 [0x31, 0x2D, 0x31, 0x3A, 0x32, 0x34, 0x2E, 0x32, 0x2E, 0x31, 0x28, 0x31, 0x30, 0x31, 0x32, 0x30, 0x39, 0x31, 0x31, 0x32, 0x35, 0x30, 0x30, 0x57, 0x29, 0x28, 0x31, 0x32, 0x37, 0x38, 0x35, 0x2E, 0x31, 0x32, 0x33, 0x2A, 0x6D, 0x33, 0x29] 0]) := by decide
/-- V9: `1-2:24.2.1(12785.123*m3)`. -/
theorem test_fieldGas2 :
    telAfter (.fieldGas2 0 [0x31, 0x32, 0x37, 0x38, 0x35, 0x2E, 0x31, 0x32, 0x33, 0x2A, 0x6D, 0x33] []) (telAt true [])
      = some (true, { zeroPacket [0x58] with gasConsumedL := 12785 }, []) := by decide
/-- V9: `1-3:24.2.1(0.999*m3)`. -/
theorem test_fieldGas3 :
    telAfter (.fieldGas3 0 [0x30, 0x2E, 0x39, 0x39, 0x39, 0x2A, 0x6D, 0x33] []) (telAt true [])
      = some (true, { zeroPacket [0x58] with gasConsumedL := 0 }, []) := by decide
/-- V9: `1-4:24.2.1(7.*m3)`. -/
theorem test_fieldGas4 :
    telAfter (.fieldGas4 0 [0x37, 0x2E, 0x2A, 0x6D, 0x33] []) (telAt true [])
      = some (true, { zeroPacket [0x58] with gasConsumedL := 7 }, []) := by decide
/-- V9: `1-5:24.2.1(1.0*m3)`. -/
theorem test_fieldOther :
    telAfter (.fieldOther 0 [0x31, 0x2D, 0x35, 0x3A, 0x32, 0x34, 0x2E, 0x32, 0x2E, 0x31] [0x31, 0x2E, 0x30, 0x2A, 0x6D, 0x33] []) (telAt true [])
      = some (true, zeroPacket [0x58], []) := by decide
/-- V5: `crc16("!")`. -/
theorem test_crcByte :
    (after (.crcByte 0 0x21) State.reset).map (fun t => (t.tel 0).crc) = some 0x18C0 := by decide
/-- V5: `T[0xFF]`. -/
theorem test_crcByte_ones :
    (after (.crcByte 0 0xFF) State.reset).map (fun t => (t.tel 0).crc) = some 0x4040 := by decide
/-- V5: `crc16("123456789")`. -/
theorem test_crc_check_value :
    crc16 [0x31, 0x32, 0x33, 0x34, 0x35, 0x36, 0x37, 0x38, 0x39] = 0xBB3D := by decide +kernel
/-- V5: the unreflected form. -/
theorem test_crc_unreflected :
    crc16Unreflected [0x2F, 0x0D, 0x0A, 0x21] = 0xAF5F := by decide +kernel
/-- R180, R29; P6. -/
theorem test_reset :
    (after (.reset (.tel 0)) (telAt true [0x31])).map (fun t => t.tel 0)
      = some ⟨[], false, [], zeroPacket [], 0⟩ := by decide
/-- R188, R29. -/
theorem test_cancel :
    (after (.cancel (.etd 0)) (etdAt true 7 5)).map (fun t => t.etd 0) = some ⟨0, false, false, 0, 0xFE⟩ := by decide
/-- V1. -/
theorem test_interval_wrap :
    interval 0xFFFFFF00 0x00000010 = 272 := by decide
/-- R190: the codes are 1 to 5, in the table's order. -/
theorem test_error_codes :
    [ErrorCode.checksumMismatch, .checksumParse, .fieldTariff, .fieldKwh, .fieldM3].map ErrorCode.bits
      = [1, 2, 3, 4, 5] := by decide

/-- V9's note, C8: IEEE binary64 would give 1000. -/
theorem test_binary64_mode :
    kwhOperand .binary64 [0x31, 0x2E, 0x30, 0x30, 0x31, 0x2A, 0x6B, 0x57, 0x68] = some 1000 := by decide

/-! ## Witnesses: each statement's hypotheses are met together, at the ends of their ranges -/

theorem witness_EdgeFirstPrimesClock :
    (State.reset.etd 0).prevValid = false ∧ (State.reset.pls 0).prevValid = false := by decide
theorem witness_EdgeNextPerformsIntervalClass :
    ((etdAt false 0xFE 0).etd 0).prevValid = true ∧ ((plsAt 7).pls 0).prevValid = true := by decide
theorem witness_IntervalClassTable :
    (-2 ≤ (0xFE : BitVec 8).toInt ∧ (0xFE : BitVec 8).toInt ≤ 39) ∧ (-2 ≤ (39 : BitVec 8).toInt ∧ (39 : BitVec 8).toInt ≤ 39) ∧
    decodeIvl 0 true 39 10001 = .sync 0 10001 ∧ decodeIvl 0 false 0xFE 10000 = .idle 0 10000 ∧
    decodeIvl 0 true 0xFE 10000 = .pre 0 10000 ∧ decodeIvl 0 true 0xFF 0 = .pre 0 0 ∧
    decodeIvl 0 true 0 60 = .bit0 0 60 ∧ decodeIvl 0 true 39 100 = .bit0 0 100 ∧
    decodeIvl 0 true 0 101 = .bit1 0 101 ∧ decodeIvl 0 true 39 149 = .bit1 0 149 ∧
    decodeIvl 0 true 0 59 = .inv 0 59 ∧ decodeIvl 0 true 0 150 = .inv 0 150 ∧ decodeIvl 0 true 39 10000 = .inv 0 10000 := by decide
theorem witness_SyncStartsFrame :
    10000 < (10001 : Tick).toNat ∧ 10000 < (0xFFFFFFFF : Tick).toNat := by decide
theorem witness_IdleIgnoresInterval :
    (10000 : Tick).toNat ≤ 10000 ∧ (State.reset.etd 0).inCode = false := by decide
theorem witness_PreambleIntervalIsCounted :
    (10000 : Tick).toNat ≤ 10000 ∧
    (((etdAt true 0xFE 0).etd 0).inCode = true ∧ ((etdAt true 0xFE 0).etd 0).bitsSeen.toInt = -2) ∧
    (((etdAt true 0xFF 0).etd 0).inCode = true ∧ ((etdAt true 0xFF 0).etd 0).bitsSeen.toInt = -1) := by decide
theorem witness_BitZeroShiftsIn :
    (((etdAt true 0 0).etd 0).inCode = true ∧ ((etdAt true 0 0).etd 0).bitsSeen.toInt = (0 : Nat)) ∧
    (((etdAt true 38 0).etd 0).inCode = true ∧ ((etdAt true 38 0).etd 0).bitsSeen.toInt = (38 : Nat) ∧ 38 + 1 < 40) ∧
    (((etdAt true 39 0).etd 0).inCode = true ∧ ((etdAt true 39 0).etd 0).bitsSeen.toInt = (39 : Nat) ∧ 39 + 1 = 40) ∧
    60 ≤ (60 : Tick).toNat ∧ (60 : Tick).toNat ≤ 100 ∧ 60 ≤ (100 : Tick).toNat ∧ (100 : Tick).toNat ≤ 100 := by decide
theorem witness_BitOneShiftsIn :
    (((etdAt true 0 0).etd 0).inCode = true ∧ ((etdAt true 0 0).etd 0).bitsSeen.toInt = (0 : Nat)) ∧
    (((etdAt true 38 0).etd 0).inCode = true ∧ ((etdAt true 38 0).etd 0).bitsSeen.toInt = (38 : Nat) ∧ 38 + 1 < 40) ∧
    (((etdAt true 39 0).etd 0).inCode = true ∧ ((etdAt true 39 0).etd 0).bitsSeen.toInt = (39 : Nat) ∧ 39 + 1 = 40) ∧
    100 < (101 : Tick).toNat ∧ (101 : Tick).toNat < 150 ∧ 100 < (149 : Tick).toNat ∧ (149 : Tick).toNat < 150 := by decide
theorem witness_InvalidIntervalAbandonsFrame :
    (((etdAt true 0 0).etd 0).inCode = true ∧ ((etdAt true 0 0).etd 0).bitsSeen.toInt = (0 : Nat)) ∧
    (((etdAt true 38 0).etd 0).inCode = true ∧ ((etdAt true 38 0).etd 0).bitsSeen.toInt = (38 : Nat) ∧ 38 + 1 < 40) ∧
    (((etdAt true 39 0).etd 0).inCode = true ∧ ((etdAt true 39 0).etd 0).bitsSeen.toInt = (39 : Nat) ∧ 39 + 1 = 40) ∧
    (0 : Tick).toNat ≤ 59 ∧ (59 : Tick).toNat ≤ 59 ∧ (150 ≤ (150 : Tick).toNat ∧ (150 : Tick).toNat ≤ 10000) ∧
    (150 ≤ (10000 : Tick).toNat ∧ (10000 : Tick).toNat ≤ 10000) := by decide
theorem witness_DoneValidatesFrame :
    ((etdAt true 40 0x028A814855).etd 0).inCode = true ∧ ((etdAt true 40 0x028A814855).etd 0).bitsSeen = 40 := by decide
theorem witness_TaggedFormFollowsRegisters :
    ((etdAt true 39 0).etd 0).Inv ∧
    ∃ t, exec (.edgeNext (.etd 0) true 60) (etdAt true 39 0) = .next t := ⟨by unfold Etd.Inv; decide, _, rfl⟩
/-- The frame of S4 as events, with the levels alternating. -/
def frameEvents : List (Tick × Bool) :=
  (sframeIvls [0x02, 0x8A, 0x81, 0x48, 0x55]).zip ((List.range 43).map fun k => k % 2 == 0)
/-- The bits of S4's corrected frame, 0x028A814855, most significant first. -/
def frameBitList : List Bool := (List.range 40).map fun k => (0x028A814855 : BitVec 40).getMsbD k
/-- The intervals of those bits. -/
def frameData : List Tick := frameBitList.map bitIvl
theorem witness_SensorFrameYieldsVerdict :
    ((etdAt false 0xFE 0).etd 0).prevValid = true ∧ 10000 < (12000 : Tick).toNat ∧ (80 : Tick).toNat ≤ 10000 ∧
    frameBitList.length = 40 ∧
    List.Forall₂ (fun (b : Bool) (ivl : Tick) =>
      if b = true then 101 ≤ ivl.toNat ∧ ivl.toNat ≤ 149 else 60 ≤ ivl.toNat ∧ ivl.toNat ≤ 100) frameBitList frameData ∧
    frameEvents.map Prod.fst = 12000 :: 80 :: 80 :: frameData ∧
    (given (etdAt false 0xFE 0) (ivlEvents (.etd 0) 0 frameEvents)).inputs
      = ivlEvents (.etd 0) ((etdAt false 0xFE 0).etd 0).prev frameEvents ++ [] := by
  refine ⟨by decide, by decide, by decide, by decide, ?_, by decide, by simp [given, etdAt]⟩
  rw [show frameData = frameBitList.map bitIvl from rfl, List.forall₂_map_right_iff, List.forall₂_same]
  intro b _
  cases b <;> decide
theorem witness_PulseEmitsOneUnit :
    1000000 < (1000001 : Tick).toNat ∧ 1000000 < (0xFFFFFFFF : Tick).toNat := by decide
theorem witness_DebounceHasNoEffect :
    (false = false ∨ (1000001 : Tick).toNat ≤ 1000000) ∧ (true = false ∨ (1000000 : Tick).toNat ≤ 1000000) := by decide
theorem witness_GlitchResetsReference :
    ((plsAt 0).pls 0).prevValid = true ∧ (interval 0xFFFFFFFF 999999).toNat ≤ 1000000 ∧
    (given (plsAt 0) [.edge (.pls 0) (ev33 false 0xFFFFFFFF), .edge (.pls 0) (ev33 true 999999)]).inputs
      = .edge (.pls 0) (ev33 false 0xFFFFFFFF) :: .edge (.pls 0) (ev33 true 999999) :: [] := by decide
theorem witness_ByteDataAppends :
    (0x09 : Byte) ≠ 0x0A ∧ (0x0B : Byte) ≠ 0x0A ∧ (0xFF : Byte) ≠ 0x0A := by decide
theorem witness_LineStartOpensFrame :
    ((telAt false []).tel 0).reading = false := by decide
theorem witness_LineSkipHasNoEffect :
    ((telAt false []).tel 0).reading = false ∧ ([] : Bytes).head? ≠ some 0x2F ∧ ([0x21] : Bytes).head? ≠ some 0x2F := by decide
theorem witness_LineEndChecksChecksum :
    ((telAt true []).tel 0).reading = true ∧ checksumOperand [] = none ∧
    (checksumOperand [0x44, 0x44, 0x39, 0x31] = some 0xDD91 ∧ 0xDD91 = (crc16 (((telAt true []).tel 0).rawFrame ++ [0x21])).toNat) ∧
    (checksumOperand [0x30] = some 0 ∧ 0 ≠ (crc16 (((telAt true []).tel 0).rawFrame ++ [0x21])).toNat) := by decide +kernel
theorem witness_LineContentAppendsThenParses :
    ((telAt true []).tel 0).reading = true ∧ ([] : Bytes).head? ≠ some 0x21 ∧ ([0x2F] : Bytes).head? ≠ some 0x21 := by decide
theorem witness_UnparsedLinesHaveNoEffect :
    ((telAt true []).tel 0).reading = true ∧ parseField [] = none ∧ fieldKind [0x31] = .other := by decide
theorem witness_FieldEidStoresString :
    ((telAt true []).tel 0).reading = true := by decide
theorem witness_FieldTariffStoresOrAborts :
    ((telAt true []).tel 0).reading = true ∧ tariffOperand [0x39, 0x32, 0x32, 0x33, 0x33, 0x37, 0x32, 0x30, 0x33, 0x36, 0x38, 0x35, 0x34, 0x37, 0x37, 0x35, 0x38, 0x30, 0x37] = some (2 ^ 63 - 1) ∧
    tariffOperand [0x39, 0x32, 0x32, 0x33, 0x33, 0x37, 0x32, 0x30, 0x33, 0x36, 0x38, 0x35, 0x34, 0x37, 0x37, 0x35, 0x38, 0x30, 0x38] = none := by decide
theorem witness_FieldKwhStoresOrAborts :
    ((telAt true []).tel 0).reading = true ∧
    kwhOperand .exactDecimal [0x39, 0x32, 0x32, 0x33, 0x33, 0x37, 0x32, 0x30, 0x33, 0x36, 0x38, 0x35, 0x34, 0x37, 0x37, 0x35, 0x2E, 0x38, 0x30, 0x37, 0x2A, 0x6B, 0x57, 0x68] = some (2 ^ 63 - 1) ∧
    kwhOperand .exactDecimal [0x39, 0x32, 0x32, 0x33, 0x33, 0x37, 0x32, 0x30, 0x33, 0x36, 0x38, 0x35, 0x34, 0x37, 0x37, 0x35, 0x2E, 0x38, 0x30, 0x38, 0x2A, 0x6B, 0x57, 0x68] = none := by decide
theorem witness_FieldGasStoresOrAborts :
    ((telAt true []).tel 0).reading = true ∧ m3Operand [0x39, 0x32, 0x32, 0x33, 0x33, 0x37, 0x32, 0x30, 0x33, 0x36, 0x38, 0x35, 0x34, 0x37, 0x37, 0x35, 0x38, 0x30, 0x37, 0x2E, 0x39, 0x2A, 0x6D, 0x33] = some (2 ^ 63 - 1) ∧
    m3Operand [0x39, 0x32, 0x32, 0x33, 0x33, 0x37, 0x32, 0x30, 0x33, 0x36, 0x38, 0x35, 0x34, 0x37, 0x37, 0x35, 0x38, 0x30, 0x38, 0x2A, 0x6D, 0x33] = none := by decide
theorem witness_StepRunsDecodedOperation :
    (given State.reset [.byte 0 0x41]).inputs = .byte 0 0x41 :: [] ∧
    decode (Transaction.byte 0 0x41).port ((given State.reset [.byte 0 0x41]).control (.byte 0))
      (Transaction.byte 0 0x41).bytes = .ok (.byteData 0 0x41) ∧ State.reset.inputs = [] := by decide
/-- Every operation is selected somewhere, first half of the table. -/
theorem witness_SelectedOperationsComplete :
    [(Instr.edgeFirst (.etd 0) true 5, State.reset),
     (Instr.edgeFirst (.pls 0) false 5, State.reset),
     (Instr.edgeNext (.etd 0) true 5, etdAt false 0xFE 0),
     (Instr.edgeNext (.pls 0) true 5, plsAt 7),
     (Instr.sync 0 10001, State.reset),
     (Instr.idle 0 10000, State.reset),
     (Instr.pre 0 0, etdAt true 0xFF 0),
     (Instr.bit0 0 60, etdAt true 0 0),
     (Instr.bit1 0 149, etdAt true 39 0),
     (Instr.inv 0 150, etdAt true 39 0),
     (Instr.done 0, etdAt true 40 0),
     (Instr.pulse 0 1000001, State.reset),
     (Instr.debounce 0 true 1000000, State.reset),
     (Instr.byteEol 0, State.reset),
     (Instr.byteData 0 0x0D, State.reset),
     (Instr.lineStart 0 [], telAt false [])].all
      (fun x => x.1.wf && x.1.selectedIn (x.2.control x.1.port)) = true := by decide
/-- Every operation is selected somewhere, second half of the table. -/
theorem witness_SelectedOperationsComplete_2 :
    [(Instr.lineSkip 0 [], telAt false []),
     (Instr.lineEnd 0 [], telAt true []),
     (Instr.lineContent 0 [], telAt true []),
     (Instr.lineNomatch 0 [], telAt true []),
     (Instr.fieldEid 0 [] [], telAt true []),
     (Instr.fieldTariff 0 [] [], telAt true []),
     (Instr.fieldLow 0 [] [], telAt true []),
     (Instr.fieldHigh 0 [] [], telAt true []),
     (Instr.fieldCurrent 0 [] [], telAt true []),
     (Instr.fieldGas1 0 [] [], telAt true []),
     (Instr.fieldGas2 0 [] [], telAt true []),
     (Instr.fieldGas3 0 [] [], telAt true []),
     (Instr.fieldGas4 0 [] [], telAt true []),
     (Instr.fieldOther 0 [0x31] [] [], telAt true []),
     (Instr.crcByte 0 0, State.reset),
     (Instr.reset (.etd 0), State.reset),
     (Instr.cancel (.pls 3), State.reset)].all
      (fun x => x.1.wf && x.1.selectedIn (x.2.control x.1.port)) = true := by decide
theorem witness_UnselectedOperationsAreRefused :
    (Instr.done 0).selectedIn (State.reset.control (.done 0)) = false ∧
    (Instr.lineEnd 0 []).selectedIn (State.reset.control (.line 0)) = false := by decide
theorem reset_inv : State.reset.Inv := by
  refine ⟨by decide, fun n => ?_, fun n => ?_, by simp [State.reset]⟩
  · rw [etd_reset]; unfold Etd.Inv; decide
  · rw [tel_reset]
    exact ⟨by decide, rfl, by unfold Packet.Inv; decide, by simp [Tel.reset]⟩
/-- The invariant does not look at the pending inputs. -/
theorem given_inv {s : State} (h : s.Inv) (xs : List Transaction) : (given s xs).Inv := h
theorem witness_StepKeepsInvariant :
    ∃ s t : State, s.Inv ∧ step s = .next t ∧ s.inputs ≠ [] ∧ (t.tel 0).lineBuf = [0x41] :=
  ⟨given State.reset [.byte 0 0x41], _, given_inv reset_inv _, rfl, by decide, rfl⟩
theorem witness_AtMostOneOutputPerStep :
    ∃ t, step (given (plsAt 0) [.edge (.pls 0) (ev33 true 1000001)]) = .next t ∧ t.outputs = [.pulseUnit 0] := ⟨_, rfl, by decide⟩
theorem witness_OtherUnitsAreUnchanged :
    (∃ t, exec (.edgeFirst (.etd 0) true 5) State.reset = .next t) ∧ UnitRef.pls 0 ≠ (Instr.edgeFirst (.etd 0) true 5).unit ∧
    (∃ t, step (given State.reset [.byte 0 0x41]) = .next t) ∧ UnitRef.tel 1 ≠ (Transaction.byte 0 0x41).port.unit := ⟨⟨_, rfl⟩, by decide, ⟨_, rfl⟩, by decide⟩
theorem witness_UnitStepDependsOnUnitAlone :
    (given (plsAt 7) [.byte 0 0x41]).AgreeOn (given State.reset [.byte 0 0x41, .byte 0 0x42]) (Transaction.byte 0 0x41).port.unit ∧
    (∃ t, step (given (plsAt 7) [.byte 0 0x41]) = .next t) ∧
    ∃ t, step (given State.reset [.byte 0 0x41, .byte 0 0x42]) = .next t := ⟨rfl, ⟨_, rfl⟩, ⟨_, rfl⟩⟩
theorem witness_DeadStateIsUnobservable :
    (given (etdAt false 9 5) [.edge (.etd 0) (ev33 true 12000)]).LiveEq
      (given (etdAt false 0xFE 0) [.edge (.etd 0) (ev33 true 12000)]) ∧ etdAt false 9 5 ≠ etdAt false 0xFE 0 ∧
    ∃ t, step (given (etdAt false 9 5) [.edge (.etd 0) (ev33 true 12000)]) = .next t := by
  refine ⟨⟨fun n => ?_, fun n => rfl, fun n => rfl, rfl⟩, by decide, _, rfl⟩
  cases n with
  | zero => decide
  | succ n => cases n <;> rfl
theorem witness_PacketOnlyAfterChecksumMatch :
    ∃ t, step (given (telAt true [0x21, 0x44, 0x44, 0x39, 0x31, 0x0D]) [.byte 0 0x0A]) = .next t ∧
      t.outputs = (given (telAt true [0x21, 0x44, 0x44, 0x39, 0x31, 0x0D]) [.byte 0 0x0A]).outputs
        ++ [.packet 0 (zeroPacket [0x58])] := by
  obtain ⟨t, ht, st⟩ := step_tel (s := given (telAt true [0x21, 0x44, 0x44, 0x39, 0x31, 0x0D]) [.byte 0 0x0A]) rfl
  refine ⟨t, ht, st.outputs.trans (congrArg _ ?_)⟩
  decide +kernel
theorem witness_ErrorEndsFramePrecisely :
    (∃ t, step (given (telAt true [0x21]) [.byte 0 0x0A]) = .next t ∧
      t.outputs = (given (telAt true [0x21]) [.byte 0 0x0A]).outputs ++ [.error 0 .checksumParse [0x21] 0]) ∧
    ∃ t, step (given (telAt true [0x31, 0x2D, 0x30, 0x3A, 0x31, 0x2E, 0x38, 0x2E, 0x32, 0x28, 0x78, 0x29]) [.byte 0 0x0A]) = .next t ∧
      t.outputs = (given (telAt true []) [.byte 0 0x0A]).outputs ++ [.error 0 .fieldKwh [0x31, 0x2D, 0x30, 0x3A, 0x31, 0x2E, 0x38, 0x2E, 0x32, 0x28, 0x78, 0x29] 0] := ⟨⟨_, rfl, by decide⟩, _, rfl, by decide⟩
/-- The state after one step. -/
def stepped (s : State) : State :=
  match step s with
  | .next t => t
  | .fault _ => s
  | .refused _ => s
theorem witness_FlagsHaveListedWriters :
    ((stepped (given State.reset [.edge (.etd 0) 0])).etd 0).prevValid = true ∧
    ((stepped (given (etdAt true 5 0) [.reset (.etd 0)])).etd 0).prevValid = false ∧
    ((stepped (given State.reset [.edge (.pls 0) 0])).pls 0).prevValid = true ∧
    ((stepped (given (plsAt 0) [.cancel (.pls 0)])).pls 0).prevValid = false ∧
    ((stepped (given (etdAt false 5 0) [.edge (.etd 0) 10001])).etd 0).inCode = true ∧
    ((stepped (given (etdAt true 5 0) [.edge (.etd 0) 59])).etd 0).inCode = false ∧
    ((stepped (given (etdAt true 39 0) [.edge (.etd 0) 60])).etd 0).inCode = false ∧
    ((stepped (given (telAt false [0x2F]) [.byte 0 0x0A])).tel 0).reading = true ∧
    ((stepped (given (telAt true [0x21]) [.byte 0 0x0A])).tel 0).reading = false ∧
    ((stepped (given (telAt true [0x31, 0x2D, 0x30, 0x3A, 0x31, 0x2E, 0x38, 0x2E, 0x32, 0x28, 0x78, 0x29]) [.byte 0 0x0A])).tel 0).reading = false := by decide
theorem witness_SilentRejectionsEmitNothing :
    (etdAt true 39 0).silentRejection (.inv 0 59) = some .invalidBit ∧
    (∃ t, exec (.inv 0 59) (etdAt true 39 0) = .next t) ∧
    (etdAt true 40 0x044D000051).silentRejection (.done 0) = some .humidityRange ∧
    ∃ t, exec (.done 0) (etdAt true 40 0x044D000051) = .next t := ⟨by decide, ⟨_, rfl⟩, by decide, _, rfl⟩
/-- An empty line and `0-0:96.14.0(0)`. -/
def telegramLines : List Bytes :=
  [[], [0x30, 0x2D, 0x30, 0x3A, 0x39, 0x36, 0x2E, 0x31, 0x34, 0x2E, 0x30, 0x28, 0x30, 0x29]]
/-- The start line `/X` and those lines. -/
def telegramText : List Bytes := [0x2F, 0x58] :: telegramLines
/-- The transactions of that text and its end line. -/
def telegramEvents : List Transaction :=
  (telegramText ++ [0x21 :: hex4 (crc16 (frameText telegramText ++ [0x21]))]).flatMap (lineEvents 0)
theorem witness_TelegramRoundTrip :
    let s := given State.reset telegramEvents
    (s.tel 0).reading = false ∧ (s.tel 0).lineBuf = [] ∧
    (∀ l ∈ telegramText, trim l = l ∧ (0x0A : Byte) ∉ l) ∧
    (∀ l ∈ telegramLines, l.head? ≠ some 0x21 ∧ lineRaises l = false) ∧
    s.inputs = telegramEvents ++ [] :=
  ⟨by decide, by decide, by decide, by decide, (List.append_nil _).symm⟩

end Sys2Proof.Tests
end

section
/-! PROOFS. The ETD unit's step, interval class by interval class, and the tagged form of its control state (R17). -/

namespace Sys2Proof.Machine

/-! ## What an interval does to an ETD unit (R100 to R107) -/

/-- The unit after a data bit, before the completion test (R104, R105). -/
def Etd.shiftIn (e : Etd) (b : Bool) : Etd :=
  if b = true then e.countInterval.shiftCode.addOne else e.countInterval.shiftCode

/-- The class of a data bit. -/
def bitClass (b : Bool) : IvlClass := if b = true then .bit1 else .bit0

section
variable (e : Etd) (b : Bool)
@[simp] theorem shiftIn_prev : (e.shiftIn b).prev = e.prev := by cases b <;> rfl
@[simp] theorem shiftIn_prevValid : (e.shiftIn b).prevValid = e.prevValid := by cases b <;> rfl
@[simp] theorem shiftIn_inCode : (e.shiftIn b).inCode = e.inCode := by cases b <;> rfl
@[simp] theorem shiftIn_bitsSeen : (e.shiftIn b).bitsSeen = e.bitsSeen + 1 := by cases b <;> rfl
@[simp] theorem finish_prev : e.finish.prev = e.prev := by unfold Etd.finish; split_ifs <;> rfl
@[simp] theorem finish_prevValid : e.finish.prevValid = e.prevValid := by unfold Etd.finish; split_ifs <;> rfl
@[simp] theorem finish_code : e.finish.code = e.code := by unfold Etd.finish; split_ifs <;> rfl
@[simp] theorem finish_bitsSeen : e.finish.bitsSeen = e.bitsSeen := by unfold Etd.finish; split_ifs <;> rfl

/-- The fortieth bit ends the frame. -/
theorem finish_of_full {e : Etd} (on : e.inCode = true) (full : e.bitsSeen = 40) : e.finish = e.clearInCode :=
  if_pos ⟨on, full⟩

/-- No other bit does. -/
theorem finish_of_not_full {e : Etd} (part : e.bitsSeen ≠ 40) : e.finish = e := if_neg fun h => part h.2

end

/-- The six ways an ETD unit takes an interval, by the class of R65, with the range each class has; the two data bits
are one case. -/
inductive IvlEffect (n : Nat) (e : Etd) (ivl : Tick) : Prop
  | sync (range : 10000 < ivl.toNat) (after : e.afterIvl ivl = e.startFrame) (out : e.ivlOut n ivl = [])
  | idle (range : ivl.toNat ≤ 10000) (off : e.inCode = false) (after : e.afterIvl ivl = e) (out : e.ivlOut n ivl = [])
  | pre (range : ivl.toNat ≤ 10000) (on : e.inCode = true) (pos : (e.bitsSeen + 1).toInt < 1)
      (after : e.afterIvl ivl = e.countInterval) (out : e.ivlOut n ivl = [])
  | bit (b : Bool) (cls : Sys2Proof.ivlClass e.inCode e.bitsSeen ivl = bitClass b)
      (range : 60 ≤ ivl.toNat ∧ ivl.toNat < 150) (on : e.inCode = true) (pos : 1 ≤ (e.bitsSeen + 1).toInt)
      (after : e.afterIvl ivl = (e.shiftIn b).finish) (out : e.ivlOut n ivl = (e.shiftIn b).finishOut n)
  | inv (cls : Sys2Proof.ivlClass e.inCode e.bitsSeen ivl = .inv)
      (range : ivl.toNat < 60 ∨ 150 ≤ ivl.toNat ∧ ivl.toNat ≤ 10000) (on : e.inCode = true)
      (pos : 1 ≤ (e.bitsSeen + 1).toInt)
      (after : e.afterIvl ivl = e.countInterval.shiftCode.clearInCode) (out : e.ivlOut n ivl = [])

theorem ivlEffect (n : Nat) (e : Etd) (ivl : Tick) : IvlEffect n e ivl := by
  cases h : Sys2Proof.ivlClass e.inCode e.bitsSeen ivl with
  | sync => exact .sync ((ivlClass_sync_iff ..).1 h) (by simp only [Etd.afterIvl, h]) (by simp only [Etd.ivlOut, h])
  | idle =>
    obtain ⟨range, off⟩ := (ivlClass_idle_iff ..).1 h
    exact .idle range off (by simp only [Etd.afterIvl, h]) (by simp only [Etd.ivlOut, h])
  | pre =>
    obtain ⟨range, on, pos⟩ := (ivlClass_pre_iff ..).1 h
    exact .pre range on pos (by simp only [Etd.afterIvl, h]) (by simp only [Etd.ivlOut, h])
  | bit0 =>
    obtain ⟨on, pos, lo, hi⟩ := (ivlClass_bit0_iff ..).1 h
    exact .bit false h ⟨lo, by omega⟩ on pos (by simp [Etd.afterIvl, h, Etd.shiftIn])
      (by simp [Etd.ivlOut, h, Etd.shiftIn])
  | bit1 =>
    obtain ⟨on, pos, lo, hi⟩ := (ivlClass_bit1_iff ..).1 h
    exact .bit true h ⟨by omega, hi⟩ on pos (by simp [Etd.afterIvl, h, Etd.shiftIn])
      (by simp [Etd.ivlOut, h, Etd.shiftIn])
  | inv =>
    obtain ⟨on, pos, range⟩ := (ivlClass_inv_iff ..).1 h
    exact .inv h range on pos (by simp only [Etd.afterIvl, h]) (by simp only [Etd.ivlOut, h])

/-- Within the frame counting an interval adds one to the signed position. -/
theorem Etd.Inv.succ_bitsSeen {e : Etd} (h : e.Inv) (on : e.inCode = true) :
    (e.bitsSeen + 1).toInt = e.bitsSeen.toInt + 1 := by
  obtain ⟨-, -, h39, -⟩ := h
  have := (h39 on).1
  exact succ_toInt _ (by omega)

/-- EDGE.NEXT of an ETD unit: the clock is primed, and the unit takes the interval with `prev` at the new tick (R92). -/
theorem edgeNext_etd_steps {n : Nat} {level : Bool} {tick : Tick} {s t : State}
    (h : exec (.edgeNext (.etd n) level tick) s = .next t) :
    (s.etd n).prevValid = true ∧
      t.etd n = ({ s.etd n with prev := tick } : Etd).afterIvl (interval (s.etd n).prev tick) := by
  obtain ⟨valid, perform⟩ := whenSelected_next.1 h
  obtain ⟨t', next, st⟩ := performIvl_steps n (interval (s.etd n).prev tick)
    (s.setEtd n { s.etd n with prev := tick })
  rw [etd_setEtd_self] at st
  cases perform.symm.trans next
  exact ⟨valid, st.self⟩

/-! ## The tagged form (R17) -/

section Tag
variable {e : Etd}

theorem tag_of_off (off : e.inCode = false) : e.tag = .idle := by simp [Etd.tag, off]

theorem tag_of_on (on : e.inCode = true) :
    e.tag = if e.bitsSeen.toInt = -2 then .syncing false else if e.bitsSeen.toInt = -1 then .syncing true
      else .accumulating e.bitsSeen.toInt.toNat := by simp [Etd.tag, on]

/-- With bits or both preamble intervals absorbed the tag is the number of bits held. -/
theorem tag_of_bits (on : e.inCode = true) {k : Nat} (hk : e.bitsSeen.toInt = k) : e.tag = .accumulating k := by
  rw [tag_of_on on, hk, if_neg (by omega), if_neg (by omega), Int.toNat_natCast]

end Tag

theorem next_of_sync (tag : EtdTag) {ivl : Tick} (h : 10000 < ivl.toNat) : tag.next ivl = .syncing false :=
  if_pos h

/-- An interval of at most 10000 ticks moves a tag as R103 to R107 say. -/
theorem next_of_le (tag : EtdTag) {ivl : Tick} (h : ivl.toNat ≤ 10000) :
    tag.next ivl = match tag with
      | .idle => .idle
      | .syncing false => .syncing true
      | .syncing true => .accumulating 0
      | .accumulating n =>
        if 60 ≤ ivl.toNat ∧ ivl.toNat < 150 then
          if n + 1 = 40 then .idle else .accumulating (n + 1)
        else .idle := (if_neg (Nat.not_lt.2 h)).trans (by rcases tag with _ | _ | _ <;> rfl)

/-- The tag after an interval is the tagged form's next state (R17). -/
theorem tag_afterIvl {e : Etd} (hi : e.Inv) (ivl : Tick) : (e.afterIvl ivl).tag = e.tag.next ivl := by
  have ⟨lo, _⟩ := hi
  cases ivlEffect 0 e ivl with
  | sync range after => rw [after, next_of_sync _ range]; rfl
  | idle range off after => rw [after, next_of_le _ range, tag_of_off off]
  | pre range on pos after =>
    have succ := hi.succ_bitsSeen on
    rw [after, next_of_le _ range, tag_of_on on]
    obtain h | h : e.bitsSeen.toInt = -2 ∨ e.bitsSeen.toInt = -1 := by omega
    · simp [tag_of_on (e := e.countInterval) on, h]
    · simp [tag_of_on (e := e.countInterval) on, h]
  | bit b cls range on pos after =>
    have succ := hi.succ_bitsSeen on
    obtain ⟨k, hk⟩ := Int.eq_ofNat_of_zero_le (a := e.bitsSeen.toInt) (by omega)
    have count : (e.shiftIn b).bitsSeen.toInt = ((k + 1 : Nat) : Int) := by
      rw [shiftIn_bitsSeen, succ, hk, Int.natCast_succ]
    have full : (e.shiftIn b).bitsSeen = 40 ↔ k + 1 = 40 := by
      rw [← BitVec.toInt_inj, count]; exact Int.ofNat_inj
    rw [after, next_of_le _ (by omega), tag_of_bits on hk]
    simp only [if_pos range]
    by_cases h : k + 1 = 40
    · rw [if_pos h, finish_of_full ((shiftIn_inCode e b).trans on) (full.2 h), tag_of_off rfl]
    · rw [if_neg h, finish_of_not_full (mt full.1 h), tag_of_bits ((shiftIn_inCode e b).trans on) count]
  | inv cls range on pos after =>
    have succ := hi.succ_bitsSeen on
    obtain ⟨k, hk⟩ := Int.eq_ofNat_of_zero_le (a := e.bitsSeen.toInt) (by omega)
    rw [after, next_of_le _ (by omega), tag_of_bits on hk, tag_of_off rfl]
    exact (if_neg (by omega)).symm

/-- Settles O13: `prev` plays no part in the tag, so EDGE.NEXT moves it as the interval does. -/
theorem taggedFormFollowsRegisters : Obligations.TaggedFormFollowsRegisters := by
  intro s t n level tick hi h
  obtain ⟨-, after⟩ := edgeNext_etd_steps h
  rw [after]
  exact tag_afterIvl (e := { s.etd n with prev := tick }) hi _

end Sys2Proof.Machine
end

section
/-! PROOFS. What a step can do, said once: it holds the state, or one unit takes the oldest input. The invariant of R16,
R23, R67 and R137, unit by unit, and that reset meets it and every step keeps it. -/

namespace Sys2Proof.Machine

/-! ## The cases of a step (R48) -/

section
variable {s t : State} {x : Transaction} {rest : List Transaction} {n : Nat}

/-- RESET and CANCEL load the unit's reset value (R180, R188). -/
theorem step_off {u : UnitRef} (h : s.inputs = x :: rest) (off : x = .reset u ∨ x = .cancel u) :
    step s = .next (({ s with inputs := rest } : State).resetUnit u) := by
  rw [step_cons h]
  obtain rfl | rfl := off <;> rfl

theorem step_offEtd (h : s.inputs = x :: rest) (off : x = .reset (.etd n) ∨ x = .cancel (.etd n)) :
    ∃ t, step s = .next t ∧ StepsEtd n Etd.reset [] { s with inputs := rest } t :=
  ⟨_, step_off h off, StepsEtd.set ..⟩

theorem step_offPls (h : s.inputs = x :: rest) (off : x = .reset (.pls n) ∨ x = .cancel (.pls n)) :
    ∃ t, step s = .next t ∧ StepsPls n Pls.reset [] { s with inputs := rest } t :=
  ⟨_, step_off h off, StepsPls.set ..⟩

theorem step_offTel (h : s.inputs = x :: rest) (off : x = .reset (.tel n) ∨ x = .cancel (.tel n)) :
    ∃ t, step s = .next t ∧ StepsTel n Tel.reset [] { s with inputs := rest } t :=
  ⟨_, step_off h off, StepsTel.set ..⟩

end

/-- What a step from `s` to `t` did: held the state for want of an input, or gave the oldest input to its unit. -/
inductive StepCase (s t : State) : Prop
  | hold (inputs : s.inputs = []) (same : t = s)
  | edgeEtd (n : Nat) (w : BitVec 33) (rest : List Transaction) (inputs : s.inputs = .edge (.etd n) w :: rest)
      (steps : StepsEtd n ((s.etd n).afterEdge (ev33Tick w)) ((s.etd n).edgeOut n (ev33Tick w))
        { s with inputs := rest } t)
  | edgePls (n : Nat) (w : BitVec 33) (rest : List Transaction) (inputs : s.inputs = .edge (.pls n) w :: rest)
      (steps : StepsPls n ⟨ev33Tick w, true⟩ ((s.pls n).edgeOut n (ev33Level w) (ev33Tick w))
        { s with inputs := rest } t)
  | byte (n : Nat) (b : Byte) (rest : List Transaction) (inputs : s.inputs = .byte n b :: rest)
      (steps : StepsTel n ((s.tel n).afterByte b) ((s.tel n).byteOut n b) { s with inputs := rest } t)
  | offEtd (n : Nat) (x : Transaction) (rest : List Transaction) (inputs : s.inputs = x :: rest)
      (off : x = .reset (.etd n) ∨ x = .cancel (.etd n)) (steps : StepsEtd n Etd.reset [] { s with inputs := rest } t)
  | offPls (n : Nat) (x : Transaction) (rest : List Transaction) (inputs : s.inputs = x :: rest)
      (off : x = .reset (.pls n) ∨ x = .cancel (.pls n)) (steps : StepsPls n Pls.reset [] { s with inputs := rest } t)
  | offTel (n : Nat) (x : Transaction) (rest : List Transaction) (inputs : s.inputs = x :: rest)
      (off : x = .reset (.tel n) ∨ x = .cancel (.tel n)) (steps : StepsTel n Tel.reset [] { s with inputs := rest } t)

/-- A control input resets the unit it is for. -/
theorem stepCase_off {s t : State} {x : Transaction} {rest : List Transaction} {u : UnitRef}
    (h : s.inputs = x :: rest) (off : x = .reset u ∨ x = .cancel u) (next : step s = .next t) : StepCase s t := by
  cases u with
  | etd n =>
    obtain ⟨t', next', steps⟩ := step_offEtd h off
    cases next.symm.trans next'; exact .offEtd n x rest h off steps
  | pls n =>
    obtain ⟨t', next', steps⟩ := step_offPls h off
    cases next.symm.trans next'; exact .offPls n x rest h off steps
  | tel n =>
    obtain ⟨t', next', steps⟩ := step_offTel h off
    cases next.symm.trans next'; exact .offTel n x rest h off steps

/-- The one inversion of `step`: every step is one of these cases. -/
theorem stepCase {s t : State} (next : step s = .next t) : StepCase s t := by
  cases h : s.inputs with
  | nil => cases next.symm.trans (step_nil h); exact .hold h rfl
  | cons x rest =>
    cases x with
    | edge u w =>
      cases u with
      | etd n =>
        obtain ⟨t', next', steps⟩ := step_etd h
        cases next.symm.trans next'; exact .edgeEtd n w rest h steps
      | pls n =>
        obtain ⟨t', next', steps⟩ := step_pls h
        cases next.symm.trans next'; exact .edgePls n w rest h steps
    | byte n b =>
      obtain ⟨t', next', steps⟩ := step_tel h
      cases next.symm.trans next'; exact .byte n b rest h steps
    | reset u => exact stepCase_off h (.inl rfl) next
    | cancel u => exact stepCase_off h (.inr rfl) next

/-! ## The machine's invariant from its units -/

section
variable {n : Nat} {os : List Output} {s t : State}

/-- Outputs stay valid when valid ones are emitted. -/
theorem outputs_valid (hs : ∀ o ∈ s.outputs, o.Valid) (ho : ∀ o ∈ os, o.Valid) (h : t.outputs = s.outputs ++ os) :
    ∀ o ∈ t.outputs, o.Valid := by
  rw [h]
  exact List.forall_mem_append.2 ⟨hs, ho⟩

theorem StepsEtd.inv {e : Etd} (st : StepsEtd n e os s t) (hs : s.Inv) (he : e.Inv) (ho : ∀ o ∈ os, o.Valid) :
    t.Inv := by
  obtain ⟨wf, etds, tels, outs⟩ := hs
  refine ⟨st.wf wf, fun m => ?_, fun m => st.tel m ▸ tels m, outputs_valid outs ho st.outputs⟩
  by_cases h : m = n
  · rw [h, st.self]; exact he
  · rw [st.etd m h]; exact etds m

theorem StepsPls.inv {p : Pls} (st : StepsPls n p os s t) (hs : s.Inv) (ho : ∀ o ∈ os, o.Valid) : t.Inv := by
  obtain ⟨wf, etds, tels, outs⟩ := hs
  exact ⟨st.wf wf, fun m => st.etd m ▸ etds m, fun m => st.tel m ▸ tels m, outputs_valid outs ho st.outputs⟩

theorem StepsTel.inv {u : Tel} (st : StepsTel n u os s t) (hs : s.Inv) (hu : u.Inv) (ho : ∀ o ∈ os, o.Valid) :
    t.Inv := by
  obtain ⟨wf, etds, tels, outs⟩ := hs
  refine ⟨st.wf wf, fun m => st.etd m ▸ etds m, fun m => ?_, outputs_valid outs ho st.outputs⟩
  by_cases h : m = n
  · rw [h, st.self]; exact hu
  · rw [st.tel m h]; exact tels m

end

/-! ## ETD (R16) -/

section
variable {e : Etd}

theorem inv_of_inFrame (on : e.inCode = true) (lo : -2 ≤ e.bitsSeen.toInt) (hi : e.bitsSeen.toInt ≤ 39)
    (code : e.code.toNat < 2 ^ e.bitsSeen.toInt.toNat) : e.Inv :=
  ⟨lo, by omega, fun _ => ⟨hi, code⟩, fun off => by simp [on] at off⟩

theorem inv_of_ended (off : e.inCode = false) (lo : 1 ≤ e.bitsSeen.toInt) (hi : e.bitsSeen.toInt ≤ 40) : e.Inv :=
  ⟨by omega, hi, fun on => by simp [off] at on, fun _ => .inr lo⟩

theorem etdReset_inv : Etd.reset.Inv := ⟨by decide, by decide, by decide, by decide⟩

theorem startFrame_inv : e.startFrame.Inv := by
  refine inv_of_inFrame rfl ?_ ?_ ?_ <;> simp only [startFrame_bitsSeen, startFrame_code] <;> decide

/-- `prev` and `prevValid` are in no clause of R16. -/
theorem etdInv_clock (h : e.Inv) (tick : Tick) (valid : Bool) :
    Etd.Inv { e with prev := tick, prevValid := valid } := h

/-- A data bit at most doubles the accumulator and adds one, while it holds fewer than 63 bits. -/
theorem shiftIn_code_le (b : Bool) (h : e.code.toNat < 2 ^ 63) : (e.shiftIn b).code.toNat ≤ 2 * e.code.toNat + 1 := by
  have shift : (e.code <<< 1).toNat = 2 * e.code.toNat := by
    rw [BitVec.toNat_shiftLeft, Nat.shiftLeft_eq]; omega
  cases b with
  | false => show (e.code <<< 1).toNat ≤ _; omega
  | true =>
    have add : (e.code <<< 1 + 1).toNat = ((e.code <<< 1).toNat + 1) % 2 ^ 64 := BitVec.toNat_add ..
    show (e.code <<< 1 + 1).toNat ≤ _
    omega

/-- A data bit keeps R16: the frame goes on with one bit more, or ends at the fortieth. -/
theorem shiftIn_finish_inv (hi : e.Inv) (on : e.inCode = true) (pos : 1 ≤ (e.bitsSeen + 1).toInt) (b : Bool) :
    (e.shiftIn b).finish.Inv := by
  have succ := hi.succ_bitsSeen on
  obtain ⟨-, -, frame, -⟩ := hi
  obtain ⟨h39, code⟩ := frame on
  have on' := (shiftIn_inCode e b).trans on
  by_cases full : (e.shiftIn b).bitsSeen = 40
  · rw [finish_of_full on' full]
    have h40 : (e.shiftIn b).clearInCode.bitsSeen.toInt = 40 := by rw [clearInCode_bitsSeen, full]; rfl
    exact inv_of_ended rfl (by omega) (by omega)
  · have h40 : (e.bitsSeen + 1).toInt ≠ 40 := fun h =>
      full ((shiftIn_bitsSeen e b).trans (BitVec.toInt_inj.1 h))
    rw [finish_of_not_full full]
    refine inv_of_inFrame on' ?_ ?_ ?_ <;> rw [shiftIn_bitsSeen, succ]
    · omega
    · omega
    · have grow : (e.bitsSeen.toInt + 1).toNat = e.bitsSeen.toInt.toNat + 1 := by omega
      have bound : 2 ^ e.bitsSeen.toInt.toNat ≤ 2 ^ 39 := Nat.pow_le_pow_right (by omega) (by omega)
      have le := shiftIn_code_le b (e := e) (by omega)
      rw [grow, pow_succ]; omega

/-- An interval keeps R16. -/
theorem afterIvl_inv (hi : e.Inv) (ivl : Tick) : (e.afterIvl ivl).Inv := by
  cases ivlEffect 0 e ivl with
  | sync range after => rw [after]; exact startFrame_inv
  | idle range off after => rw [after]; exact hi
  | pre range on pos after =>
    have succ := hi.succ_bitsSeen on
    obtain ⟨lo, -, frame, -⟩ := hi
    obtain ⟨h39, code⟩ := frame on
    have same : (e.bitsSeen.toInt + 1).toNat = e.bitsSeen.toInt.toNat := by omega
    rw [after]
    refine inv_of_inFrame on ?_ ?_ ?_ <;> rw [countInterval_bitsSeen, succ]
    · omega
    · omega
    · rw [same]; exact code
  | bit b cls range on pos after => rw [after]; exact shiftIn_finish_inv hi on pos b
  | inv cls range on pos after =>
    have succ := hi.succ_bitsSeen on
    obtain ⟨-, -, frame, -⟩ := hi
    obtain ⟨h39, -⟩ := frame on
    rw [after]
    exact inv_of_ended rfl pos (by simp only [clearInCode_bitsSeen, shiftCode_bitsSeen, countInterval_bitsSeen]; omega)

theorem afterEdge_inv (hi : e.Inv) (tick : Tick) : (e.afterEdge tick).Inv := by
  unfold Etd.afterEdge
  split_ifs
  · exact etdInv_clock hi tick true
  · exact afterIvl_inv (etdInv_clock hi tick e.prevValid) _

/-- An accepted frame is within the calibrated ranges (R110, R111). -/
theorem verdict_out_valid (n : Nat) (code : BitVec 64) : ∀ o ∈ (doneVerdict code).out n, o.Valid := by
  unfold doneVerdict
  split_ifs with sum hum temp
  · simp [Verdict.out]
  · simp [Verdict.out]
  · simp [Verdict.out]
  · simp only [Config.humMax_eq, Config.tempMin_eq, Config.tempMax_eq] at hum temp
    simp only [Verdict.out, List.mem_singleton, forall_eq, Output.Valid]
    omega

theorem finishOut_valid (n : Nat) : ∀ o ∈ e.finishOut n, o.Valid := by
  unfold Etd.finishOut
  split_ifs
  · exact verdict_out_valid n e.code
  · simp

theorem ivlOut_valid (n : Nat) (ivl : Tick) : ∀ o ∈ e.ivlOut n ivl, o.Valid := by
  cases ivlEffect n e ivl with
  | bit b cls range on pos after out => rw [out]; exact finishOut_valid n
  | sync _ _ out | idle _ _ _ out | pre _ _ _ _ out | inv _ _ _ _ _ out => simp [out]

theorem edgeOut_valid (n : Nat) (tick : Tick) : ∀ o ∈ e.edgeOut n tick, o.Valid := by
  unfold Etd.edgeOut
  split_ifs
  · simp
  · exact ivlOut_valid n _

end

/-! ## PLS -/

theorem plsEdgeOut_valid (n : Nat) (p : Pls) (level : Bool) (tick : Tick) :
    ∀ o ∈ p.edgeOut n level tick, o.Valid := by
  unfold Pls.edgeOut plsOut
  split_ifs
  · simp
  · cases plsClass level _ <;> simp [Output.Valid]

/-! ## TEL (R23, R67, R137) -/

/-! ### The packet's integers (R23, D20) -/

theorem zeroPacket_inv (header : Bytes) : (zeroPacket header).Inv := by simp [zeroPacket, Packet.Inv]

theorem telReset_inv : Tel.reset.Inv := ⟨by decide, rfl, zeroPacket_inv [], nofun⟩

theorem belowLimit_lt {v x : Nat} (h : belowLimit v = some x) : x < 2 ^ 63 := by
  unfold belowLimit Config.intLimit at h
  split_ifs at h with hv
  cases h; exact hv

/-- An operand is below 2^63 (R73 to R75). -/
theorem kwhOperand_lt {mode : Config.KwhScaleMode} {v : Bytes} {x : Nat} (h : kwhOperand mode v = some x) :
    x < 2 ^ 63 := by
  unfold kwhOperand at h
  split at h
  · cases h
  · split at h
    · cases h
    · exact belowLimit_lt h

theorem m3Operand_lt {v : Bytes} {x : Nat} (h : m3Operand v = some x) : x < 2 ^ 63 := by
  unfold m3Operand at h
  split at h
  · cases h
  · split at h
    · cases h
    · exact belowLimit_lt h

theorem tariffOperand_lt {v : Bytes} {x : Nat} (h : tariffOperand v = some x) : x < 2 ^ 63 := by
  unfold tariffOperand at h
  split_ifs at h
  exact belowLimit_lt h

/-- What a bounded operand stores is in range; a missing one counts as 0. -/
theorem toNat_ofNat_getD_lt {o : Option Nat} (h : ∀ x, o = some x → x < 2 ^ 63) :
    (BitVec.ofNat 64 (o.getD 0)).toNat < 2 ^ 63 := by
  cases o with
  | none => decide
  | some x => exact (Nat.mod_le _ _).trans_lt (h x rfl)

/-- A content line keeps the integers in range. -/
theorem packetAfterLine_inv {p : Packet} (h : p.Inv) (line : Bytes) : (packetAfterLine p line).Inv := by
  unfold packetAfterLine
  split
  · exact h
  · next f _ =>
    have kwh := toNat_ofNat_getD_lt fun x => kwhOperand_lt (mode := Config.kwhScaleMode) (v := f.value1) (x := x)
    have m3 := toNat_ofNat_getD_lt fun x => m3Operand_lt (v := f.value1) (x := x)
    have tariff := toNat_ofNat_getD_lt fun x => tariffOperand_lt (v := f.value1) (x := x)
    obtain ⟨h1, h2, h3, h4, h5⟩ := h
    cases fieldKind f.oid with
    | eid | other => exact ⟨h1, h2, h3, h4, h5⟩
    | tariff => exact ⟨tariff, h2, h3, h4, h5⟩
    | low => exact ⟨h1, kwh, h3, h4, h5⟩
    | high => exact ⟨h1, h2, kwh, h4, h5⟩
    | current => exact ⟨h1, h2, h3, kwh, h5⟩
    | gas1 | gas2 | gas3 | gas4 => exact ⟨h1, h2, h3, h4, m3⟩

/-- No content line writes the header. -/
theorem packetAfterLine_header (p : Packet) (line : Bytes) : (packetAfterLine p line).header = p.header := by
  unfold packetAfterLine
  split
  · rfl
  · next f _ => cases fieldKind f.oid <;> rfl

/-! ### The line and the frame -/

section
variable {t : Tel}

theorem appendLine_inv (h : t.Inv) {b : Byte} (hb : b ≠ Config.eol) : (t.appendLine b).Inv := by
  obtain ⟨buf, crc, packet, frame⟩ := h
  exact ⟨by simp [buf, hb.symm], crc, packet, frame⟩

theorem clearLine_inv (h : t.Inv) : t.clearLine.Inv := by
  obtain ⟨-, crc, packet, frame⟩ := h
  exact ⟨by simp, crc, packet, frame⟩

theorem stopReading_inv (h : t.Inv) : t.stopReading.Inv := by
  obtain ⟨buf, crc, packet, -⟩ := h
  exact ⟨buf, crc, packet, by simp⟩

/-- A start line opens the frame with itself and no content line (R133). -/
theorem startFrameLine_inv (h : t.Inv) {line : Bytes} (hl : line.head? = some chSlash) :
    Tel.Inv { t.startReading with
      packet := zeroPacket (line.drop 1), rawFrame := startText Config.rawIncludesStart line } := by
  obtain ⟨buf, crc, -, -⟩ := h
  refine ⟨buf, crc, zeroPacket_inv _, fun _ => ⟨[], ?_, by simp⟩⟩
  simp [zeroPacket, frameText, -List.drop_one, cons_drop_of_head hl]

/-- A content line is the next line of the frame (R135, R137). -/
theorem appendFrame_inv (h : t.Inv) {line : Bytes} (trimmed : trim line = line) (content : line.head? ≠ some chBang) :
    (t.appendFrame line).Inv := by
  obtain ⟨buf, crc, packet, frame⟩ := h
  refine ⟨buf, crc, packet, fun reading => ?_⟩
  obtain ⟨lines, text, ok⟩ := frame reading
  refine ⟨lines ++ [line], ?_, ?_⟩
  · simp [text, frameText]
  · exact List.forall_mem_append.2 ⟨ok, by simp [trimmed, content]⟩

theorem afterContent_inv (h : t.Inv) (line : Bytes) : (t.afterContent line).Inv := by
  unfold Tel.afterContent
  split_ifs
  · exact stopReading_inv h
  · obtain ⟨buf, crc, packet, frame⟩ := h
    refine ⟨buf, crc, packetAfterLine_inv packet line, ?_⟩
    simpa only [packetAfterLine_header] using frame

/-- A trimmed line keeps the invariant, whatever its class. -/
theorem afterLine_inv (h : t.Inv) {line : Bytes} (trimmed : trim line = line) : (t.afterLine line).Inv := by
  unfold Tel.afterLine
  split
  · next cls => exact startFrameLine_inv h ((lineClass_start_iff ..).1 cls).2
  · exact h
  · split_ifs
    · exact stopReading_inv h
    · obtain ⟨buf, -, packet, frame⟩ := stopReading_inv h
      exact ⟨buf, rfl, packet, frame⟩
  · next cls => exact afterContent_inv (appendFrame_inv h trimmed ((lineClass_content_iff ..).1 cls).2) line

theorem afterByte_inv (h : t.Inv) (b : Byte) : (t.afterByte b).Inv := by
  unfold Tel.afterByte
  split_ifs with hb
  · exact afterLine_inv (clearLine_inv h) (trim_trim _)
  · exact appendLine_inv h hb

/-! ### Outputs (R63, R190) -/

theorem contentOut_valid (n : Nat) {line : Bytes} (trimmed : trim line = line) :
    ∀ o ∈ contentOut n line, o.Valid := by
  unfold contentOut
  cases lineError line <;> simp [Output.Valid, trimmed]

theorem lineOut_valid (n : Nat) (h : t.packet.Inv) {line : Bytes} (trimmed : trim line = line) :
    ∀ o ∈ t.lineOut n line, o.Valid := by
  unfold Tel.lineOut
  split
  · simp
  · simp
  · split
    · simp [Output.Valid, trimmed]
    · split_ifs
      · simpa [Output.Valid] using h
      · simp [Output.Valid, trimmed]
  · exact contentOut_valid n trimmed

theorem byteOut_valid (n : Nat) (h : t.Inv) (b : Byte) : ∀ o ∈ t.byteOut n b, o.Valid := by
  obtain ⟨-, -, packet, -⟩ := h
  unfold Tel.byteOut
  split_ifs
  · exact lineOut_valid n packet (trim_trim _)
  · simp

end

/-! ## Reset and step -/

/-- Settles O41: with no unit written, each reads its reset value. -/
theorem resetStateHoldsSpecValues : Obligations.ResetStateHoldsSpecValues := fun n =>
  ⟨etd_reset n, pls_reset n, tel_reset n, rfl, rfl⟩

/-- Settles O49, unit by unit. -/
theorem resetMeetsInvariant : Obligations.ResetMeetsInvariant :=
  ⟨by decide, fun _ => etdReset_inv, fun _ => telReset_inv, by simp [State.reset]⟩

/-- Settles O50: by the cases of a step; only the unit that took the input has changed, and it keeps its own part. -/
theorem stepKeepsInvariant : Obligations.StepKeepsInvariant := by
  intro s t hs next
  have ⟨_, etds, tels, _⟩ := hs
  cases stepCase next with
  | hold inputs same => exact same ▸ hs
  | edgeEtd n w rest inputs steps => exact steps.inv hs (afterEdge_inv (etds n) _) (edgeOut_valid n _)
  | edgePls n w rest inputs steps => exact steps.inv hs (plsEdgeOut_valid n _ _ _)
  | byte n b rest inputs steps => exact steps.inv hs (afterByte_inv (tels n) b) (byteOut_valid n (tels n) b)
  | offEtd n x rest inputs off steps => exact steps.inv hs etdReset_inv (by simp)
  | offPls n x rest inputs off steps => exact steps.inv hs (by simp)
  | offTel n x rest inputs off steps => exact steps.inv hs telReset_inv (by simp)

end Sys2Proof.Machine
end

section
/-! PROOFS. Dead state (R30): what an input does to a unit and makes it emit is read off the unit's live part. -/

namespace Sys2Proof.Machine

/-! ## ETD -/

section
variable {e : Etd}

/-- With the clock primed and a frame in progress nothing of an ETD unit is dead. -/
theorem etdLive_of_on (valid : e.prevValid = true) (on : e.inCode = true) : e.live = e := by
  rw [Etd.live, if_pos valid, if_pos on, if_pos on]

/-- Outside a frame an interval starts one or changes nothing, and emits nothing (R101, R102). -/
theorem afterIvl_of_off (off : e.inCode = false) (ivl : Tick) :
    e.afterIvl ivl = if 10000 < ivl.toNat then e.startFrame else e := by
  cases ivlEffect 0 e ivl with
  | sync range after => rw [after, if_pos range]
  | idle range _ after => rw [after, if_neg (by omega)]
  | pre _ on | bit _ _ _ on | inv _ _ on => simp [off] at on

theorem ivlOut_of_off (off : e.inCode = false) (n : Nat) (ivl : Tick) : e.ivlOut n ivl = [] := by
  cases ivlEffect n e ivl with
  | sync _ _ out | idle _ _ _ out => exact out
  | pre _ on | bit _ _ _ on | inv _ _ on => simp [off] at on

theorem live_afterIvl_live (valid : e.prevValid = true) (ivl : Tick) :
    (e.live.afterIvl ivl).live = (e.afterIvl ivl).live := by
  cases h : e.inCode with
  | true => rw [etdLive_of_on valid h]
  | false =>
    rw [afterIvl_of_off h, afterIvl_of_off (e := e.live) h]
    split_ifs <;> simp [Etd.live, Etd.startFrame, valid, h]

theorem ivlOut_live (valid : e.prevValid = true) (n : Nat) (ivl : Tick) : e.live.ivlOut n ivl = e.ivlOut n ivl := by
  cases h : e.inCode with
  | true => rw [etdLive_of_on valid h]
  | false => rw [ivlOut_of_off h, ivlOut_of_off (e := e.live) h]

/-- The state and the outputs after an edge event are read off the live part. -/
theorem live_afterEdge_live (tick : Tick) : (e.live.afterEdge tick).live = (e.afterEdge tick).live := by
  cases h : e.prevValid with
  | false =>
    have h' : e.live.prevValid = false := h
    rw [Etd.afterEdge, Etd.afterEdge, if_pos h, if_pos h']
    cases hc : e.inCode <;> simp [Etd.live, hc]
  | true =>
    have h' : e.live.prevValid = true := h
    have prev : e.live.prev = e.prev := if_pos h
    have moved : ({ e.live with prev := tick } : Etd) = Etd.live { e with prev := tick } := by simp [Etd.live, h]
    rw [Etd.afterEdge, Etd.afterEdge, if_neg (ne_false_of_eq_true h), if_neg (ne_false_of_eq_true h'), prev, moved]
    exact live_afterIvl_live (e := { e with prev := tick }) h _

theorem edgeOut_live (n : Nat) (tick : Tick) : e.live.edgeOut n tick = e.edgeOut n tick := by
  cases h : e.prevValid with
  | false => rw [Etd.edgeOut, Etd.edgeOut, if_pos h, if_pos (show e.live.prevValid = false from h)]
  | true =>
    have prev : e.live.prev = e.prev := if_pos h
    have h' : e.live.prevValid = true := h
    rw [Etd.edgeOut, Etd.edgeOut, if_neg (ne_false_of_eq_true h), if_neg (ne_false_of_eq_true h'), prev, ivlOut_live h]

end

/-! ## PLS -/

theorem plsEdgeOut_live (p : Pls) (n : Nat) (level : Bool) (tick : Tick) :
    p.live.edgeOut n level tick = p.edgeOut n level tick := by
  cases h : p.prevValid <;> simp [Pls.edgeOut, Pls.live, h]

/-! ## TEL -/

section
variable {t : Tel}

/-- A content line inside a frame does not look at the CRC register. -/
theorem live_afterContent_live (on : t.reading = true) (line : Bytes) :
    (t.live.afterContent line).live = (t.afterContent line).live := by
  unfold Tel.afterContent
  split_ifs <;> simp [Tel.live, Tel.stopReading, on]

theorem live_afterLine_live (line : Bytes) : (t.live.afterLine line).live = (t.afterLine line).live := by
  have cls : Sys2Proof.lineClass t.live.reading line = Sys2Proof.lineClass t.reading line := rfl
  unfold Tel.afterLine
  rw [cls]
  cases h : Sys2Proof.lineClass t.reading line with
  | start => simp [Tel.live, Tel.startReading]
  | skip => simp only [Tel.live]; split_ifs <;> rfl
  | finish => split_ifs <;> simp [Tel.live, Tel.stopReading]
  | content =>
    have on := ((lineClass_content_iff ..).1 h).1
    have appended : t.live.appendFrame line = (t.appendFrame line).live := by simp [Tel.live, Tel.appendFrame, on]
    simp only [appended]
    exact live_afterContent_live (t := t.appendFrame line) on line

theorem lineOut_live (n : Nat) (line : Bytes) : t.live.lineOut n line = t.lineOut n line := by
  have cls : Sys2Proof.lineClass t.live.reading line = Sys2Proof.lineClass t.reading line := rfl
  unfold Tel.lineOut
  rw [cls]
  cases h : Sys2Proof.lineClass t.reading line with
  | start | skip | content => rfl
  | finish =>
    have on := ((lineClass_finish_iff ..).1 h).1
    simp [Tel.live, on]

/-- The state and the outputs after a byte are read off the live part. -/
theorem live_afterByte_live (b : Byte) : (t.live.afterByte b).live = (t.afterByte b).live := by
  unfold Tel.afterByte
  split_ifs
  · exact live_afterLine_live (t := t.clearLine) _
  · cases h : t.reading <;> simp [Tel.live, Tel.appendLine, h]

theorem byteOut_live (n : Nat) (b : Byte) : t.live.byteOut n b = t.byteOut n b := by
  unfold Tel.byteOut
  split_ifs
  · exact lineOut_live (t := t.clearLine) n _
  · rfl

end

/-! ## Two runs (R30) -/

/-- Both runs emit the same, and end in states that differ at most in dead state. -/
def SameFromHere (s s' t t' : State) : Prop :=
  t.LiveEq t' ∧ ∃ emitted, t.outputs = s.outputs ++ emitted ∧ t'.outputs = s'.outputs ++ emitted

section
variable {n : Nat} {os : List Output} {rest : List Transaction} {s s' t t' : State}

theorem StepsEtd.sameFromHere {e e' : Etd} (h : s.LiveEq s') (st : StepsEtd n e os { s with inputs := rest } t)
    (st' : StepsEtd n e' os { s' with inputs := rest } t') (live : e.live = e'.live) : SameFromHere s s' t t' := by
  obtain ⟨etd, pls, tel, -⟩ := h
  refine ⟨⟨fun m => ?_, fun m => ?_, fun m => ?_, ?_⟩, os, st.outputs, st'.outputs⟩
  · by_cases hm : m = n
    · rw [hm, st.self, st'.self, live]
    · rw [st.etd m hm, st'.etd m hm]; exact etd m
  · rw [st.pls, st'.pls]; exact pls m
  · rw [st.tel, st'.tel]; exact tel m
  · rw [st.inputs, st'.inputs]

theorem StepsPls.sameFromHere {p p' : Pls} (h : s.LiveEq s') (st : StepsPls n p os { s with inputs := rest } t)
    (st' : StepsPls n p' os { s' with inputs := rest } t') (live : p.live = p'.live) : SameFromHere s s' t t' := by
  obtain ⟨etd, pls, tel, -⟩ := h
  refine ⟨⟨fun m => ?_, fun m => ?_, fun m => ?_, ?_⟩, os, st.outputs, st'.outputs⟩
  · rw [st.etd, st'.etd]; exact etd m
  · by_cases hm : m = n
    · rw [hm, st.self, st'.self, live]
    · rw [st.pls m hm, st'.pls m hm]; exact pls m
  · rw [st.tel, st'.tel]; exact tel m
  · rw [st.inputs, st'.inputs]

theorem StepsTel.sameFromHere {u u' : Tel} (h : s.LiveEq s') (st : StepsTel n u os { s with inputs := rest } t)
    (st' : StepsTel n u' os { s' with inputs := rest } t') (live : u.live = u'.live) : SameFromHere s s' t t' := by
  obtain ⟨etd, pls, tel, -⟩ := h
  refine ⟨⟨fun m => ?_, fun m => ?_, fun m => ?_, ?_⟩, os, st.outputs, st'.outputs⟩
  · rw [st.etd, st'.etd]; exact etd m
  · rw [st.pls, st'.pls]; exact pls m
  · by_cases hm : m = n
    · rw [hm, st.self, st'.self, live]
    · rw [st.tel m hm, st'.tel m hm]; exact tel m
  · rw [st.inputs, st'.inputs]

end

/-- Settles O54: the second run takes the same input, and the unit that takes it has the same live part. -/
theorem deadStateIsUnobservable : Obligations.DeadStateIsUnobservable := by
  intro s s' t h next
  have ⟨etd, pls, tel, inputs'⟩ := h
  cases stepCase next with
  | hold inputs same =>
    subst same
    exact ⟨s', step_nil (inputs' ▸ inputs), h, [], by simp, by simp⟩
  | edgeEtd n w rest inputs st =>
    obtain ⟨t', next', st'⟩ := step_etd (inputs'.symm.trans inputs)
    rw [← edgeOut_live, ← etd n, edgeOut_live] at st'
    exact ⟨t', next', st.sameFromHere h st' (by rw [← live_afterEdge_live (e := s.etd n), etd n, live_afterEdge_live])⟩
  | edgePls n w rest inputs st =>
    obtain ⟨t', next', st'⟩ := step_pls (inputs'.symm.trans inputs)
    rw [← plsEdgeOut_live, ← pls n, plsEdgeOut_live] at st'
    exact ⟨t', next', st.sameFromHere h st' rfl⟩
  | byte n b rest inputs st =>
    obtain ⟨t', next', st'⟩ := step_tel (inputs'.symm.trans inputs)
    rw [← byteOut_live, ← tel n, byteOut_live] at st'
    exact ⟨t', next', st.sameFromHere h st' (by rw [← live_afterByte_live (t := s.tel n), tel n, live_afterByte_live])⟩
  | offEtd n x rest inputs off st =>
    obtain ⟨t', next', st'⟩ := step_offEtd (inputs'.symm.trans inputs) off
    exact ⟨t', next', st.sameFromHere h st' rfl⟩
  | offPls n x rest inputs off st =>
    obtain ⟨t', next', st'⟩ := step_offPls (inputs'.symm.trans inputs) off
    exact ⟨t', next', st.sameFromHere h st' rfl⟩
  | offTel n x rest inputs off st =>
    obtain ⟨t', next', st'⟩ := step_offTel (inputs'.symm.trans inputs) off
    exact ⟨t', next', st.sameFromHere h st' rfl⟩

end Sys2Proof.Machine
end

section
/-! PROOFS. The writers of the four flags (R26): what one step makes of one unit, and of the unit's flag. -/

namespace Sys2Proof.Machine

/-! ## One unit over one step -/

section
variable {s t : State} {x : Transaction} {rest : List Transaction}

/-- Over a step an ETD unit keeps its state, takes its edge event, or is reset. -/
theorem etd_step (h : s.inputs = x :: rest) (next : step s = .next t) (n : Nat) :
    t.etd n = s.etd n ∨ (∃ w, x = .edge (.etd n) w ∧ t.etd n = (s.etd n).afterEdge (ev33Tick w)) ∨
      ((x = .reset (.etd n) ∨ x = .cancel (.etd n)) ∧ t.etd n = Etd.reset) := by
  cases stepCase next with
  | hold inputs => cases h.symm.trans inputs
  | edgeEtd m w rest' inputs steps =>
    cases h.symm.trans inputs
    by_cases hm : n = m
    · subst hm; exact .inr (.inl ⟨w, rfl, steps.self⟩)
    · exact .inl (steps.etd n hm)
  | offEtd m x' rest' inputs off steps =>
    cases h.symm.trans inputs
    by_cases hm : n = m
    · subst hm; exact .inr (.inr ⟨off, steps.self⟩)
    · exact .inl (steps.etd n hm)
  | edgePls _ _ _ _ steps | byte _ _ _ _ steps | offPls _ _ _ _ _ steps | offTel _ _ _ _ _ steps =>
    exact .inl (steps.etd n)

/-- Over a step a PLS unit keeps its state, takes its edge event, or is reset. -/
theorem pls_step (h : s.inputs = x :: rest) (next : step s = .next t) (n : Nat) :
    t.pls n = s.pls n ∨ (∃ w, x = .edge (.pls n) w ∧ t.pls n = ⟨ev33Tick w, true⟩) ∨
      ((x = .reset (.pls n) ∨ x = .cancel (.pls n)) ∧ t.pls n = Pls.reset) := by
  cases stepCase next with
  | hold inputs => cases h.symm.trans inputs
  | edgePls m w rest' inputs steps =>
    cases h.symm.trans inputs
    by_cases hm : n = m
    · subst hm; exact .inr (.inl ⟨w, rfl, steps.self⟩)
    · exact .inl (steps.pls n hm)
  | offPls m x' rest' inputs off steps =>
    cases h.symm.trans inputs
    by_cases hm : n = m
    · subst hm; exact .inr (.inr ⟨off, steps.self⟩)
    · exact .inl (steps.pls n hm)
  | edgeEtd _ _ _ _ steps | byte _ _ _ _ steps | offEtd _ _ _ _ _ steps | offTel _ _ _ _ _ steps =>
    exact .inl (steps.pls n)

/-- Over a step a TEL unit keeps its state, takes its byte, or is reset. -/
theorem tel_step (h : s.inputs = x :: rest) (next : step s = .next t) (n : Nat) :
    t.tel n = s.tel n ∨ (∃ b, x = .byte n b ∧ t.tel n = (s.tel n).afterByte b) ∨
      ((x = .reset (.tel n) ∨ x = .cancel (.tel n)) ∧ t.tel n = Tel.reset) := by
  cases stepCase next with
  | hold inputs => cases h.symm.trans inputs
  | byte m b rest' inputs steps =>
    cases h.symm.trans inputs
    by_cases hm : n = m
    · subst hm; exact .inr (.inl ⟨b, rfl, steps.self⟩)
    · exact .inl (steps.tel n hm)
  | offTel m x' rest' inputs off steps =>
    cases h.symm.trans inputs
    by_cases hm : n = m
    · subst hm; exact .inr (.inr ⟨off, steps.self⟩)
    · exact .inl (steps.tel n hm)
  | edgeEtd _ _ _ _ steps | edgePls _ _ _ _ steps | offEtd _ _ _ _ _ steps | offPls _ _ _ _ _ steps =>
    exact .inl (steps.tel n)

end

/-! ## The flags of a unit -/

section
variable {e : Etd}

/-- No interval writes `prevValid`. -/
@[simp] theorem afterIvl_prevValid (ivl : Tick) : (e.afterIvl ivl).prevValid = e.prevValid := by
  cases ivlEffect 0 e ivl with
  | sync _ after | idle _ _ after | pre _ _ _ after | bit _ _ _ _ _ after | inv _ _ _ _ after => simp [after]

/-- An edge event primes the clock, and it stays primed. -/
@[simp] theorem afterEdge_prevValid (tick : Tick) : (e.afterEdge tick).prevValid = true := by
  unfold Etd.afterEdge
  split_ifs with valid
  · rfl
  · simpa using valid

theorem afterIvl_sets_inCode {ivl : Tick} (off : e.inCode = false) (on : (e.afterIvl ivl).inCode = true) :
    10000 < ivl.toNat := by
  by_contra range
  rw [afterIvl_of_off off, if_neg range, off] at on
  cases on

/-- A frame ends at an invalid interval or at the fortieth bit. -/
theorem afterIvl_clears_inCode {ivl : Tick} (on : e.inCode = true) (off : (e.afterIvl ivl).inCode = false) (n : Nat) :
    let i := decodeIvl n true e.bitsSeen ivl
    i = .inv n ivl ∨ ((i = .bit0 n ivl ∨ i = .bit1 n ivl) ∧ e.bitsSeen = 39) := by
  unfold decodeIvl
  rw [← on]
  cases ivlEffect n e ivl with
  | sync _ after => rw [after] at off; cases off
  | idle _ off' => cases on.symm.trans off'
  | pre _ _ _ after => rw [after] at off; cases on.symm.trans off
  | bit b cls _ _ _ after =>
    have full : e.bitsSeen + 1 = 40 := by
      by_contra part
      rw [after, finish_of_not_full (by simpa using part), shiftIn_inCode] at off
      cases on.symm.trans off
    have last : e.bitsSeen = 39 := by bv_omega
    rw [cls]
    cases b with
    | false => exact .inr ⟨.inl rfl, last⟩
    | true => exact .inr ⟨.inr rfl, last⟩
  | inv cls => exact .inl (by rw [cls]; rfl)

theorem afterEdge_sets_inCode {tick : Tick} (off : e.inCode = false) (on : (e.afterEdge tick).inCode = true) :
    e.prevValid = true ∧ 10000 < (interval e.prev tick).toNat := by
  unfold Etd.afterEdge at on
  split_ifs at on with valid
  · cases off.symm.trans on
  · exact ⟨by simpa using valid, afterIvl_sets_inCode (e := { e with prev := tick }) off on⟩

theorem afterEdge_clears_inCode {tick : Tick} (on : e.inCode = true) (off : (e.afterEdge tick).inCode = false)
    (n : Nat) :
    e.prevValid = true ∧
      let i := decodeIvl n true e.bitsSeen (interval e.prev tick)
      i = .inv n (interval e.prev tick) ∨
        ((i = .bit0 n (interval e.prev tick) ∨ i = .bit1 n (interval e.prev tick)) ∧ e.bitsSeen = 39) := by
  unfold Etd.afterEdge at off
  split_ifs at off with valid
  · cases on.symm.trans off
  · exact ⟨by simpa using valid, afterIvl_clears_inCode (e := { e with prev := tick }) on off n⟩

end

section
variable {t : Tel}

/-- Outside a frame a line opens one exactly if it begins with `'/'` (R133, R136). -/
theorem afterLine_reading_of_off {line : Bytes} (off : t.reading = false) :
    (t.afterLine line).reading = decide (line.head? = some chSlash) := by
  by_cases start : line.head? = some chSlash
  · simp [Tel.afterLine, (lineClass_start_iff ..).2 ⟨off, start⟩, start]
  · simp only [Tel.afterLine, (lineClass_skip_iff ..).2 ⟨off, start⟩]
    simpa [start] using off

/-- Inside a frame a line ends it exactly if it begins with `'!'` or raises an error (R134, R135, R196). -/
theorem afterLine_reading_of_on {line : Bytes} (on : t.reading = true) :
    (t.afterLine line).reading = !(decide (line.head? = some chBang) || lineRaises line) := by
  by_cases ends : line.head? = some chBang
  · simp only [Tel.afterLine, (lineClass_finish_iff ..).2 ⟨on, ends⟩]
    split_ifs <;> simp [ends]
  · simp only [Tel.afterLine, (lineClass_content_iff ..).2 ⟨on, ends⟩, Tel.afterContent]
    split_ifs with raises <;> simp [ends, raises, on]

theorem afterByte_sets_reading {b : Byte} (off : t.reading = false) (on : (t.afterByte b).reading = true) :
    b = Config.eol ∧ (trim t.lineBuf).head? = some chSlash := by
  unfold Tel.afterByte at on
  split_ifs at on with eol
  · rw [afterLine_reading_of_off (t := t.clearLine) off] at on
    exact ⟨eol, of_decide_eq_true on⟩
  · cases off.symm.trans on

theorem afterByte_clears_reading {b : Byte} (on : t.reading = true) (off : (t.afterByte b).reading = false) :
    b = Config.eol ∧ ((trim t.lineBuf).head? = some chBang ∨ lineRaises (trim t.lineBuf) = true) := by
  unfold Tel.afterByte at off
  split_ifs at off with eol
  · rw [afterLine_reading_of_on (t := t.clearLine) on] at off
    exact ⟨eol, by simpa [or_iff_not_imp_left] using off⟩
  · cases on.symm.trans off

end

/-! ## The flags over a step (R26) -/

section
variable {s t : State} {x : Transaction} {rest : List Transaction}

theorem etd_prevValid_writers (h : s.inputs = x :: rest) (next : step s = .next t) (n : Nat) :
    ((s.etd n).prevValid = false → (t.etd n).prevValid = true → ∃ w, x = .edge (.etd n) w) ∧
    ((s.etd n).prevValid = true → (t.etd n).prevValid = false → x = .reset (.etd n) ∨ x = .cancel (.etd n)) := by
  obtain same | ⟨w, rfl, after⟩ | ⟨off, after⟩ := etd_step h next n
  · simp +contextual [same]
  · simp [after]
  · simp [after, off, Etd.reset]

theorem pls_prevValid_writers (h : s.inputs = x :: rest) (next : step s = .next t) (n : Nat) :
    ((s.pls n).prevValid = false → (t.pls n).prevValid = true → ∃ w, x = .edge (.pls n) w) ∧
    ((s.pls n).prevValid = true → (t.pls n).prevValid = false → x = .reset (.pls n) ∨ x = .cancel (.pls n)) := by
  obtain same | ⟨w, rfl, after⟩ | ⟨off, after⟩ := pls_step h next n
  · simp +contextual [same]
  · simp [after]
  · simp [after, off, Pls.reset]

theorem inCode_writers (h : s.inputs = x :: rest) (next : step s = .next t) (n : Nat) :
    let ivl (w : BitVec 33) : Tick := interval (s.etd n).prev (ev33Tick w)
    ((s.etd n).inCode = false → (t.etd n).inCode = true →
      ∃ w, x = .edge (.etd n) w ∧ (s.etd n).prevValid = true ∧ 10000 < (ivl w).toNat) ∧
    ((s.etd n).inCode = true → (t.etd n).inCode = false → (x = .reset (.etd n) ∨ x = .cancel (.etd n)) ∨
      ∃ w, x = .edge (.etd n) w ∧ (s.etd n).prevValid = true ∧
        let i := decodeIvl n true (s.etd n).bitsSeen (ivl w)
        i = .inv n (ivl w) ∨ ((i = .bit0 n (ivl w) ∨ i = .bit1 n (ivl w)) ∧ (s.etd n).bitsSeen = 39)) := by
  obtain same | ⟨w, rfl, after⟩ | ⟨off, after⟩ := etd_step h next n
  · simp +contextual [same]
  · rw [after]
    exact ⟨fun off on => ⟨w, rfl, afterEdge_sets_inCode off on⟩,
      fun on off => .inr ⟨w, rfl, afterEdge_clears_inCode on off n⟩⟩
  · simp [after, off, Etd.reset]

theorem reading_writers (h : s.inputs = x :: rest) (next : step s = .next t) (n : Nat) :
    let line := trim (s.tel n).lineBuf
    ((s.tel n).reading = false → (t.tel n).reading = true → x = .byte n Config.eol ∧ line.head? = some chSlash) ∧
    ((s.tel n).reading = true → (t.tel n).reading = false → (x = .reset (.tel n) ∨ x = .cancel (.tel n)) ∨
      (x = .byte n Config.eol ∧ (line.head? = some chBang ∨ lineRaises line = true))) := by
  obtain same | ⟨b, rfl, after⟩ | ⟨off, after⟩ := tel_step h next n
  · simp +contextual [same]
  · rw [after]
    refine ⟨fun off on => ?_, fun on off => .inr ?_⟩
    · obtain ⟨rfl, start⟩ := afterByte_sets_reading off on
      exact ⟨rfl, start⟩
    · obtain ⟨rfl, ends⟩ := afterByte_clears_reading on off
      exact ⟨rfl, ends⟩
  · simp [after, off, Tel.reset]

end

/-- Settles O57, flag by flag. -/
theorem flagsHaveListedWriters : Obligations.FlagsHaveListedWriters := by
  intro s t x rest n h next
  obtain ⟨etdSet, etdCleared⟩ := etd_prevValid_writers h next n
  obtain ⟨plsSet, plsCleared⟩ := pls_prevValid_writers h next n
  obtain ⟨inCodeSet, inCodeCleared⟩ := inCode_writers h next n
  obtain ⟨readingSet, readingCleared⟩ := reading_writers h next n
  exact ⟨etdSet, etdCleared, plsSet, plsCleared, inCodeSet, inCodeCleared, readingSet, readingCleared⟩

end Sys2Proof.Machine
end

section
/-! PROOFS. Each step belongs to one unit (R48, R204): it runs the operation its input decodes to, what it does to that
unit and emits depends on that unit and the input alone, and no operation touches another unit. -/

namespace Sys2Proof.Machine

/-! ## A step sees its own unit and input -/

/-- Two steps do the same: unit `u` ends in the same state, and both emit the same. -/
def SameAt (u : UnitRef) (s s' t t' : State) : Prop :=
  t.AgreeOn t' u ∧ ∃ emitted, t.outputs = s.outputs ++ emitted ∧ t'.outputs = s'.outputs ++ emitted

/-- What is known of the next state a step has, for the next state at hand. -/
theorem holds_of_step {s t : State} {P : State → Prop} (next : step s = .next t)
    (h : ∃ t, step s = .next t ∧ P t) : P t := by
  obtain ⟨_, next', ht⟩ := h
  cases next.symm.trans next'
  exact ht

section
variable {n : Nat} {os : List Output} {rest rest' : List Transaction} {s s' t t' : State}

theorem StepsEtd.sameAt {e : Etd} (st : StepsEtd n e os { s with inputs := rest } t)
    (st' : StepsEtd n e os { s' with inputs := rest' } t') : SameAt (.etd n) s s' t t' :=
  ⟨st.self.trans st'.self.symm, os, st.outputs, st'.outputs⟩

theorem StepsPls.sameAt {p : Pls} (st : StepsPls n p os { s with inputs := rest } t)
    (st' : StepsPls n p os { s' with inputs := rest' } t') : SameAt (.pls n) s s' t t' :=
  ⟨st.self.trans st'.self.symm, os, st.outputs, st'.outputs⟩

theorem StepsTel.sameAt {u : Tel} (st : StepsTel n u os { s with inputs := rest } t)
    (st' : StepsTel n u os { s' with inputs := rest' } t') : SameAt (.tel n) s s' t t' :=
  ⟨st.self.trans st'.self.symm, os, st.outputs, st'.outputs⟩

/-- A control input loads the same value whatever the two states hold. -/
theorem sameAt_off {x : Transaction} {u : UnitRef} (h : s.inputs = x :: rest) (h' : s'.inputs = x :: rest')
    (off : x = .reset u ∨ x = .cancel u) (next : step s = .next t) (next' : step s' = .next t') :
    SameAt u s s' t t' := by
  cases u with
  | etd n => exact (holds_of_step next (step_offEtd h off)).sameAt (holds_of_step next' (step_offEtd h' off))
  | pls n => exact (holds_of_step next (step_offPls h off)).sameAt (holds_of_step next' (step_offPls h' off))
  | tel n => exact (holds_of_step next (step_offTel h off)).sameAt (holds_of_step next' (step_offTel h' off))

end

/-- Settles O53: the unit's next state and the outputs are functions of the unit's state and the input. -/
theorem unitStepDependsOnUnitAlone : Obligations.UnitStepDependsOnUnitAlone := by
  intro s s' t t' x rest rest' h h' agree next next'
  cases x with
  | edge u w =>
    cases u with
    | etd n =>
      have same : s.etd n = s'.etd n := agree
      exact (holds_of_step next (step_etd h)).sameAt (same ▸ holds_of_step next' (step_etd h'))
    | pls n =>
      have same : s.pls n = s'.pls n := agree
      exact (holds_of_step next (step_pls h)).sameAt (same ▸ holds_of_step next' (step_pls h'))
  | byte n b =>
    have same : s.tel n = s'.tel n := agree
    exact (holds_of_step next (step_tel h)).sameAt (same ▸ holds_of_step next' (step_tel h'))
  | reset u => exact sameAt_off h h' (.inl rfl) next next'
  | cancel u => exact sameAt_off h h' (.inr rfl) next next'

/-! ## The frame of an operation -/

/-- From `s` to `t` no input is consumed, and every unit but `u` is unchanged. -/
def OthersKept (u : UnitRef) (s t : State) : Prop := t.inputs = s.inputs ∧ ∀ v : UnitRef, v ≠ u → s.AgreeOn t v

/-- A meaning's next state, where there is one, leaves every unit but `u` unchanged. -/
def FramedBy (u : UnitRef) (s : State) (r : Result) : Prop := ∀ t, r = .next t → OthersKept u s t

section
variable {n : Nat} {os : List Output} {u : UnitRef} {r : Result} {s s' t : State}

theorem agreeOn_trans (h : s.AgreeOn s' u) (h' : s'.AgreeOn t u) : s.AgreeOn t u := by
  cases u with
  | etd n | pls n | tel n => exact Eq.trans h h'

theorem OthersKept.trans (h : OthersKept u s s') (h' : OthersKept u s' t) : OthersKept u s t := by
  obtain ⟨inputs, kept⟩ := h
  obtain ⟨inputs', kept'⟩ := h'
  exact ⟨inputs'.trans inputs, fun v hv => agreeOn_trans (kept v hv) (kept' v hv)⟩

theorem StepsEtd.othersKept {e : Etd} (st : StepsEtd n e os s t) : OthersKept (.etd n) s t := by
  refine ⟨st.inputs, fun v hv => ?_⟩
  cases v with
  | etd m => exact (st.etd m fun h => hv (h ▸ rfl)).symm
  | pls m => exact (st.pls m).symm
  | tel m => exact (st.tel m).symm

theorem StepsPls.othersKept {p : Pls} (st : StepsPls n p os s t) : OthersKept (.pls n) s t := by
  refine ⟨st.inputs, fun v hv => ?_⟩
  cases v with
  | etd m => exact (st.etd m).symm
  | pls m => exact (st.pls m fun h => hv (h ▸ rfl)).symm
  | tel m => exact (st.tel m).symm

theorem StepsTel.othersKept {v : Tel} (st : StepsTel n v os s t) : OthersKept (.tel n) s t := by
  refine ⟨st.inputs, fun v hv => ?_⟩
  cases v with
  | etd m => exact (st.etd m).symm
  | pls m => exact (st.pls m).symm
  | tel m => exact (st.tel m fun h => hv (h ▸ rfl)).symm

/-! ### Framed meanings -/

theorem framedBy_next (h : OthersKept u s t) : FramedBy u s (.next t) := by
  rintro _ ⟨⟩
  exact h

/-- Writes of `u` first, then a framed meaning. -/
theorem OthersKept.framedBy (h : OthersKept u s s') (hr : FramedBy u s' r) : FramedBy u s r :=
  fun t next => h.trans (hr t next)

/-- A guarded meaning need only be framed where it is selected. -/
theorem framedBy_whenSelected {c : Prop} [Decidable c] (h : c → FramedBy u s r) : FramedBy u s (whenSelected c r) := by
  intro t next
  obtain ⟨selected, next⟩ := whenSelected_next.1 next
  exact h selected t next

theorem framedBy_setEtd (e : Etd) : FramedBy (.etd n) s (.next (s.setEtd n e)) :=
  framedBy_next (StepsEtd.set s n e).othersKept

theorem framedBy_setTel (v : Tel) : FramedBy (.tel n) s (.next (s.setTel n v)) :=
  framedBy_next (StepsTel.set s n v).othersKept

theorem framedBy_hold : FramedBy u s (.next s) := framedBy_next ⟨rfl, fun v _ => by cases v <;> rfl⟩

theorem framedBy_of_stepsEtd {e : Etd} (h : ∃ t, r = .next t ∧ StepsEtd n e os s t) : FramedBy (.etd n) s r := by
  obtain ⟨t, rfl, st⟩ := h
  exact framedBy_next st.othersKept

theorem framedBy_of_stepsPls {p : Pls} (h : ∃ t, r = .next t ∧ StepsPls n p os s t) : FramedBy (.pls n) s r := by
  obtain ⟨t, rfl, st⟩ := h
  exact framedBy_next st.othersKept

theorem framedBy_of_stepsTel {v : Tel} (h : ∃ t, r = .next t ∧ StepsTel n v os s t) : FramedBy (.tel n) s r := by
  obtain ⟨t, rfl, st⟩ := h
  exact framedBy_next st.othersKept

end

/-! ### Meanings that do more than write their unit once -/

section
variable (n : Nat) (s : State)

theorem execEdgeFirst_framedBy (u : EdgeUnit) (level : Bool) (tick : Tick) :
    FramedBy (Port.edge u).unit s (execEdgeFirst u level tick s) := by
  refine framedBy_whenSelected fun _ => framedBy_next ?_
  cases u with
  | etd n => exact (StepsEtd.set s n _).othersKept.trans (StepsEtd.set _ n _).othersKept
  | pls n => exact (StepsPls.set s n _).othersKept.trans (StepsPls.set _ n _).othersKept

theorem execEdgeNext_framedBy (u : EdgeUnit) (level : Bool) (tick : Tick) :
    FramedBy (Port.edge u).unit s (execEdgeNext u level tick s) := by
  refine framedBy_whenSelected fun _ => ?_
  cases u with
  | etd n => exact (StepsEtd.set s n _).othersKept.framedBy (framedBy_of_stepsEtd (performIvl_steps n _ _))
  | pls n => exact (StepsPls.set s n _).othersKept.framedBy (framedBy_of_stepsPls (performPls_steps n level _ _))

theorem execDone_framedBy : FramedBy (.etd n) s (execDone n s) := by
  refine framedBy_whenSelected fun done => ?_
  rw [← execDone_eq done]
  exact framedBy_of_stepsEtd (execDone_steps done)

theorem execLineEnd_framedBy (digits : Bytes) : FramedBy (.tel n) s (execLineEnd n digits s) := by
  intro t next
  obtain ⟨reading, -⟩ := whenSelected_next.1 next
  exact framedBy_of_stepsTel (execLineEnd_steps reading (line := chBang :: digits) rfl) t next

theorem execLineContent_framedBy (line : Bytes) : FramedBy (.tel n) s (execLineContent n line s) := by
  refine framedBy_whenSelected fun content => ?_
  obtain ⟨reading, -⟩ := (lineClass_content_iff _ _).1 content
  exact (StepsTel.set s n _).othersKept.framedBy
    (framedBy_of_stepsTel (performContent_steps (by simpa using reading) line))

theorem execByteEol_framedBy : FramedBy (.tel n) s (execByteEol n s) :=
  (StepsTel.set s n _).othersKept.framedBy (framedBy_of_stepsTel (performLine_steps n _ _))

theorem numericField_framedBy (code : ErrorCode) (line : Bytes) (operand : Option Nat)
    (write : Packet → BitVec 64 → Packet) : FramedBy (.tel n) s (numericField n code line operand write s) := by
  intro t next
  obtain ⟨reading, -⟩ := whenSelected_next.1 next
  exact framedBy_of_stepsTel (numericField_steps reading code line operand write) t next

theorem kwhField_framedBy (oid value1 : Bytes) (groups : List Bytes) (write : Packet → BitVec 64 → Packet) :
    FramedBy (.tel n) s (kwhField n oid value1 groups write s) := numericField_framedBy n s _ _ _ _

theorem gasField_framedBy (oid value1 : Bytes) (groups : List Bytes) :
    FramedBy (.tel n) s (gasField n oid value1 groups s) := numericField_framedBy n s _ _ _ _

theorem resetUnit_framedBy (u : UnitRef) : FramedBy u s (.next (s.resetUnit u)) := by
  cases u with
  | etd n => exact framedBy_setEtd _
  | pls n => exact framedBy_next (StepsPls.set s n _).othersKept
  | tel n => exact framedBy_setTel _

/-- Every operation is framed by its own unit. -/
theorem exec_framedBy (i : Instr) : FramedBy i.unit s (exec i s) := by
  cases i with
  | edgeFirst u level tick => exact execEdgeFirst_framedBy s u level tick
  | edgeNext u level tick => exact execEdgeNext_framedBy s u level tick
  | sync n ivl | pre n ivl | inv n ivl => exact framedBy_whenSelected fun _ => framedBy_setEtd _
  | bit0 n ivl | bit1 n ivl => exact framedBy_whenSelected fun _ => framedBy_of_stepsEtd (finishBit_steps s n _)
  | done n => exact execDone_framedBy n s
  | pulse n ivl => exact framedBy_whenSelected fun _ => framedBy_next ((StepsPls.hold s n).emit _).othersKept
  | byteEol n => exact execByteEol_framedBy n s
  | byteData n b => exact framedBy_whenSelected fun _ => framedBy_setTel _
  | lineStart n header => exact framedBy_whenSelected fun _ => framedBy_setTel _
  | lineEnd n digits => exact execLineEnd_framedBy n s digits
  | lineContent n line => exact execLineContent_framedBy n s line
  | fieldEid n v gs => exact framedBy_whenSelected fun _ => framedBy_setTel _
  | fieldTariff => unfold exec; apply numericField_framedBy
  | fieldLow | fieldHigh | fieldCurrent => unfold exec; apply kwhField_framedBy
  | fieldGas1 n v gs | fieldGas2 n v gs | fieldGas3 n v gs | fieldGas4 n v gs =>
    exact gasField_framedBy n s _ v gs
  | idle | debounce | lineSkip | lineNomatch | fieldOther => exact framedBy_whenSelected fun _ => framedBy_hold
  | crcByte n b => exact framedBy_setTel _
  | reset u | cancel u => exact resetUnit_framedBy s u

end

/-- The operation an input decodes to is its unit's. -/
theorem unit_decodeTransaction (c : Control) (x : Transaction) : (decodeTransaction c x).unit = x.port.unit := by
  cases x with
  | edge u w => simp only [decodeTransaction, decodeEdge]; split_ifs <;> rfl
  | byte n b => simp only [decodeTransaction, decodeByte]; split_ifs <;> rfl
  | reset u | cancel u => rfl

/-- Settles O52: the frame of `exec`, and for a step that of the operation its input decodes to. -/
theorem otherUnitsAreUnchanged : Obligations.OtherUnitsAreUnchanged := by
  refine ⟨fun i s t next => exec_framedBy s i t next, fun s t x rest h next => ?_⟩
  rw [step_cons h] at next
  have frame := exec_framedBy _ _ t next
  rw [unit_decodeTransaction] at frame
  exact frame

/-! ## A step runs the operation its input decodes to (R60) -/

/-- An EV33 word reads back from its bytes. -/
@[simp] theorem word33_leBytes (w : BitVec 33) : word33 (leBytes 5 w.toNat) = .ok w := by
  have back : leNat (leBytes 5 w.toNat) = w.toNat := leNat_leBytes 5 (by omega)
  simp [word33, back, w.isLt]

/-- The word of an input, presented at its port, decodes to the operation the step performs. -/
theorem decode_transaction (c : Control) (x : Transaction) :
    decode x.port c x.bytes = .ok (decodeTransaction c x) := by
  cases x with
  | edge u w => simp only [Transaction.port, Transaction.bytes, decode, word33_leBytes]; rfl
  | byte n b | reset u | cancel u => rfl

/-- Pending inputs select nothing. -/
@[simp] theorem control_inputs (s : State) (ts : List Transaction) (p : Port) :
    State.control { s with inputs := ts } p = s.control p := rfl

/-- Settles O45: the operation that `step` performs is the one decoded from the input's word. -/
theorem stepRunsDecodedOperation : Obligations.StepRunsDecodedOperation := by
  refine ⟨fun s x rest i h decoded => ?_, fun s h => step_nil h⟩
  cases (decode_transaction _ x).symm.trans decoded
  rw [step_cons h, control_inputs]

end Sys2Proof.Machine
end

section
/-! PROOFS. The field grammar (R69 to R72): what the parser accepts, and which identifier each class has. -/

namespace Sys2Proof

/-! ## Characters -/

theorem isDigit_iff (b : Byte) : isDigit b = true ↔ 0x30 ≤ b.toNat ∧ b.toNat ≤ 0x39 := by simp [isDigit]

theorem isIdch_iff (b : Byte) :
    isIdch b = true ↔ (0x30 ≤ b.toNat ∧ b.toNat ≤ 0x39) ∨ b = 0x2D ∨ b = 0x3A ∨ b = 0x2E := by
  simp [isIdch, isDigit_iff, or_assoc]

theorem groupsOk_iff (value1 : Bytes) (groups : List Bytes) :
    groupsOk value1 groups = true ↔ ∀ v ∈ value1 :: groups, ∀ b ∈ v, b ≠ chOpen ∧ b ≠ chClose := by
  simp only [groupsOk, List.all_eq_true, isVch, Bool.and_eq_true, bne_iff_ne]

/-- Bytes with a property are all that is taken, where the rest does not begin with one. -/
theorem takeWhile_dropWhile_append {p : Byte → Bool} {front rest : Bytes} (hf : ∀ b ∈ front, p b = true)
    (hr : ∀ b, rest.head? = some b → p b = false) :
    (front ++ rest).takeWhile p = front ∧ (front ++ rest).dropWhile p = rest := by
  rw [List.takeWhile_append_of_pos hf, List.dropWhile_append_of_pos hf]
  cases rest with
  | nil => simp
  | cons b rest => simp [hr b rfl]

/-! ## The parser (R69) -/

theorem parseField_fieldText {oid value1 : Bytes} {groups : List Bytes} (ne : oid ≠ [])
    (ids : ∀ b ∈ oid, isIdch b = true) (ok : groupsOk value1 groups = true) :
    parseField (fieldText oid value1 groups) = some ⟨oid, value1, groups⟩ := by
  have scan := scanGroups_text ((groupsOk_iff value1 groups).1 ok)
  obtain ⟨take, drop⟩ := takeWhile_dropWhile_append (p := isIdch) (rest := (value1 :: groups).flatMap groupText) ids
    (by rintro b ⟨⟩; decide)
  have text : fieldText oid value1 groups = oid ++ (value1 :: groups).flatMap groupText := by simp [fieldText]
  rw [parseField, text]
  simp only [take, drop, scan, if_neg ne]

/-- What is parsed is an identifier and groups (R69, R70). -/
theorem parts_of_parseField {line : Bytes} {f : FieldLine} (h : parseField line = some f) :
    f.oid ≠ [] ∧ (∀ b ∈ f.oid, isIdch b = true) ∧ groupsOk f.value1 f.groups = true := by
  unfold parseField at h
  simp only at h
  split_ifs at h with ne
  split at h
  · next value1 groups scan =>
    cases h
    exact ⟨ne, fun b => List.mem_takeWhile_imp, (groupsOk_iff ..).2 (scanGroups_inv scan).2⟩
  · cases h

theorem parseField_eq_some_iff {line oid value1 : Bytes} {groups : List Bytes} :
    parseField line = some ⟨oid, value1, groups⟩ ↔
      line = fieldText oid value1 groups ∧ oid ≠ [] ∧ (∀ b ∈ oid, isIdch b = true) ∧ groupsOk value1 groups = true := by
  constructor
  · intro h
    exact ⟨(fieldText_parseField h).symm, parts_of_parseField h⟩
  · rintro ⟨rfl, ne, ids, ok⟩
    exact parseField_fieldText ne ids ok

/-- Settles O28: the parser and the text of the parts are inverse to each other. -/
theorem fieldGrammarIsParsed : Obligations.FieldGrammarIsParsed := by
  intro line oid value1 groups group
  rw [parseField_eq_some_iff, groupsOk_iff]
  simp only [isIdch_iff]
  exact Iff.rfl

/-! ## The dispatch table (R72) -/

/-- Settles O29: the class names its identifier, and the identifier is found in the table. -/
theorem fieldDispatchTable : Obligations.FieldDispatchTable := fun _ =>
  ⟨⟨oid_eid, (· ▸ rfl)⟩, ⟨oid_tariff, (· ▸ rfl)⟩, ⟨oid_low, (· ▸ rfl)⟩, ⟨oid_high, (· ▸ rfl)⟩,
    ⟨oid_current, (· ▸ rfl)⟩, ⟨oid_gas1, (· ▸ rfl)⟩, ⟨oid_gas2, (· ▸ rfl)⟩, ⟨oid_gas3, (· ▸ rfl)⟩, ⟨oid_gas4, (· ▸ rfl)⟩⟩

end Sys2Proof
end

section
/-! PROOFS. Decoding and encoding (R60 to R72): what a port answers is an operation of that port, with that word, whose
row selects it; and an operation's word, presented where its row selects it, decodes to the operation. -/

namespace Sys2Proof

open Machine

/-! ## Words -/

/-- A decoded word gives an operation exactly when the word is valid and the operation is the selected one. -/
theorem map_eq_ok_iff {α : Type} {x : Except Reject α} {f : α → Instr} {i : Instr} :
    x.map f = .ok i ↔ ∃ a, x = .ok a ∧ f a = i := by
  cases x <;> simp [Except.map]

theorem word33_eq_ok_iff {bs : Bytes} {w : BitVec 33} : word33 bs = .ok w ↔ bs = leBytes 5 w.toNat := by
  constructor
  · intro h
    unfold word33 at h
    split_ifs at h with len small
    cases h
    rw [BitVec.toNat_ofNat, Nat.mod_eq_of_lt small, ← not_not.1 len, leBytes_leNat]
  · rintro rfl
    exact word33_leBytes w

theorem word32_eq_ok_iff {bs : Bytes} {w : Tick} : word32 bs = .ok w ↔ bs = leBytes 4 w.toNat := by
  constructor
  · intro h
    unfold word32 at h
    split_ifs at h with len
    have small : leNat bs < 2 ^ 32 := (leNat_lt bs).trans_eq (by simp [not_not.1 len])
    cases h
    rw [BitVec.toNat_ofNat, Nat.mod_eq_of_lt small, ← not_not.1 len, leBytes_leNat]
  · rintro rfl
    have back : leNat (leBytes 4 w.toNat) = w.toNat := leNat_leBytes 4 w.isLt
    simp [word32, back]

theorem word8_eq_ok_iff {bs : Bytes} {b : Byte} : word8 bs = .ok b ↔ bs = [b] := by
  obtain _ | ⟨b', _ | ⟨_, _⟩⟩ := bs <;> simp [word8]

theorem wordLine_eq_ok_iff {bs line : Bytes} : wordLine bs = .ok line ↔ bs = line ∧ trim line = line := by
  unfold wordLine
  split_ifs with trimmed
  · simp only [Except.ok.injEq]
    exact ⟨fun h => ⟨h, h ▸ trimmed⟩, And.left⟩
  · simp only [false_iff]
    rintro ⟨rfl, h⟩
    exact trimmed h

theorem wordContent_eq_ok_iff {reading : Bool} {bs line : Bytes} :
    wordContent reading bs = .ok line ↔
      bs = line ∧ reading = true ∧ line.head? ≠ some chBang ∧ trim line = line := by
  unfold wordContent
  split_ifs with off ends
  · simp [off]
  · simp only [false_iff]
    rintro ⟨rfl, -, content, -⟩
    exact content ends
  · rw [wordLine_eq_ok_iff]
    constructor
    · rintro ⟨rfl, trimmed⟩
      exact ⟨rfl, by simpa using off, ends, trimmed⟩
    · rintro ⟨rfl, -, -, trimmed⟩
      exact ⟨rfl, trimmed⟩

theorem noWord_eq_ok_iff {bs : Bytes} {i j : Instr} : noWord i bs = .ok j ↔ bs = [] ∧ i = j := by
  cases bs <;> simp [noWord]

/-! ## What is decoded is selected -/

/-- At port `p` in control state `c` the operation `i` has the word `bs`, and its row selects it. -/
def IsWordOf (p : Port) (c : Control) (bs : Bytes) (i : Instr) : Prop :=
  i.port = p ∧ encode i = bs ∧ i.wf = true ∧ i.selectedIn c = true

section
variable (n : Nat) (c : Control)

theorem isWordOf_decodeEdge (u : EdgeUnit) (w : BitVec 33) :
    IsWordOf (.edge u) c (leBytes 5 w.toNat) (decodeEdge u c.prevValid w) := by
  have word : leBytes 5 (ev33 (ev33Level w) (ev33Tick w)).toNat = leBytes 5 w.toNat := by rw [ev33_of_word]
  unfold decodeEdge
  split_ifs with first
  · exact ⟨rfl, word, rfl, by simp [Instr.selectedIn, first]⟩
  · exact ⟨rfl, word, rfl, by simpa [Instr.selectedIn] using first⟩

/-- The row of an interval class selects it exactly where the class table does (R65). -/
theorem ivlClass_eq_iff_selected (k : IvlClass) (ivl : Tick) :
    ivlClass c.inCode c.bitsSeen ivl = k ↔ (k.toInstr n ivl).wf = true ∧ (k.toInstr n ivl).selectedIn c = true := by
  cases k with
  | sync => simp [ivlClass_sync_iff, IvlClass.toInstr, Instr.wf, Instr.selectedIn]
  | idle => simp [ivlClass_idle_iff, IvlClass.toInstr, Instr.wf, Instr.selectedIn]
  | pre => simp [ivlClass_pre_iff, IvlClass.toInstr, Instr.wf, Instr.selectedIn, atDataBit_false_iff]
  | bit0 => simp [ivlClass_bit0_iff, IvlClass.toInstr, Instr.wf, Instr.selectedIn, atDataBit_iff, and_assoc,
      and_left_comm, and_comm]
  | bit1 => simp [ivlClass_bit1_iff, IvlClass.toInstr, Instr.wf, Instr.selectedIn, atDataBit_iff, and_assoc,
      and_left_comm, and_comm]
  | inv => simp [ivlClass_inv_iff, IvlClass.toInstr, Instr.wf, Instr.selectedIn, atDataBit_iff, and_assoc,
      and_comm]

theorem isWordOf_decodeIvl (ivl : Tick) :
    IsWordOf (.ivl n) c (leBytes 4 ivl.toNat) (decodeIvl n c.inCode c.bitsSeen ivl) := by
  have selected := (ivlClass_eq_iff_selected n c _ ivl).1 rfl
  unfold decodeIvl
  refine ⟨?_, ?_, selected⟩ <;> cases ivlClass c.inCode c.bitsSeen ivl <;> rfl

theorem isWordOf_decodePls (w : BitVec 33) :
    IsWordOf (.pulse n) c (leBytes 5 w.toNat) (decodePls n (ev33Level w) (ev33Tick w)) := by
  unfold decodePls
  cases cls : plsClass (ev33Level w) (ev33Tick w) with
  | pulse =>
    obtain ⟨rising, long⟩ := (plsClass_pulse_iff ..).1 cls
    refine ⟨rfl, ?_, decide_eq_true long, rfl⟩
    simp only [PlsClass.toInstr, encode]
    rw [← rising, ev33_of_word]
  | debounce =>
    refine ⟨rfl, ?_, ?_, rfl⟩
    · simp only [PlsClass.toInstr, encode, ev33_of_word]
    · simpa [PlsClass.toInstr, Instr.wf] using (plsClass_debounce_iff ..).1 cls

theorem isWordOf_decodeByte (b : Byte) : IsWordOf (.byte n) c [b] (decodeByte n b) := by
  unfold decodeByte
  split_ifs with eol
  · exact ⟨rfl, by rw [eol]; rfl, rfl, rfl⟩
  · exact ⟨rfl, rfl, bne_iff_ne.2 eol, rfl⟩

theorem lineOk_iff (line : Bytes) : lineOk line = true ↔ trim line = line := beq_iff_eq

theorem isWordOf_decodeLine {line : Bytes} (trimmed : trim line = line) :
    IsWordOf (.line n) c line (decodeLine n c.reading line) := by
  have ok := (lineOk_iff line).2 trimmed
  unfold decodeLine
  cases cls : lineClass c.reading line with
  | start =>
    obtain ⟨off, head⟩ := (lineClass_start_iff ..).1 cls
    have whole := cons_drop_of_head head
    exact ⟨rfl, whole, (congrArg lineOk whole).trans ok, by simp [LineClass.toInstr, Instr.selectedIn, off]⟩
  | skip =>
    obtain ⟨off, head⟩ := (lineClass_skip_iff ..).1 cls
    exact ⟨rfl, rfl, by simp [LineClass.toInstr, Instr.wf, ok, head],
      by simp [LineClass.toInstr, Instr.selectedIn, off]⟩
  | finish =>
    obtain ⟨on, head⟩ := (lineClass_finish_iff ..).1 cls
    have whole := cons_drop_of_head head
    exact ⟨rfl, whole, (congrArg lineOk whole).trans ok, on⟩
  | content =>
    obtain ⟨on, head⟩ := (lineClass_content_iff ..).1 cls
    exact ⟨rfl, rfl, by simp [LineClass.toInstr, Instr.wf, ok, head], on⟩

/-- The word of a field operation is its line: each class has its own identifier (R72). -/
theorem encode_fieldKind (f : FieldLine) :
    encode ((fieldKind f.oid).toInstr n f) = fieldText f.oid f.value1 f.groups := by
  cases h : fieldKind f.oid with
  | eid => rw [oid_eid h]; rfl
  | tariff => rw [oid_tariff h]; rfl
  | low => rw [oid_low h]; rfl
  | high => rw [oid_high h]; rfl
  | current => rw [oid_current h]; rfl
  | gas1 => rw [oid_gas1 h]; rfl
  | gas2 => rw [oid_gas2 h]; rfl
  | gas3 => rw [oid_gas3 h]; rfl
  | gas4 => rw [oid_gas4 h]; rfl
  | other => rfl

theorem wf_fieldKind {f : FieldLine} (ne : f.oid ≠ []) (ids : ∀ b ∈ f.oid, isIdch b = true)
    (ok : groupsOk f.value1 f.groups = true) : ((fieldKind f.oid).toInstr n f).wf = true := by
  cases h : fieldKind f.oid with
  | other => simpa [FieldKind.toInstr, Instr.wf, ne, h, ok] using ids
  | _ => exact ok

theorem isWordOf_decodeContent {line : Bytes} (on : c.reading = true) (content : line.head? ≠ some chBang)
    (trimmed : trim line = line) : IsWordOf (.content n) c line (decodeContent n line) := by
  unfold decodeContent
  cases parsed : parseField line with
  | none => exact ⟨rfl, rfl, by simp [Instr.wf, lineOk_iff, trimmed, content, parsed], on⟩
  | some f =>
    obtain ⟨ne, ids, ok⟩ := parts_of_parseField parsed
    refine ⟨?_, (encode_fieldKind n f).trans (fieldText_parseField parsed), wf_fieldKind n ne ids ok, ?_⟩
    · cases h : fieldKind f.oid <;> simp only [h, FieldKind.toInstr, Instr.port]
    · cases h : fieldKind f.oid <;> simp only [h, FieldKind.toInstr, Instr.selectedIn, on]

end

/-- What a port answers is an operation of that port with that word, which the control state selects. -/
theorem isWordOf_of_decode {p : Port} {c : Control} {bs : Bytes} {i : Instr} (h : decode p c bs = .ok i) :
    IsWordOf p c bs i := by
  cases p with
  | edge u =>
    obtain ⟨w, word, rfl⟩ := map_eq_ok_iff.1 h
    exact word33_eq_ok_iff.1 word ▸ isWordOf_decodeEdge c u w
  | ivl n =>
    obtain ⟨ivl, word, rfl⟩ := map_eq_ok_iff.1 h
    exact word32_eq_ok_iff.1 word ▸ isWordOf_decodeIvl n c ivl
  | pulse n =>
    obtain ⟨w, word, rfl⟩ := map_eq_ok_iff.1 h
    exact word33_eq_ok_iff.1 word ▸ isWordOf_decodePls n c w
  | byte n =>
    obtain ⟨b, word, rfl⟩ := map_eq_ok_iff.1 h
    exact word8_eq_ok_iff.1 word ▸ isWordOf_decodeByte n c b
  | line n =>
    obtain ⟨line, word, rfl⟩ := map_eq_ok_iff.1 h
    obtain ⟨rfl, trimmed⟩ := wordLine_eq_ok_iff.1 word
    exact isWordOf_decodeLine n c trimmed
  | content n =>
    obtain ⟨line, word, rfl⟩ := map_eq_ok_iff.1 h
    obtain ⟨rfl, on, content, trimmed⟩ := wordContent_eq_ok_iff.1 word
    exact isWordOf_decodeContent n c on content trimmed
  | crc n =>
    obtain ⟨b, word, rfl⟩ := map_eq_ok_iff.1 h
    exact ⟨rfl, (word8_eq_ok_iff.1 word).symm, rfl, rfl⟩
  | done n =>
    unfold decode at h
    split_ifs at h with full
    obtain ⟨rfl, rfl⟩ := noWord_eq_ok_iff.1 h
    exact ⟨rfl, rfl, rfl, by simp [Instr.selectedIn, full]⟩
  | reset u | cancel u =>
    obtain ⟨rfl, rfl⟩ := noWord_eq_ok_iff.1 h
    exact ⟨rfl, rfl, rfl, rfl⟩

/-! ## What is selected is decoded -/

/-- An identifier byte is neither whitespace nor `'!'`. -/
theorem not_isWs_of_isIdch : ∀ b : Byte, isIdch b = true → isWs b = false ∧ b ≠ chBang := by decide

theorem getLast?_groupTexts (value1 : Bytes) (groups : List Bytes) :
    ((value1 :: groups).flatMap groupText).getLast? = some chClose := by
  induction groups generalizing value1 with
  | nil => rw [List.flatMap_singleton]; exact List.getLast?_concat (l := chOpen :: value1)
  | cons v groups ih => rw [List.flatMap_cons, List.getLast?_append, ih]; rfl

/-- The text of a field line begins with an identifier byte and ends with a parenthesis: it is a content line. -/
theorem fieldText_isContent {oid : Bytes} (ne : oid ≠ []) (ids : ∀ b ∈ oid, isIdch b = true) (value1 : Bytes)
    (groups : List Bytes) :
    (fieldText oid value1 groups).head? ≠ some chBang ∧
      trim (fieldText oid value1 groups) = fieldText oid value1 groups := by
  have text : fieldText oid value1 groups = oid ++ (value1 :: groups).flatMap groupText := by simp [fieldText]
  obtain ⟨b, oid, rfl⟩ := List.exists_cons_of_ne_nil ne
  obtain ⟨notWs, notBang⟩ := not_isWs_of_isIdch b (ids b (by simp))
  rw [text]
  refine ⟨by simpa using notBang, trim_of_ends ?_ ?_⟩
  · rintro _ ⟨⟩
    exact notWs
  · rw [List.getLast?_append, getLast?_groupTexts]
    rintro _ ⟨⟩
    decide

section
variable {n : Nat} {c : Control}

theorem decode_edge (u : EdgeUnit) (level : Bool) (tick : Tick) :
    decode (.edge u) c (leBytes 5 (ev33 level tick).toNat) = .ok (decodeEdge u c.prevValid (ev33 level tick)) :=
  map_eq_ok_iff.2 ⟨_, word33_leBytes _, rfl⟩

/-- The word of an interval class decodes to it where its row selects it. -/
theorem decode_ivl_of_selected (k : IvlClass) {ivl : Tick} (wf : (k.toInstr n ivl).wf = true)
    (selected : (k.toInstr n ivl).selectedIn c = true) :
    decode (.ivl n) c (leBytes 4 ivl.toNat) = .ok (k.toInstr n ivl) := by
  have cls := (ivlClass_eq_iff_selected n c k ivl).2 ⟨wf, selected⟩
  exact map_eq_ok_iff.2 ⟨ivl, word32_eq_ok_iff.2 rfl, by rw [decodeIvl, cls]⟩

theorem decode_pulse_of_class {k : PlsClass} {level : Bool} {ivl : Tick} (cls : plsClass level ivl = k) :
    decode (.pulse n) c (leBytes 5 (ev33 level ivl).toNat) = .ok (k.toInstr n level ivl) :=
  map_eq_ok_iff.2 ⟨_, word33_leBytes _, by simp only [ev33Level_ev33, ev33Tick_ev33, decodePls, cls]⟩

theorem decode_line_of_class {k : LineClass} {line : Bytes} (ok : lineOk line = true)
    (cls : lineClass c.reading line = k) : decode (.line n) c line = .ok (k.toInstr n line) :=
  map_eq_ok_iff.2 ⟨line, wordLine_eq_ok_iff.2 ⟨rfl, (lineOk_iff line).1 ok⟩, by rw [decodeLine, cls]⟩

/-- The text of a field line decodes to the class of its identifier. -/
theorem decode_fieldText (k : FieldKind) {oid value1 : Bytes} {groups : List Bytes} (kind : fieldKind oid = k)
    (ne : oid ≠ []) (ids : ∀ b ∈ oid, isIdch b = true) (ok : groupsOk value1 groups = true) (on : c.reading = true) :
    decode (.content n) c (fieldText oid value1 groups) = .ok (k.toInstr n ⟨oid, value1, groups⟩) := by
  obtain ⟨content, trimmed⟩ := fieldText_isContent ne ids value1 groups
  refine map_eq_ok_iff.2 ⟨_, wordContent_eq_ok_iff.2 ⟨rfl, on, content, trimmed⟩, ?_⟩
  simp only [decodeContent, parseField_fieldText ne ids ok, kind]

end

/-- The word of an operation, presented at its port where its row selects it, decodes to it. -/
theorem decode_encode {i : Instr} {c : Control} (wf : i.wf = true) (selected : i.selectedIn c = true) :
    decode i.port c (encode i) = .ok i := by
  cases i with
  | edgeFirst u level tick =>
    have first : c.prevValid = false := by simpa [Instr.selectedIn] using selected
    exact (decode_edge u level tick).trans (by simp [decodeEdge, first])
  | edgeNext u level tick =>
    have valid : c.prevValid = true := selected
    exact (decode_edge u level tick).trans (by simp [decodeEdge, valid])
  | sync n ivl => exact decode_ivl_of_selected .sync wf selected
  | idle n ivl => exact decode_ivl_of_selected .idle wf selected
  | pre n ivl => exact decode_ivl_of_selected .pre wf selected
  | bit0 n ivl => exact decode_ivl_of_selected .bit0 wf selected
  | bit1 n ivl => exact decode_ivl_of_selected .bit1 wf selected
  | inv n ivl => exact decode_ivl_of_selected .inv wf selected
  | done n =>
    have full : c.inCode = true ∧ c.bitsSeen = Config.frameBits := by simpa [Instr.selectedIn] using selected
    exact if_pos full
  | pulse n ivl =>
    exact decode_pulse_of_class ((plsClass_pulse_iff true ivl).2 ⟨rfl, of_decide_eq_true wf⟩)
  | debounce n level ivl =>
    exact decode_pulse_of_class ((plsClass_debounce_iff level ivl).2 (by simpa [Instr.wf] using wf))
  | byteEol n => rfl
  | byteData n b =>
    have data : b ≠ Config.eol := bne_iff_ne.1 wf
    exact congrArg Except.ok (if_neg data)
  | lineStart n header =>
    exact decode_line_of_class wf ((lineClass_start_iff ..).2 ⟨by simpa [Instr.selectedIn] using selected, rfl⟩)
  | lineSkip n line =>
    obtain ⟨ok, head⟩ := Bool.and_eq_true_iff.1 wf
    exact decode_line_of_class ok
      ((lineClass_skip_iff ..).2 ⟨by simpa [Instr.selectedIn] using selected, bne_iff_ne.1 head⟩)
  | lineEnd n digits => exact decode_line_of_class wf ((lineClass_finish_iff ..).2 ⟨selected, rfl⟩)
  | lineContent n line =>
    obtain ⟨ok, head⟩ := Bool.and_eq_true_iff.1 wf
    exact decode_line_of_class ok ((lineClass_content_iff ..).2 ⟨selected, bne_iff_ne.1 head⟩)
  | lineNomatch n line =>
    simp only [Instr.wf, Bool.and_eq_true, bne_iff_ne, beq_iff_eq, lineOk_iff] at wf
    obtain ⟨⟨trimmed, content⟩, unparsed⟩ := wf
    exact map_eq_ok_iff.2
      ⟨line, wordContent_eq_ok_iff.2 ⟨rfl, selected, content, trimmed⟩, by rw [decodeContent, unparsed]⟩
  | fieldEid n v gs => exact decode_fieldText .eid (oid := oidEid) rfl (by decide) (by decide) wf selected
  | fieldTariff n v gs => exact decode_fieldText .tariff (oid := oidTariff) rfl (by decide) (by decide) wf selected
  | fieldLow n v gs => exact decode_fieldText .low (oid := oidLow) rfl (by decide) (by decide) wf selected
  | fieldHigh n v gs => exact decode_fieldText .high (oid := oidHigh) rfl (by decide) (by decide) wf selected
  | fieldCurrent n v gs => exact decode_fieldText .current (oid := oidCurrent) rfl (by decide) (by decide) wf selected
  | fieldGas1 n v gs => exact decode_fieldText .gas1 (oid := oidGas1) rfl (by decide) (by decide) wf selected
  | fieldGas2 n v gs => exact decode_fieldText .gas2 (oid := oidGas2) rfl (by decide) (by decide) wf selected
  | fieldGas3 n v gs => exact decode_fieldText .gas3 (oid := oidGas3) rfl (by decide) (by decide) wf selected
  | fieldGas4 n v gs => exact decode_fieldText .gas4 (oid := oidGas4) rfl (by decide) (by decide) wf selected
  | fieldOther n oid v gs =>
    simp only [Instr.wf, Bool.and_eq_true, bne_iff_ne, beq_iff_eq, List.all_eq_true] at wf
    obtain ⟨⟨⟨ne, ids⟩, other⟩, ok⟩ := wf
    exact decode_fieldText .other other ne ids ok selected
  | crcByte n b | reset u | cancel u => rfl

/-- Settles O43: decoding answers what the port's word selects, and a selected operation's word decodes to it. -/
theorem decodeEncodeAgree : Obligations.DecodeEncodeAgree := by
  intro p c bs i
  constructor
  · exact isWordOf_of_decode
  · rintro ⟨rfl, rfl, wf, selected⟩
    exact decode_encode wf selected

/-- Settles O42, by evaluation of the decoder on the five words. -/
theorem specWordsDecode : Obligations.SpecWordsDecode := ⟨rfl, rfl, rfl, rfl, rfl⟩

end Sys2Proof
end

section
/-! PROOFS. Class tables (R65, R66, R68) and trimming (R67), in the words of the spec. -/

namespace Sys2Proof

/-! ## Classes of an interval (R65) -/

/-- The operation names the class. -/
theorem decodeIvl_eq_toInstr_iff (n : Nat) (inCode : Bool) (bitsSeen : BitVec 8) (ivl : Tick) (k : IvlClass) :
    decodeIvl n inCode bitsSeen ivl = k.toInstr n ivl ↔ ivlClass inCode bitsSeen ivl = k := by
  unfold decodeIvl
  constructor
  · cases ivlClass inCode bitsSeen ivl <;> cases k <;> simp [IvlClass.toInstr]
  · rintro rfl
    rfl

/-- Settles O5: in the range given, counting the interval adds one to the signed `bitsSeen`. -/
theorem intervalClassTable : Obligations.IntervalClassTable := by
  intro n inCode bitsSeen ivl range i
  have position (on : inCode = true) : (1 ≤ (bitsSeen + 1).toInt ↔ 0 ≤ bitsSeen.toInt) ∧
      ((bitsSeen + 1).toInt < 1 ↔ bitsSeen.toInt = -2 ∨ bitsSeen.toInt = -1) := by
    have ⟨lo, hi⟩ := range on
    rw [succ_toInt bitsSeen (by omega)]
    omega
  have cls := decodeIvl_eq_toInstr_iff n inCode bitsSeen ivl
  refine ⟨(cls .sync).trans (ivlClass_sync_iff ..), (cls .idle).trans (ivlClass_idle_iff ..),
    (cls .pre).trans ((ivlClass_pre_iff ..).trans ?_), (cls .bit0).trans ((ivlClass_bit0_iff ..).trans ?_),
    (cls .bit1).trans ((ivlClass_bit1_iff ..).trans ?_), (cls .inv).trans ((ivlClass_inv_iff ..).trans ?_)⟩
  · exact and_congr_right fun _ => and_congr_right fun on => (position on).2
  all_goals exact and_congr_right fun on => and_congr (position on).1 (by omega)

/-! ## Classes of a pulse interval and of a line (R66, R68) -/

theorem decodePls_pulse_iff (n : Nat) (level : Bool) (ivl : Tick) :
    decodePls n level ivl = .pulse n ivl ↔ level = true ∧ 1000000 < ivl.toNat := by
  rw [← plsClass_pulse_iff, decodePls]
  cases plsClass level ivl <;> simp [PlsClass.toInstr]

theorem decodePls_debounce_iff (n : Nat) (level : Bool) (ivl : Tick) :
    decodePls n level ivl = .debounce n level ivl ↔ level = false ∨ ivl.toNat ≤ 1000000 := by
  rw [← plsClass_debounce_iff, decodePls]
  cases plsClass level ivl <;> simp [PlsClass.toInstr]

/-- A line is a byte and a rest exactly when it begins with the byte and the rest follows it. -/
theorem eq_cons_iff {line tail : Bytes} {b : Byte} : line = b :: tail ↔ line.head? = some b ∧ line.drop 1 = tail := by
  cases line <;> simp

section
variable (n : Nat) (reading : Bool) (line tail : Bytes)

theorem decodeLine_start_iff :
    decodeLine n reading line = .lineStart n tail ↔ reading = false ∧ line = chSlash :: tail := by
  rw [eq_cons_iff, ← and_assoc, ← lineClass_start_iff, decodeLine]
  cases lineClass reading line <;> simp [LineClass.toInstr]

theorem decodeLine_skip_iff :
    decodeLine n reading line = .lineSkip n line ↔ reading = false ∧ line.head? ≠ some chSlash := by
  rw [← lineClass_skip_iff, decodeLine]
  cases lineClass reading line <;> simp [LineClass.toInstr]

theorem decodeLine_end_iff :
    decodeLine n reading line = .lineEnd n tail ↔ reading = true ∧ line = chBang :: tail := by
  rw [eq_cons_iff, ← and_assoc, ← lineClass_finish_iff, decodeLine]
  cases lineClass reading line <;> simp [LineClass.toInstr]

theorem decodeLine_content_iff :
    decodeLine n reading line = .lineContent n line ↔ reading = true ∧ line.head? ≠ some chBang := by
  rw [← lineClass_content_iff, decodeLine]
  cases lineClass reading line <;> simp [LineClass.toInstr]

end

/-- Settles O21, class by class. -/
theorem lineAndPulseClassTables : Obligations.LineAndPulseClassTables :=
  ⟨fun n level ivl => ⟨decodePls_pulse_iff n level ivl, decodePls_debounce_iff n level ivl⟩,
    fun n reading line tail => ⟨decodeLine_start_iff n reading line tail, decodeLine_skip_iff n reading line,
      decodeLine_end_iff n reading line tail, decodeLine_content_iff n reading line⟩⟩

/-! ## Trimming (R67) -/

theorem isWs_iff (b : Byte) : isWs b = true ↔ b ∈ Config.ws := List.contains_iff_mem

theorem isWs_eq_false_iff (b : Byte) : isWs b = false ↔ b ∉ Config.ws := by rw [← isWs_iff, Bool.not_eq_true]

/-- A line is whitespace, its trimmed form, whitespace. -/
theorem trim_split (line : Bytes) : ∃ front back : Bytes, line = front ++ trim line ++ back ∧
    (∀ b ∈ front, isWs b = true) ∧ ∀ b ∈ back, isWs b = true := by
  refine ⟨line.takeWhile isWs, ((line.dropWhile isWs).reverse.takeWhile isWs).reverse, ?_,
    fun b => mem_takeWhile_isWs, fun b hb => mem_takeWhile_isWs (List.mem_reverse.1 hb)⟩
  rw [trim, List.append_assoc, ← List.reverse_append, List.takeWhile_append_dropWhile, List.reverse_reverse,
    List.takeWhile_append_dropWhile]

/-- Settles O20: what is cut off is whitespace, and the ends of what is left are not. -/
theorem trimRemovesOuterWhitespace : Obligations.TrimRemovesOuterWhitespace := by
  intro line ws
  obtain ⟨front, back, split, hf, hb⟩ := trim_split line
  exact ⟨⟨front, back, split, fun b h => (isWs_iff b).1 (hf b h), fun b h => (isWs_iff b).1 (hb b h)⟩,
    fun b h => (isWs_eq_false_iff b).1 (trim_head h), fun b h => (isWs_eq_false_iff b).1 (trim_last h)⟩

end Sys2Proof
end

section
/-! PROOFS. Numbers as digit strings (R73 to R76): an operand is the positional value of the digits it is written in. -/

namespace Sys2Proof.Machine

/-! ## Positional values (R76, R151) -/

/-- The value a fold reads, most significant digit first, is the library's value of the reversed digits. -/
theorem foldl_digits_eq_ofDigits (base : Nat) (value : Byte → Nat) (ds : Bytes) :
    ds.foldl (fun a b => base * a + value b) 0 = Nat.ofDigits base (ds.reverse.map value) := by
  rw [Nat.ofDigits_eq_foldr, List.foldr_map, List.foldr_reverse]
  simp only [Nat.cast_id, Nat.add_comm]

theorem decValue_eq_ofDigits (ds : Bytes) : decValue ds = Nat.ofDigits 10 (ds.reverse.map digitValue) :=
  foldl_digits_eq_ofDigits 10 digitValue ds

theorem decValue_append (s t : Bytes) : decValue (s ++ t) = 10 ^ t.length * decValue s + decValue t := by
  simp [decValue_eq_ofDigits, Nat.ofDigits_append, Nat.add_comm]

theorem decValue_lt {ds : Bytes} (h : ∀ b ∈ ds, isDigit b = true) : decValue ds < 10 ^ ds.length := by
  have digits : ∀ x ∈ ds.reverse.map digitValue, x < 10 := by
    simp only [List.mem_map, List.mem_reverse]
    rintro _ ⟨b, hb, rfl⟩
    have ⟨_, _⟩ := (isDigit_iff b).1 (h b hb)
    unfold digitValue
    omega
  simpa [decValue_eq_ofDigits] using Nat.ofDigits_lt_base_pow_length (by omega) digits

/-- Leaving out the last `k` digits divides by `10 ^ k` and rounds down. -/
theorem decValue_append_div {s t : Bytes} (h : ∀ b ∈ t, isDigit b = true) :
    decValue (s ++ t) / 10 ^ t.length = decValue s := by
  rw [decValue_append, Nat.mul_add_div (by positivity), Nat.div_eq_of_lt (decValue_lt h), Nat.add_zero]

/-! ## The transmitted checksum (R76) -/

theorem isHexDigit_iff (b : Byte) : isHexDigit b = true ↔
    (0x30 ≤ b.toNat ∧ b.toNat ≤ 0x39) ∨ (0x41 ≤ b.toNat ∧ b.toNat ≤ 0x46) ∨ (0x61 ≤ b.toNat ∧ b.toNat ≤ 0x66) := by
  simp [isHexDigit, isDigit_iff, or_assoc]

theorem checksumOperand_eq_some_iff {digits : Bytes} {tx : Nat} :
    checksumOperand digits = some tx ↔
      digits ≠ [] ∧ (∀ b ∈ digits, isHexDigit b = true) ∧ tx = Nat.ofDigits 16 (digits.reverse.map hexValue) := by
  rw [checksumOperand, Option.ite_none_right_eq_some, List.all_eq_true, and_assoc, Option.some_inj,
    foldl_digits_eq_ofDigits, eq_comm (a := tx)]

/-- Settles O25, with the digits and their values written out. -/
theorem transmittedChecksumIsHexValue : Obligations.TransmittedChecksumIsHexValue := by
  intro digits tx hex value
  simp only [checksumOperand_eq_some_iff, isHexDigit_iff]
  exact Iff.rfl

/-! ## The tariff operand (R75, D20) -/

theorem belowLimit_eq_some_iff {v x : Nat} : belowLimit v = some x ↔ x = v ∧ x < 2 ^ 63 := by
  rw [belowLimit, Option.ite_none_right_eq_some, Option.some_inj, Config.intLimit_eq]
  omega

theorem tariffOperand_eq_some_iff {value1 : Bytes} {v : Nat} :
    tariffOperand value1 = some v ↔
      value1 ≠ [] ∧ (∀ b ∈ value1, isDigit b = true) ∧ v = decValue value1 ∧ v < 2 ^ 63 := by
  rw [tariffOperand, Option.ite_none_right_eq_some, List.all_eq_true, and_assoc, belowLimit_eq_some_iff]

/-- Settles O34, with the digits and their values written out. -/
theorem tariffOperandIsDecimalValue : Obligations.TariffOperandIsDecimalValue := by
  intro value1 v
  simp only [tariffOperand_eq_some_iff, isDigit_iff, decValue_eq_ofDigits]
  exact Iff.rfl

/-! ## Numbers with a unit (R73, R74) -/

theorem stripSuffix_eq_some_iff {suffix s num : Bytes} : stripSuffix suffix s = some num ↔ s = num ++ suffix := by
  constructor
  · intro h
    unfold stripSuffix at h
    split_ifs at h with ends
    cases h
    exact (List.suffix_iff_eq_append.1 (List.suffix_iff_eq_drop.2 ends.symm)).symm
  · rintro rfl
    simp [stripSuffix]

/-- The text of a number: its whole digits, then, if it has a point, the point and the fraction digits (R73). -/
def numText (whole frac : Bytes) (point : Bool) : Bytes := whole ++ if point = true then chDot :: frac else []

theorem parseNum_eq_some_iff {s whole frac : Bytes} :
    parseNum s = some (whole, frac) ↔ ∃ point : Bool, (point = false → frac = []) ∧ s = numText whole frac point ∧
      whole ≠ [] ∧ (∀ b ∈ whole, isDigit b = true) ∧ ∀ b ∈ frac, isDigit b = true := by
  constructor
  · intro h
    have split := List.takeWhile_append_dropWhile (p := isDigit) (l := s)
    unfold parseNum at h
    simp only at h
    split_ifs at h with ne
    cases rest : s.dropWhile isDigit with
    | nil =>
      rw [rest] at h split
      cases h
      exact ⟨false, fun _ => rfl, split.symm, ne, fun b => List.mem_takeWhile_imp, by simp⟩
    | cons c frac' =>
      simp only [rest] at h split
      split_ifs at h with ok
      obtain ⟨rfl, digits⟩ := ok
      cases h
      exact ⟨true, nofun, split.symm, ne, fun b => List.mem_takeWhile_imp, List.all_eq_true.1 digits⟩
  · rintro ⟨point, noFrac, rfl, ne, wholeDigits, fracDigits⟩
    obtain ⟨take, drop⟩ := takeWhile_dropWhile_append (p := isDigit)
      (rest := if point = true then chDot :: frac else []) wholeDigits
      (by cases point with
        | false => exact nofun
        | true => rintro b ⟨⟩; decide)
    unfold parseNum numText
    simp only [take, drop, if_neg ne]
    cases point with
    | false => rw [noFrac rfl]; rfl
    | true => simpa using fracDigits

/-- A number followed by a suffix, scaled, and below the limit. -/
def numOperand (suffix : Bytes) (scale : Bytes → Bytes → Nat) (value1 : Bytes) : Option Nat :=
  (stripSuffix suffix value1).bind fun num => (parseNum num).bind fun parts => belowLimit (scale parts.1 parts.2)

theorem kwhOperand_eq_numOperand (mode : Config.KwhScaleMode) (value1 : Bytes) :
    kwhOperand mode value1 = numOperand kwhSuffix (kwhScale mode) value1 := by
  unfold kwhOperand numOperand
  cases stripSuffix kwhSuffix value1 with
  | none => rfl
  | some num => cases h : parseNum num <;> simp [h]

theorem m3Operand_eq_numOperand (value1 : Bytes) :
    m3Operand value1 = numOperand m3Suffix (fun whole _ => decValue whole) value1 := by
  unfold m3Operand numOperand
  cases stripSuffix m3Suffix value1 with
  | none => rfl
  | some num => cases h : parseNum num <;> simp [h]

theorem numOperand_eq_some_iff {suffix value1 : Bytes} {scale : Bytes → Bytes → Nat} {v : Nat} :
    numOperand suffix scale value1 = some v ↔
      ∃ (whole frac : Bytes) (point : Bool), (point = false → frac = []) ∧
        value1 = numText whole frac point ++ suffix ∧ whole ≠ [] ∧ (∀ b ∈ whole, isDigit b = true) ∧
        (∀ b ∈ frac, isDigit b = true) ∧ v = scale whole frac ∧ v < 2 ^ 63 := by
  simp only [numOperand, Option.bind_eq_some_iff, stripSuffix_eq_some_iff, Prod.exists, parseNum_eq_some_iff,
    belowLimit_eq_some_iff]
  constructor
  · rintro ⟨_, rfl, whole, frac, ⟨point, noFrac, rfl, ne, wholeDigits, fracDigits⟩, value⟩
    exact ⟨whole, frac, point, noFrac, rfl, ne, wholeDigits, fracDigits, value⟩
  · rintro ⟨whole, frac, point, noFrac, rfl, ne, wholeDigits, fracDigits, value⟩
    exact ⟨_, rfl, whole, frac, ⟨point, noFrac, rfl, ne, wholeDigits, fracDigits⟩, value⟩

/-- `1000 × I + F3` is `floor(1000 × x)`: the fraction padded by three zeros is `F3` and as many digits as the fraction
had, and those the division drops. -/
theorem kwhScale_exactDecimal {frac : Bytes} (digits : ∀ b ∈ frac, isDigit b = true) (whole : Bytes) :
    kwhScale .exactDecimal whole frac = 1000 * decValue (whole ++ frac) / 10 ^ frac.length := by
  set padded := frac ++ [0x30, 0x30, 0x30] with hp
  have paddedDigits : ∀ b ∈ padded.drop 3, isDigit b = true := fun b hb =>
    List.forall_mem_append.2 ⟨digits, by decide⟩ b (List.mem_of_mem_drop hb)
  have dropped : (padded.drop 3).length = frac.length := by simp [hp]
  have kept : (padded.take 3).length = 3 := by simp [hp]
  calc kwhScale .exactDecimal whole frac
      = 10 ^ (padded.take 3).length * decValue whole + decValue (padded.take 3) := by rw [kept]; rfl
    _ = decValue ((whole ++ padded.take 3) ++ padded.drop 3) / 10 ^ (padded.drop 3).length := by
      rw [decValue_append_div paddedDigits, decValue_append]
    _ = decValue ((whole ++ frac) ++ [0x30, 0x30, 0x30]) / 10 ^ frac.length := by
      rw [dropped, List.append_assoc, List.take_append_drop, hp, List.append_assoc]
    _ = 1000 * decValue (whole ++ frac) / 10 ^ frac.length := by rw [decValue_append]; rfl

theorem kwhOperand_exactDecimal_eq_some_iff {value1 : Bytes} {v : Nat} :
    kwhOperand .exactDecimal value1 = some v ↔
      ∃ (whole frac : Bytes) (point : Bool), (point = false → frac = []) ∧
        value1 = numText whole frac point ++ kwhSuffix ∧ whole ≠ [] ∧ (∀ b ∈ whole, isDigit b = true) ∧
        (∀ b ∈ frac, isDigit b = true) ∧ v = 1000 * decValue (whole ++ frac) / 10 ^ frac.length ∧ v < 2 ^ 63 := by
  rw [kwhOperand_eq_numOperand, numOperand_eq_some_iff]
  refine exists_congr fun whole => exists_congr fun frac => exists_congr fun point => ?_
  simp only [and_congr_right_iff]
  intro _ _ _ _ digits
  rw [kwhScale_exactDecimal digits]

/-- Settles O35: the text before the suffix is a number, and its scaled value is the floor. -/
theorem kwhOperandIsFloorOfThousandTimes : Obligations.KwhOperandIsFloorOfThousandTimes := by
  intro value1 v digit
  simp only [kwhOperand_exactDecimal_eq_some_iff, isDigit_iff, decValue_eq_ofDigits]
  exact Iff.rfl

/-- Settles O36: the text before the suffix is a number, of which the whole digits count. -/
theorem gasOperandIsWholePart : Obligations.GasOperandIsWholePart := by
  intro value1 v digit
  simp only [m3Operand_eq_numOperand, numOperand_eq_some_iff, isDigit_iff, decValue_eq_ofDigits]
  exact Iff.rfl

end Sys2Proof.Machine
end

section
/-! PROOFS. What the decoder answers completes (R77, R115, R192): an operation its row selects has a next state, one its
row excludes is refused, and so no input stops the machine. -/

namespace Sys2Proof.Machine

/-! ## Every input decodes (R77) -/

/-- Settles O44: the word of an input decodes, and what is decoded is selected. -/
theorem everyInputDecodes : Obligations.EveryInputDecodes := by
  intro s x
  have decoded := decode_transaction (s.control x.port) x
  obtain ⟨-, -, selected⟩ := isWordOf_of_decode decoded
  exact ⟨_, decoded, selected⟩

/-! ## Completion -/

/-- A meaning answers a next state. -/
def Completes (r : Result) : Prop := ∃ t, r = .next t

theorem completes_of_steps {r : Result} {P : State → Prop} (h : ∃ t, r = .next t ∧ P t) : Completes r := by
  obtain ⟨t, next, -⟩ := h
  exact ⟨t, next⟩

/-- What a port answers in a state completes in it. -/
theorem exec_completes_of_decode {p : Port} {s : State} {bs : Bytes} {i : Instr}
    (h : decode p (s.control p) bs = .ok i) : Completes (exec i s) := by
  cases p with
  | edge u =>
    obtain ⟨w, -, rfl⟩ := map_eq_ok_iff.1 h
    cases u with
    | etd n => exact completes_of_steps (edgeEtd_steps n w s)
    | pls n => exact completes_of_steps (edgePls_steps n w s)
  | ivl n =>
    obtain ⟨ivl, -, rfl⟩ := map_eq_ok_iff.1 h
    exact performIvl_eq_exec n ivl s ▸ completes_of_steps (performIvl_steps n ivl s)
  | pulse n =>
    obtain ⟨w, -, rfl⟩ := map_eq_ok_iff.1 h
    exact performPls_eq_exec n _ _ s ▸ completes_of_steps (performPls_steps n _ _ s)
  | byte n =>
    obtain ⟨b, -, rfl⟩ := map_eq_ok_iff.1 h
    exact completes_of_steps (byte_steps n b s)
  | line n =>
    obtain ⟨line, -, rfl⟩ := map_eq_ok_iff.1 h
    exact performLine_eq_exec n line s ▸ completes_of_steps (performLine_steps n line s)
  | content n =>
    obtain ⟨line, word, rfl⟩ := map_eq_ok_iff.1 h
    obtain ⟨-, on, -⟩ := wordContent_eq_ok_iff.1 word
    exact performContent_eq_exec n line s ▸ completes_of_steps (performContent_steps on line)
  | crc n =>
    obtain ⟨b, -, rfl⟩ := map_eq_ok_iff.1 h
    exact ⟨_, rfl⟩
  | done n =>
    unfold decode at h
    split_ifs at h with full
    obtain ⟨-, rfl⟩ := noWord_eq_ok_iff.1 h
    exact ⟨_, execDone_eq full⟩
  | reset u | cancel u =>
    obtain ⟨-, rfl⟩ := noWord_eq_ok_iff.1 h
    exact ⟨_, rfl⟩

/-- Settles O46: a selected operation is what its own word decodes to. -/
theorem selectedOperationsComplete : Obligations.SelectedOperationsComplete := fun _ _ wf selected =>
  exec_completes_of_decode (decode_encode wf selected)

/-- Settles O48: the oldest input decodes to an operation that completes and consumes no further input. -/
theorem stepAlwaysAnswersNext : Obligations.StepAlwaysAnswersNext := by
  intro s
  cases h : s.inputs with
  | nil => exact ⟨s, step_nil h, h⟩
  | cons x rest =>
    obtain ⟨t, next⟩ := exec_completes_of_decode (decode_transaction (State.control { s with inputs := rest } x.port) x)
    rw [← step_cons h] at next
    exact ⟨t, next, (otherUnitsAreUnchanged.2 s t x rest h next).1⟩

/-! ## Refusal (log 4) -/

/-- Where the row of an interval class excludes it, the interval has another class. -/
theorem ivlClass_ne_of_not_selected {n : Nat} {ivl : Tick} {s : State} (k : IvlClass)
    (h : (k.toInstr n ivl).selectedIn (s.edgeControl (.etd n)) = false) : s.ivlClass n ivl ≠ k := by
  intro cls
  obtain ⟨-, selected⟩ := (ivlClass_eq_iff_selected n (s.edgeControl (.etd n)) k ivl).1 cls
  cases h.symm.trans selected

/-- Settles O47: where the state part of an operation's row fails, the guard of its meaning fails. -/
theorem unselectedOperationsAreRefused : Obligations.UnselectedOperationsAreRefused := by
  intro i s h
  cases i with
  | sync | pulse | debounce | byteEol | byteData | crcByte | reset | cancel => cases h
  | idle n ivl => exact whenSelected_neg (ivlClass_ne_of_not_selected .idle h) _
  | pre n ivl => exact whenSelected_neg (ivlClass_ne_of_not_selected .pre h) _
  | bit0 n ivl => exact whenSelected_neg (ivlClass_ne_of_not_selected .bit0 h) _
  | bit1 n ivl => exact whenSelected_neg (ivlClass_ne_of_not_selected .bit1 h) _
  | inv n ivl => exact whenSelected_neg (ivlClass_ne_of_not_selected .inv h) _
  | edgeFirst | edgeNext | done | lineStart => exact whenSelected_neg (by simpa [Instr.selectedIn, Instr.port] using h) _
  | lineSkip n line =>
    have on : (s.tel n).reading = true := by simpa [Instr.selectedIn, Instr.port] using h
    exact whenSelected_neg (fun cls => ne_false_of_eq_true on ((lineClass_skip_iff ..).1 cls).1) _
  | lineContent n line =>
    exact whenSelected_neg (fun cls => ne_true_of_eq_false h ((lineClass_content_iff ..).1 cls).1) _
  | lineNomatch | fieldOther => exact whenSelected_neg (fun both => ne_true_of_eq_false h both.1) _
  | lineEnd | fieldEid | fieldTariff | fieldLow | fieldHigh | fieldCurrent | fieldGas1 | fieldGas2 | fieldGas3
  | fieldGas4 => exact whenSelected_neg (ne_true_of_eq_false h) _

end Sys2Proof.Machine
end

section
/-! PROOFS. The interval clock (R90 to R93): the interval as a number, the edge event that primes a unit's clock, and the
one that moves it and performs the class of the interval. -/

namespace Sys2Proof.Machine

/-! ## The interval (R90, R93) -/

/-- Settles O1: subtraction of words is subtraction modulo 2^32. -/
theorem intervalIsDifferenceModulo : Obligations.IntervalIsDifferenceModulo := by
  intro prev cur
  unfold interval
  rw [BitVec.toNat_sub]
  have := prev.isLt
  congr 1
  omega

/-- Settles O2: the first tick cancels, whatever number of times the counter has wrapped. -/
theorem intervalIsTrueGapModulo : Obligations.IntervalIsTrueGapModulo := by
  intro prev gap
  have gapWord : interval prev (prev + BitVec.ofNat 32 gap) = BitVec.ofNat 32 gap := add_sub_cancel_left _ _
  rw [gapWord, BitVec.toNat_ofNat]

/-! ## The edge events (R91, R92) -/

section
variable {s : State} {u : EdgeUnit} {n : Nat} (level : Bool) (tick : Tick)

theorem exec_edgeFirst_of_unprimed (h : s.prevValid u = false) :
    exec (.edgeFirst u level tick) s = .next ((s.setPrev u tick).setPrevValid u) := whenSelected_pos h _

theorem exec_edgeNext_of_primed (h : s.prevValid u = true) :
    exec (.edgeNext u level tick) s = performLevel2 u level (interval (s.prev u) tick) (s.setPrev u tick) :=
  whenSelected_pos h _

theorem setPrev_setPrevValid_etd :
    (s.setPrev (.etd n) tick).setPrevValid (.etd n) = s.setEtd n { s.etd n with prev := tick, prevValid := true } := by
  simp [State.setPrev, State.setPrevValid]

theorem setPrev_setPrevValid_pls :
    (s.setPrev (.pls n) tick).setPrevValid (.pls n) = s.setPls n ⟨tick, true⟩ := by
  simp [State.setPrev, State.setPrevValid]

/-- A primed PLS unit has no register but `prev` left to set. -/
theorem setPrev_pls_of_primed (h : (s.pls n).prevValid = true) :
    s.setPrev (.pls n) tick = s.setPls n ⟨tick, true⟩ := by
  simp only [State.setPrev, h]

end

/-- No interval writes `prev`. -/
@[simp] theorem afterIvl_prev (e : Etd) (ivl : Tick) : (e.afterIvl ivl).prev = e.prev := by
  cases ivlEffect 0 e ivl with
  | sync _ after | idle _ _ after | pre _ _ _ after | bit _ _ _ _ _ after | inv _ _ _ _ after => simp [after]

/-- EDGE.NEXT of an ETD unit is the class of the interval, with `prev` at the new tick (R92). -/
theorem exec_edgeNext_etd {s : State} {n : Nat} (level : Bool) (tick : Tick) (h : (s.etd n).prevValid = true) :
    exec (.edgeNext (.etd n) level tick) s
      = exec (decodeIvl n (s.etd n).inCode (s.etd n).bitsSeen (interval (s.etd n).prev tick))
          (s.setEtd n { s.etd n with prev := tick }) := by
  have performed := performIvl_eq_exec n (interval (s.etd n).prev tick) (s.setEtd n { s.etd n with prev := tick })
  rw [etd_setEtd_self] at performed
  exact (exec_edgeNext_of_primed (u := .etd n) level tick h).trans performed

/-- EDGE.NEXT of a PLS unit is the class of the interval, with `prev` at the new tick (R92). -/
theorem exec_edgeNext_pls {s : State} {n : Nat} (level : Bool) (tick : Tick) (h : (s.pls n).prevValid = true) :
    exec (.edgeNext (.pls n) level tick) s
      = exec (decodePls n level (interval (s.pls n).prev tick)) (s.setPls n ⟨tick, true⟩) := by
  rw [← setPrev_pls_of_primed tick h, ← performPls_eq_exec]
  exact exec_edgeNext_of_primed (u := .pls n) level tick h

/-- Settles O3: the guard of EDGE.FIRST holds, and its two writes are one. -/
theorem edgeFirstPrimesClock : Obligations.EdgeFirstPrimesClock := by
  intro s n level tick
  constructor
  · intro unprimed
    rw [exec_edgeFirst_of_unprimed (u := .etd n) level tick unprimed, setPrev_setPrevValid_etd]
  · intro unprimed
    rw [exec_edgeFirst_of_unprimed (u := .pls n) level tick unprimed, setPrev_setPrevValid_pls]

/-- Settles O4: every class completes, and none of them writes `prev` or `prevValid` again. -/
theorem edgeNextPerformsIntervalClass : Obligations.EdgeNextPerformsIntervalClass := by
  intro s n level tick
  constructor
  · intro primed
    have performed := exec_edgeNext_etd level tick primed
    obtain ⟨t, next, st⟩ := performIvl_steps n (interval (s.etd n).prev tick)
      (s.setEtd n { s.etd n with prev := tick })
    rw [performIvl_eq_exec, etd_setEtd_self, ← performed] at next
    have after := st.self
    rw [etd_setEtd_self] at after
    exact ⟨performed, t, next, by simp [after], by simpa [after] using primed⟩
  · intro primed
    have performed := exec_edgeNext_pls level tick primed
    obtain ⟨t, next, st⟩ := performPls_steps n level (interval (s.pls n).prev tick) (s.setPls n ⟨tick, true⟩)
    rw [performPls_eq_exec, ← performed] at next
    rw [pls_setPls_self] at st
    exact ⟨performed, t, next, st.self⟩

end Sys2Proof.Machine
end

section
/-! PROOFS. The classes of an ETD interval performed (R101 to R106): what each operation writes, in the words of the
spec. The two data bits are one operation, with the bit as its argument. -/

namespace Sys2Proof.Machine

/-! ## The registers as numbers -/

/-- A signed position that is a natural number is the word of that number. -/
theorem eq_ofNat_of_toInt {x : BitVec 8} {k : Nat} (h : x.toInt = k) : x = BitVec.ofNat 8 k := by
  rw [← BitVec.ofInt_toInt (x := x), h, BitVec.ofInt_natCast]

/-- Counting the interval of a data bit. -/
theorem succ_toInt_of_bits {x : BitVec 8} {k : Nat} (h : x.toInt = k) (le : k ≤ 39) :
    (x + 1).toInt = ((k + 1 : Nat) : Int) := by
  rw [succ_toInt x (by omega), h, Int.natCast_succ]

/-- A position from 0 on is a data bit's in the class test of R100. -/
theorem one_le_succ_toInt_of_bits {x : BitVec 8} {k : Nat} (h : x.toInt = k) (le : k ≤ 39) : 1 ≤ (x + 1).toInt := by
  rw [succ_toInt_of_bits h le]; omega

/-- Shifting a bit into the accumulator doubles it and adds the bit, modulo 2^64. -/
theorem shiftIn_code {e : Etd} {c : Nat} (h : e.code = BitVec.ofNat 64 c) (b : Bool) :
    (e.shiftIn b).code = BitVec.ofNat 64 (2 * c + b.toNat) := by
  have double : e.code <<< 1 = BitVec.ofNat 64 (2 * c) := by
    rw [BitVec.shiftLeft_eq_mul_twoPow, h, Nat.mul_comm, BitVec.ofNat_mul]; rfl
  cases b with
  | false => exact double
  | true =>
    show e.code <<< 1 + 1 = _
    rw [double, Bool.toNat_true, BitVec.ofNat_add]; rfl

/-- The unit after a data bit, its registers as numbers (R104, R105). -/
theorem shiftIn_eq {e : Etd} {k : Nat} (h : e.bitsSeen.toInt = k) (le : k ≤ 39) (b : Bool) :
    e.shiftIn b = { e with
      bitsSeen := BitVec.ofNat 8 (k + 1), code := BitVec.ofNat 64 (2 * e.code.toNat + b.toNat) } := by
  have code := shiftIn_code (e := e) (c := e.code.toNat) (by simp) b
  rw [← eq_ofNat_of_toInt (succ_toInt_of_bits h le), ← code]
  cases b <;> rfl

/-! ## SYNC, IDLE and PRE (R101 to R103) -/

/-- Settles O6: the range alone selects SYNC. -/
theorem syncStartsFrame : Obligations.SyncStartsFrame := fun _ _ _ range =>
  whenSelected_pos ((ivlClass_sync_iff ..).2 range) _

/-- Settles O7: no frame in progress selects IDLE. -/
theorem idleIgnoresInterval : Obligations.IdleIgnoresInterval := fun _ _ _ range off =>
  whenSelected_pos ((ivlClass_idle_iff ..).2 ⟨range, off⟩) _

/-- Settles O8: the position selects PRE whatever the interval, and the position is counted. -/
theorem preambleIntervalIsCounted : Obligations.PreambleIntervalIsCounted := by
  intro s n ivl range on
  have counted {p : Int} (lo : p ≤ -1) (pos : (s.etd n).bitsSeen.toInt = p) :
      exec (.pre n ivl) s = .next (s.setEtd n { s.etd n with bitsSeen := BitVec.ofInt 8 (p + 1) }) := by
    have succ := succ_toInt (s.etd n).bitsSeen (by omega)
    rw [← pos, ← succ, BitVec.ofInt_toInt]
    exact whenSelected_pos ((ivlClass_pre_iff ..).2 ⟨range, on, by omega⟩) _
  exact ⟨counted (by omega), counted (by omega)⟩

/-! ## BIT0, BIT1 and INV (R104 to R106) -/

/-- The interval's range is that of the data bit (R104, R105). -/
def IsBitIvl (b : Bool) (ivl : Tick) : Prop :=
  if b = true then 101 ≤ ivl.toNat ∧ ivl.toNat ≤ 149 else 60 ≤ ivl.toNat ∧ ivl.toNat ≤ 100

/-- At a data position the range of a bit selects that bit's class. -/
theorem ivlClass_of_bit {inCode b : Bool} {x : BitVec 8} {k : Nat} {ivl : Tick} (on : inCode = true)
    (held : x.toInt = k) (le : k ≤ 39) (range : IsBitIvl b ivl) : Sys2Proof.ivlClass inCode x ivl = bitClass b := by
  have pos := one_le_succ_toInt_of_bits held le
  cases b with
  | false => exact (ivlClass_bit0_iff ..).2 ⟨on, pos, range⟩
  | true => exact (ivlClass_bit1_iff ..).2 ⟨on, pos, range.imp_right Nat.lt_succ_of_le⟩

section
variable {s : State} {n k : Nat} {ivl : Tick}

/-- A data bit is shifted in, and then comes the completion test. -/
theorem exec_bit (b : Bool) (cls : s.ivlClass n ivl = bitClass b) :
    exec ((bitClass b).toInstr n ivl) s = finishBit n (s.setEtd n ((s.etd n).shiftIn b)) := by
  cases b with
  | false | true => exact whenSelected_pos cls _

/-- Before the fortieth bit the completion test does nothing, at the fortieth it is DONE. -/
theorem exec_bit_shifts_in (b : Bool) (on : (s.etd n).inCode = true) (held : (s.etd n).bitsSeen.toInt = k)
    (le : k ≤ 39) (range : IsBitIvl b ivl) :
    let e : Etd := { s.etd n with
      bitsSeen := BitVec.ofNat 8 (k + 1), code := BitVec.ofNat 64 (2 * (s.etd n).code.toNat + b.toNat) }
    (k + 1 < 40 → exec ((bitClass b).toInstr n ivl) s = .next (s.setEtd n e)) ∧
    (k + 1 = 40 → exec ((bitClass b).toInstr n ivl) s = exec (.done n) (s.setEtd n e) ∧
      ∃ t, exec ((bitClass b).toInstr n ivl) s = .next t ∧ t.etd n = { e with inCode := false }) := by
  intro e
  have performed := exec_bit b (ivlClass_of_bit on held le range)
  rw [shiftIn_eq held le] at performed
  have after : (s.setEtd n e).etd n = e := etd_setEtd_self s n e
  constructor
  · intro part
    have short : BitVec.ofNat 8 (k + 1) ≠ 40 := by bv_omega
    refine performed.trans (if_neg ?_)
    rw [after]
    exact fun full => short full.2
  · intro full
    have complete : ((s.setEtd n e).etd n).inCode = true ∧ ((s.setEtd n e).etd n).bitsSeen = Config.frameBits := by
      rw [after]
      exact ⟨on, congrArg (BitVec.ofNat 8) full⟩
    have done := performed.trans (if_pos complete)
    obtain ⟨t, next, st⟩ := execDone_steps complete
    exact ⟨done, t, done.trans next, by rw [st.self, after]; rfl⟩

end

/-- Settles O9: the data bit 0. -/
theorem bitZeroShiftsIn : Obligations.BitZeroShiftsIn := fun _ _ _ _ on held le lo hi =>
  exec_bit_shifts_in false on held le ⟨lo, hi⟩

/-- Settles O10: the data bit 1. -/
theorem bitOneShiftsIn : Obligations.BitOneShiftsIn := fun _ _ _ _ on held le lo hi =>
  exec_bit_shifts_in true on held le ⟨lo, Nat.le_of_lt_succ hi⟩

/-- Settles O11: INV shifts a 0 in and has no completion test. -/
theorem invalidIntervalAbandonsFrame : Obligations.InvalidIntervalAbandonsFrame := by
  intro s n k ivl on held le range
  have cls := (ivlClass_inv_iff ..).2 ⟨on, one_le_succ_toInt_of_bits held le, range.imp Nat.lt_succ_of_le id⟩
  exact (whenSelected_pos cls _).trans
    (congrArg (fun e : Etd => Host.Outcome.next (s.setEtd n e.clearInCode)) (shiftIn_eq held le false))

end Sys2Proof.Machine
end

section
/-! PROOFS. DONE (R107): the checksum and the calibrated values of a frame in naturals and integers (R108 to R111), and
what the verdict on it emits. -/

namespace Sys2Proof.Machine

section
variable (code : BitVec 64)

/-! ## The values of a frame (R108 to R111) -/

theorem codeByte_toNat (i : Nat) : (codeByte code i).toNat = code.toNat / 2 ^ (8 * i) % 256 := by
  rw [codeByte, BitVec.extractLsb'_toNat, Nat.shiftRight_eq_div_pow]

/-- A byte appended on the right is the low digit in base 256. -/
theorem toNat_append_byte {w : Nat} (x : BitVec w) (b : Byte) : (x ++ b).toNat = x.toNat * 256 + b.toNat := by
  rw [BitVec.toNat_append, ← Nat.shiftLeft_add_eq_or_of_lt b.isLt, Nat.shiftLeft_eq]

theorem sensorSum_toNat : (sensorSum code).toNat =
    ((codeByte code 1).toNat + (codeByte code 2).toNat + (codeByte code 3).toNat + (codeByte code 4).toNat) % 256 := by
  simp [sensorSum, BitVec.toNat_add]

theorem sensorHum_toNat : (sensorHum code).toNat = (codeByte code 4).toNat * 256 + (codeByte code 3).toNat :=
  toNat_append_byte ..

theorem sensorMag_toNat : (sensorMag code).toNat = (codeByte code 2).toNat % 128 * 256 + (codeByte code 1).toNat := by
  rw [sensorMag, toNat_append_byte, BitVec.toNat_setWidth]

/-- The top bit of byte 2 is the sign (R111). -/
theorem sensorTemp_toInt : (sensorTemp code).toInt =
    if 128 ≤ (codeByte code 2).toNat then -((sensorMag code).toNat : Int) else ((sensorMag code).toNat : Int) := by
  have lt := (sensorMag code).isLt
  have wide : ((sensorMag code).setWidth 16).toNat = (sensorMag code).toNat :=
    BitVec.toNat_setWidth_of_le (by omega)
  have mag : ((sensorMag code).setWidth 16).toInt = (sensorMag code).toNat := by
    rw [BitVec.toInt_eq_toNat_of_lt (by omega), wide]
  have sign : (codeByte code 2).msb = true ↔ 128 ≤ (codeByte code 2).toNat := by
    simp [BitVec.msb_eq_decide]
  unfold sensorTemp
  simp only [sign]
  split_ifs
  · rw [BitVec.toInt_neg, mag, Int.bmod_eq_of_le] <;> omega
  · exact mag

/-! ## The verdict (R107) -/

/-- The three tests passed together. -/
theorem emitVerdict_doneVerdict (s : State) (n : Nat) : s.emitVerdict n (doneVerdict code) =
    if sensorSum code = codeByte code 0 ∧ (sensorHum code).toNat ≤ 1100 ∧
        -500 ≤ (sensorTemp code).toInt ∧ (sensorTemp code).toInt ≤ 1350 then
      s.emit (.reading n (sensorTemp code) (sensorHum code))
    else s := by
  unfold doneVerdict
  simp only [Config.humMax_eq, Config.tempMin_eq, Config.tempMax_eq]
  split
  · next sum => exact (if_neg fun ok => sum ok.1).symm
  next sum =>
    split
    · exact (if_neg (by omega)).symm
    split
    · exact (if_neg (by omega)).symm
    · exact (if_pos ⟨not_not.1 sum, by omega⟩).symm

end

/-- Settles O12: the values of the frame are the numbers of the rule, and the write of `inCode` commutes with the
output. -/
theorem doneValidatesFrame : Obligations.DoneValidatesFrame := by
  intro s n on full byte sum hum mag temp idle
  have bytes (i : Nat) : (codeByte (s.etd n).code i).toNat = byte i := codeByte_toNat _ i
  have sumEq : sensorSum (s.etd n).code = codeByte (s.etd n).code 0 ↔ sum = byte 0 := by
    rw [← BitVec.toNat_inj, sensorSum_toNat]; simp only [bytes, sum]
  have humEq : (sensorHum (s.etd n).code).toNat = hum := by rw [sensorHum_toNat]; simp only [bytes, hum]
  have tempEq : (sensorTemp (s.etd n).code).toInt = temp := by
    rw [sensorTemp_toInt, sensorMag_toNat]; simp only [bytes, temp, mag]
  refine (execDone_eq ⟨on, full⟩).trans (congrArg _ ?_)
  rw [emitVerdict_doneVerdict, ← tempEq, ← humEq, BitVec.ofInt_toInt, BitVec.ofNat_toNat, BitVec.setWidth_eq]
  simp only [sumEq]
  split_ifs <;> rfl

end Sys2Proof.Machine
end

section
/-! PROOFS. A run of edge events at one ETD unit, read as a fold of its intervals over the unit's state (R79, R92), and
the whole sensor frame on it (R113). -/

namespace Sys2Proof.Machine

/-! ## A run of intervals -/

/-- A primed ETD unit after an edge event that many ticks after the one before (R92). -/
def Etd.takeIvl (e : Etd) (ivl : Tick) : Etd := ({ e with prev := e.prev + ivl } : Etd).afterIvl ivl

/-- A primed ETD unit after edge events at these intervals. -/
def Etd.takeIvls (e : Etd) (ivls : List Tick) : Etd := ivls.foldl Etd.takeIvl e

/-- What those edge events make the unit emit. -/
def Etd.ivlsOut (n : Nat) : Etd → List Tick → List Output
  | _, [] => []
  | e, ivl :: ivls => e.ivlOut n ivl ++ (e.takeIvl ivl).ivlsOut n ivls

section
variable (e : Etd) (ivl : Tick) (ivls : List Tick) (n : Nat)
@[simp] theorem takeIvl_prev : (e.takeIvl ivl).prev = e.prev + ivl := afterIvl_prev ..
@[simp] theorem takeIvl_prevValid : (e.takeIvl ivl).prevValid = e.prevValid := afterIvl_prevValid ..
@[simp] theorem takeIvls_nil : e.takeIvls [] = e := rfl
@[simp] theorem takeIvls_cons : e.takeIvls (ivl :: ivls) = (e.takeIvl ivl).takeIvls ivls := rfl
@[simp] theorem ivlsOut_nil : e.ivlsOut n [] = [] := rfl
@[simp] theorem ivlsOut_cons : e.ivlsOut n (ivl :: ivls) = e.ivlOut n ivl ++ (e.takeIvl ivl).ivlsOut n ivls := rfl

theorem afterEdge_of_primed {e : Etd} (primed : e.prevValid = true) :
    e.afterEdge (e.prev + ivl) = e.takeIvl ivl := by
  rw [Etd.afterEdge, if_neg (ne_false_of_eq_true primed), interval, add_sub_cancel_left, Etd.takeIvl]

theorem edgeOut_of_primed {e : Etd} (primed : e.prevValid = true) :
    e.edgeOut n (e.prev + ivl) = e.ivlOut n ivl := by
  rw [Etd.edgeOut, if_neg (ne_false_of_eq_true primed), interval, add_sub_cancel_left]

end

/-- A run continues from the next state of its first step. -/
theorem run_succ {M : Host.Core} {s t : M.State} (next : M.step s = .next t) (k : Nat) :
    M.run (k + 1) s = M.run k t := by
  rw [Host.Core.run, next]

/-- Edge events of one primed ETD unit, whatever their levels, give the fold of their intervals. -/
theorem run_ivlEvents {n : Nat} {rest : List Transaction} (events : List (Tick × Bool)) {s : State}
    (primed : (s.etd n).prevValid = true)
    (given : s.inputs = ivlEvents (.etd n) (s.etd n).prev events ++ rest) :
    ∃ t, Host.Core.run Sys2Proof.core events.length s = .next t ∧ t.inputs = rest ∧
      t.etd n = (s.etd n).takeIvls (events.map Prod.fst) ∧
      t.outputs = s.outputs ++ (s.etd n).ivlsOut n (events.map Prod.fst) := by
  induction events generalizing s with
  | nil => exact ⟨s, rfl, given, rfl, (List.append_nil _).symm⟩
  | cons event events ih =>
    obtain ⟨ivl, level⟩ := event
    obtain ⟨s', next, st⟩ := step_etd (s := s) given
    rw [ev33Tick_ev33, afterEdge_of_primed ivl primed, edgeOut_of_primed ivl n primed] at st
    have primed' : (s'.etd n).prevValid = true := by rw [st.self, takeIvl_prevValid, primed]
    have given' : s'.inputs = ivlEvents (.etd n) (s'.etd n).prev events ++ rest := by
      rw [st.inputs, st.self, takeIvl_prev]; rfl
    obtain ⟨t, run, inputs, etd, outputs⟩ := ih primed' given'
    rw [st.self] at etd outputs
    rw [st.outputs] at outputs
    exact ⟨t, (run_succ (M := Sys2Proof.core) next _).trans run, inputs, etd, by simpa using outputs⟩

/-! ## The intervals of a frame (R101, R103 to R105) -/

/-- The unit is in a frame at this position, with this number accumulated modulo 2^64. -/
def Etd.InFrame (e : Etd) (position : Int) (c : Nat) : Prop :=
  e.inCode = true ∧ e.bitsSeen.toInt = position ∧ e.code = BitVec.ofNat 64 c

section
variable {e : Etd} {ivl : Tick} {k c : Nat} {b : Bool} (n : Nat)

theorem takeIvl_of_sync (range : 10000 < ivl.toNat) : (e.takeIvl ivl).InFrame (-2) 0 ∧ e.ivlOut n ivl = [] := by
  have cls := (ivlClass_sync_iff e.inCode e.bitsSeen ivl).2 range
  constructor
  · simp only [Etd.takeIvl, Etd.afterIvl, cls]
    exact ⟨rfl, rfl, rfl⟩
  · simp only [Etd.ivlOut, cls]

theorem takeIvl_of_pre {p : Int} (h : e.InFrame p c) (lo : p ≤ -1) (range : ivl.toNat ≤ 10000) :
    (e.takeIvl ivl).InFrame (p + 1) c ∧ e.ivlOut n ivl = [] := by
  obtain ⟨on, rfl, code⟩ := h
  have succ := succ_toInt e.bitsSeen (by omega)
  have cls := (ivlClass_pre_iff e.inCode e.bitsSeen ivl).2 ⟨range, on, by omega⟩
  constructor
  · simp only [Etd.takeIvl, Etd.afterIvl, cls]
    exact ⟨on, succ, code⟩
  · simp only [Etd.ivlOut, cls]

/-- A data bit moves the position by one and shifts itself into the number. -/
theorem Etd.InFrame.shiftIn (h : e.InFrame k c) (le : k ≤ 39) (b : Bool) :
    (e.shiftIn b).InFrame (k + 1 : Nat) (2 * c + b.toNat) := by
  obtain ⟨on, held, code⟩ := h
  exact ⟨(shiftIn_inCode e b).trans on, by rw [shiftIn_bitsSeen, succ_toInt_of_bits held le], shiftIn_code code b⟩

/-- A data bit is shifted in, and then comes the completion test. -/
theorem takeIvl_of_bit (h : e.InFrame k c) (le : k ≤ 39) (range : IsBitIvl b ivl) :
    ∃ e' : Etd, e'.InFrame (k + 1 : Nat) (2 * c + b.toNat) ∧
      e.takeIvl ivl = e'.finish ∧ e.ivlOut n ivl = e'.finishOut n := by
  have ⟨on, held, _⟩ := h
  have cls := ivlClass_of_bit on held le range
  have moved : Etd.InFrame { e with prev := e.prev + ivl } k c := h
  refine ⟨_, moved.shiftIn le b, ?_⟩
  simp only [Etd.takeIvl, Etd.afterIvl, Etd.ivlOut, cls]
  cases b with
  | false | true => exact ⟨rfl, rfl⟩

theorem takeIvl_of_inner_bit (h : e.InFrame k c) (inner : k < 39) (range : IsBitIvl b ivl) :
    (e.takeIvl ivl).InFrame (k + 1 : Nat) (2 * c + b.toNat) ∧ e.ivlOut n ivl = [] := by
  obtain ⟨e', frame, after, out⟩ := takeIvl_of_bit n h inner.le range
  have ⟨_, held, _⟩ := frame
  have part : e'.bitsSeen ≠ 40 := by rw [eq_ofNat_of_toInt held]; bv_omega
  rw [after, out, Etd.finishOut, if_neg fun full => part full.2, finish_of_not_full part]
  exact ⟨frame, rfl⟩

theorem takeIvl_of_last_bit (h : e.InFrame (39 : Nat) c) (range : IsBitIvl b ivl) :
    let word := BitVec.ofNat 64 (2 * c + b.toNat)
    (e.takeIvl ivl).inCode = false ∧ (e.takeIvl ivl).bitsSeen = 40 ∧ (e.takeIvl ivl).code = word ∧
      e.ivlOut n ivl = (doneVerdict word).out n := by
  obtain ⟨e', ⟨on, held, code⟩, after, out⟩ := takeIvl_of_bit n h le_rfl range
  have full : e'.bitsSeen = 40 := eq_ofNat_of_toInt held
  rw [after, out, Etd.finishOut, if_pos ⟨on, full⟩, code, finish_of_full on full]
  exact ⟨rfl, full, code, rfl⟩

/-- From any position the data intervals that fill the frame shift in their bits and end with the verdict on them. -/
theorem takeIvls_of_bits {bits : List Bool} {data : List Tick} (ranges : List.Forall₂ IsBitIvl bits data)
    (h : e.InFrame k c) (part : k ≤ 39) (fill : k + bits.length = 40) :
    let word := BitVec.ofNat 64 (bits.foldl (fun c b => 2 * c + b.toNat) c)
    (e.takeIvls data).inCode = false ∧ (e.takeIvls data).bitsSeen = 40 ∧ (e.takeIvls data).code = word ∧
      e.ivlsOut n data = (doneVerdict word).out n := by
  induction ranges generalizing e k c with
  | nil => rw [List.length_nil] at fill; omega
  | @cons b ivl bits data range ranges ih =>
    rw [List.length_cons] at fill
    obtain inner | rfl : k < 39 ∨ k = 39 := by omega
    · obtain ⟨h', out⟩ := takeIvl_of_inner_bit n h inner range
      rw [takeIvls_cons, ivlsOut_cons, out, List.nil_append]
      exact ih h' inner (by omega)
    · obtain rfl : bits = [] := List.eq_nil_of_length_eq_zero (by omega)
      cases ranges
      rw [takeIvls_cons, takeIvls_nil, ivlsOut_cons, ivlsOut_nil, List.append_nil]
      exact takeIvl_of_last_bit n h range

end

/-- Settles O14: the sync and the two preamble intervals put the unit at position 0 with nothing accumulated, whatever
it held, and the forty data intervals fill the frame. -/
theorem sensorFrameYieldsVerdict : Obligations.SensorFrameYieldsVerdict := by
  intro s n sync pre1 pre2 bits data events rest primed syncRange range1 range2 forty ranges ivls given code
  have count : events.length = 43 := by
    rw [← List.length_map (f := Prod.fst), ivls]; simp [← ranges.length_eq, forty]
  obtain ⟨t, run, inputs, etd, outputs⟩ := run_ivlEvents events primed given
  obtain ⟨h0, out0⟩ := takeIvl_of_sync (e := s.etd n) n syncRange
  obtain ⟨h1, out1⟩ := takeIvl_of_pre n h0 (by omega) range1
  obtain ⟨h2, out2⟩ := takeIvl_of_pre n h1 (by omega) range2
  obtain ⟨off, full, shifted, verdict⟩ := takeIvls_of_bits (k := 0) n ranges h2 (by omega) (by omega)
  simp only [ivls, takeIvls_cons, ivlsOut_cons, out0, out1, out2, List.nil_append] at etd outputs
  rw [← etd] at off full shifted
  rw [verdict] at outputs
  exact ⟨t, count ▸ run, inputs, off, full, shifted, outputs⟩

end Sys2Proof.Machine
end

section
/-! PROOFS. The pulse counter (R120, R121, R124): its two classes, and the glitch, whose two edge events are both
discarded. -/

namespace Sys2Proof.Machine

/-- Settles O15: the range alone selects PULSE. -/
theorem pulseEmitsOneUnit : Obligations.PulseEmitsOneUnit := fun _ _ ivl range =>
  whenSelected_pos ((plsClass_pulse_iff true ivl).2 ⟨rfl, range⟩) _

/-- Settles O16: the level or the range selects DEBOUNCE. -/
theorem debounceHasNoEffect : Obligations.DebounceHasNoEffect := fun _ _ level ivl discarded =>
  whenSelected_pos ((plsClass_debounce_iff level ivl).2 discarded) _

/-- Primed or not, a unit emits nothing at an edge event that DEBOUNCE discards. -/
theorem edgeOut_of_debounce {p : Pls} {level : Bool} {tick : Tick} (n : Nat)
    (discarded : level = false ∨ (interval p.prev tick).toNat ≤ 1000000) : p.edgeOut n level tick = [] := by
  rw [Pls.edgeOut, plsOut, (plsClass_debounce_iff ..).2 discarded, ite_self]

/-- A step whose input is an edge event that DEBOUNCE discards: no output, but a new reference (R92, R121). -/
theorem step_pls_of_debounce {s : State} {n : Nat} {level : Bool} {tick : Tick} {rest : List Transaction}
    (given : s.inputs = .edge (.pls n) (ev33 level tick) :: rest)
    (discarded : level = false ∨ (interval (s.pls n).prev tick).toNat ≤ 1000000) :
    ∃ t, step s = .next t ∧ t.inputs = rest ∧ t.outputs = s.outputs ∧ t.pls n = ⟨tick, true⟩ := by
  obtain ⟨t, next, st⟩ := step_pls given
  rw [ev33Level_ev33, ev33Tick_ev33, edgeOut_of_debounce n discarded] at st
  exact ⟨t, next, st.inputs, by simpa using st.outputs, st.self⟩

/-- Settles O17: the level discards the falling edge, and the interval from it discards the rising edge. -/
theorem glitchResetsReference : Obligations.GlitchResetsReference := by
  intro s n fall rise rest _ short given
  obtain ⟨s', next, given', quiet, reference⟩ := step_pls_of_debounce given (.inl rfl)
  have discarded : (interval (s'.pls n).prev rise).toNat ≤ 1000000 := by rw [reference]; exact short
  obtain ⟨t, next', -, quiet', reference'⟩ := step_pls_of_debounce given' (.inr discarded)
  have run : Host.Core.run Sys2Proof.core 2 s = .next t :=
    (run_succ (M := Sys2Proof.core) next 1).trans (run_succ (M := Sys2Proof.core) next' 0)
  exact ⟨t, run, quiet'.trans quiet, reference'⟩

end Sys2Proof.Machine
end

section
/-! PROOFS. The frame assembler (R130 to R136, R139): its byte and line classes performed, and what it takes for a
packet to be emitted. -/

namespace Sys2Proof.Machine

/-! ## BYTE.DATA, LINE.START and LINE.SKIP (R130, R133, R136) -/

/-- Settles O18: the byte alone selects BYTE.DATA. -/
theorem byteDataAppends : Obligations.ByteDataAppends := fun _ _ _ data => whenSelected_pos data _

/-- Settles O22: `reading` alone selects LINE.START. -/
theorem lineStartOpensFrame : Obligations.LineStartOpensFrame := fun _ _ _ off => whenSelected_pos off _

/-- Settles O23: `reading` and the first byte select LINE.SKIP. -/
theorem lineSkipHasNoEffect : Obligations.LineSkipHasNoEffect := fun _ _ line off other =>
  whenSelected_pos ((lineClass_skip_iff _ line).2 ⟨off, other⟩) _

/-! ## BYTE.EOL (R131) -/

section
variable {t : Tel} (line : Bytes)

@[simp] theorem afterContent_lineBuf : (t.afterContent line).lineBuf = t.lineBuf := by
  unfold Tel.afterContent
  split_ifs <;> rfl

@[simp] theorem afterContent_rawFrame : (t.afterContent line).rawFrame = t.rawFrame := by
  unfold Tel.afterContent
  split_ifs <;> rfl

/-- No line class writes the line buffer. -/
@[simp] theorem afterLine_lineBuf : (t.afterLine line).lineBuf = t.lineBuf := by
  unfold Tel.afterLine
  split
  · rfl
  · rfl
  · split_ifs <;> rfl
  · exact afterContent_lineBuf line

end

/-- Settles O19: the line is performed on the state with `lineBuf` cleared, which no line class fills again. -/
theorem byteEolPerformsTrimmedLine : Obligations.ByteEolPerformsTrimmedLine := by
  intro s n
  have perform : exec (.byteEol n) s = performLine n (trim (s.tel n).lineBuf) (s.setTel n (s.tel n).clearLine) := rfl
  constructor
  · rw [perform, performLine_eq_exec, tel_setTel_self]
    rfl
  · obtain ⟨t, next, st⟩ := performLine_steps n (trim (s.tel n).lineBuf) (s.setTel n (s.tel n).clearLine)
    exact ⟨t, perform.trans next, by rw [st.self, afterLine_lineBuf, tel_setTel_self, clearLine_lineBuf]⟩

/-! ## LINE.END (R134) -/

section
variable {s : State} {n : Nat} {digits : Bytes}

theorem exec_lineEnd_of_malformed (on : (s.tel n).reading = true) (malformed : checksumOperand digits = none) :
    exec (.lineEnd n digits) s =
      .next ((s.setTel n (s.tel n).stopReading).emit (.error n .checksumParse (chBang :: digits) 0)) :=
  (whenSelected_pos on _).trans (by rw [malformed]; rfl)

theorem exec_lineEnd_of_value {tx : Nat} (on : (s.tel n).reading = true) (value : checksumOperand digits = some tx) :
    let crc := crc16 ((s.tel n).rawFrame ++ [chBang])
    let ended := s.setTel n { (s.tel n).stopReading with crc := 0 }
    exec (.lineEnd n digits) s =
      if tx = crc.toNat then .next (ended.emit (.packet n (s.tel n).packet))
      else .next (ended.emit (.error n .checksumMismatch (chBang :: digits) crc)) := by
  have noXor (c : BitVec 16) : c ^^^ Config.crcXorOut = c := BitVec.xor_zero
  refine (whenSelected_pos on _).trans ?_
  simp only [value, runCrc_eq, noXor]
  rfl

end

/-- Settles O24, outcome by outcome. -/
theorem lineEndChecksChecksum : Obligations.LineEndChecksChecksum := fun _ _ _ on =>
  ⟨exec_lineEnd_of_malformed on,
    fun _ value equal => (exec_lineEnd_of_value on value).trans (if_pos equal),
    fun _ value differs => (exec_lineEnd_of_value on value).trans (if_neg differs)⟩

/-! ## LINE.CONTENT (R135) -/

/-- Settles O26: the field class is performed on the state with the line appended, and writes neither buffer. -/
theorem lineContentAppendsThenParses : Obligations.LineContentAppendsThenParses := by
  intro s n line on content appended
  have same : (s.tel n).appendFrame line = { s.tel n with rawFrame := appended } := by
    simp only [Tel.appendFrame, appended, List.append_assoc]
    rfl
  have perform :
      exec (.lineContent n line) s = performContent n line (s.setTel n { s.tel n with rawFrame := appended }) :=
    same ▸ whenSelected_pos ((lineClass_content_iff _ line).2 ⟨on, content⟩) _
  refine ⟨perform.trans (performContent_eq_exec ..), ?_⟩
  obtain ⟨t, next, st⟩ := performContent_steps (n := n) (s := s.setTel n { s.tel n with rawFrame := appended })
    (by simpa using on) line
  rw [tel_setTel_self] at st
  exact ⟨t, perform.trans next, by rw [st.self, afterContent_rawFrame], by rw [st.self, afterContent_lineBuf]⟩

/-! ## Packets (R139) -/

section
variable {n m : Nat} {p : Packet}

theorem packet_not_mem_finishOut (e : Etd) : .packet m p ∉ e.finishOut n := by
  unfold Etd.finishOut
  split_ifs
  · cases doneVerdict e.code <;> simp [Verdict.out]
  · simp

theorem packet_not_mem_edgeOut (e : Etd) (tick : Tick) : .packet m p ∉ e.edgeOut n tick := by
  unfold Etd.edgeOut
  split_ifs
  · simp
  · cases ivlEffect n e (interval e.prev tick) with
    | bit b cls range on pos after out => rw [out]; exact packet_not_mem_finishOut _
    | sync _ _ out | idle _ _ _ out | pre _ _ _ _ out | inv _ _ _ _ _ out => simp [out]

theorem packet_not_mem_plsEdgeOut (q : Pls) (level : Bool) (tick : Tick) : .packet m p ∉ q.edgeOut n level tick := by
  unfold Pls.edgeOut plsOut
  split_ifs
  · simp
  · cases plsClass level _ <;> simp

theorem packet_not_mem_contentOut (line : Bytes) : .packet m p ∉ contentOut n line := by
  unfold contentOut
  cases lineError line <;> simp

/-- Of the line classes only LINE.END emits a packet, and it states the computed checksum (R134). -/
theorem packet_mem_lineOut {t : Tel} {line : Bytes} (emitted : .packet m p ∈ t.lineOut n line) :
    m = n ∧ t.reading = true ∧ p = t.packet ∧ ∃ digits, line = chBang :: digits ∧
      checksumOperand digits = some (crc16 (t.rawFrame ++ [chBang])).toNat := by
  unfold Tel.lineOut at emitted
  split at emitted
  · cases emitted
  · cases emitted
  · next cls =>
    obtain ⟨on, bang⟩ := (lineClass_finish_iff ..).1 cls
    split at emitted
    · simp at emitted
    · next tx value =>
      split_ifs at emitted with equal
      · obtain ⟨rfl, rfl⟩ : m = n ∧ p = t.packet := by simpa using emitted
        exact ⟨rfl, on, rfl, _, (cons_drop_of_head bang).symm, equal ▸ value⟩
      · simp at emitted
  · exact absurd emitted (packet_not_mem_contentOut line)

/-- Of the bytes only the separator makes a unit emit a packet. -/
theorem packet_mem_byteOut {t : Tel} {b : Byte} (emitted : .packet m p ∈ t.byteOut n b) :
    b = Config.eol ∧ m = n ∧ t.reading = true ∧ p = t.packet ∧ ∃ digits, trim t.lineBuf = chBang :: digits ∧
      checksumOperand digits = some (crc16 (t.rawFrame ++ [chBang])).toNat := by
  unfold Tel.byteOut at emitted
  split_ifs at emitted with eol
  · exact ⟨eol, packet_mem_lineOut emitted⟩
  · cases emitted

end

/-- Settles O55: by the cases of a step; no unit but a TEL unit emits a packet. -/
theorem packetOnlyAfterChecksumMatch : Obligations.PacketOnlyAfterChecksumMatch := by
  intro s t n p next emitted
  have mem {os : List Output} (outputs : t.outputs = s.outputs ++ os) : .packet n p ∈ os := by
    rw [List.append_cancel_left (outputs.symm.trans emitted)]
    exact List.mem_singleton_self _
  cases stepCase next with
  | hold inputs same => cases mem (os := []) (by rw [same, List.append_nil])
  | edgeEtd m w rest inputs steps => exact absurd (mem steps.outputs) (packet_not_mem_edgeOut _ _)
  | edgePls m w rest inputs steps => exact absurd (mem steps.outputs) (packet_not_mem_plsEdgeOut _ _ _)
  | byte m b rest inputs steps =>
    obtain ⟨rfl, rfl, on, rfl, digits, line, value⟩ := packet_mem_byteOut (mem steps.outputs)
    exact ⟨rest, digits, inputs, on, line, value, rfl⟩
  | offEtd _ _ _ _ _ steps | offPls _ _ _ _ _ steps | offTel _ _ _ _ _ steps => cases mem steps.outputs

end Sys2Proof.Machine
end

section
/-! PROOFS. A run of bytes at one TEL unit, read line by line (R79, R131), and the telegram on it (R140, R159). -/

namespace Sys2Proof

/-! ## Trimming a line as it comes over the wire (R67) -/

/-- Whitespace at the end of a line is trimmed with what it ends in. -/
theorem trim_append_of_isWs (line : Bytes) {b : Byte} (white : isWs b = true) : trim (line ++ [b]) = trim line := by
  unfold trim
  rw [List.dropWhile_append]
  cases h : line.dropWhile isWs with
  | nil => simp [white]
  | cons c rest => simp [white]

theorem isWs_of_isHexDigit : ∀ b : Byte, Machine.isHexDigit b = true → isWs b = false := by decide

end Sys2Proof

namespace Sys2Proof.Machine

/-- A line that can be sent: trimmed, and without the separator (R229). -/
def Sendable (line : Bytes) : Prop := trim line = line ∧ Config.eol ∉ line

theorem sendable_of_no_ws {line : Bytes} (h : ∀ b ∈ line, isWs b = false) : Sendable line :=
  ⟨trim_of_ends (fun b hb => h b (List.mem_of_head? hb)) (fun b hb => h b (List.mem_of_getLast? hb)),
    fun eol => by cases h _ eol⟩

/-! ## A run of bytes -/

/-- A TEL unit and what has been emitted, after one more byte. -/
def takeByte (n : Nat) (x : Tel × List Output) (b : Byte) : Tel × List Output :=
  (x.1.afterByte b, x.2 ++ x.1.byteOut n b)

/-- A TEL unit and what has been emitted, after one more line. -/
def takeLine (n : Nat) (x : Tel × List Output) (line : Bytes) : Tel × List Output :=
  (x.1.afterLine line, x.2 ++ x.1.lineOut n line)

/-- The bytes of one TEL unit give their fold over the unit and the outputs. -/
theorem run_bytes {n : Nat} {rest : List Transaction} (bytes : Bytes) {s : State}
    (given : s.inputs = bytes.map (Transaction.byte n) ++ rest) :
    ∃ t, Host.Core.run Sys2Proof.core bytes.length s = .next t ∧ t.inputs = rest ∧
      (t.tel n, t.outputs) = bytes.foldl (takeByte n) (s.tel n, s.outputs) := by
  induction bytes generalizing s with
  | nil => exact ⟨s, rfl, given, rfl⟩
  | cons b bytes ih =>
    obtain ⟨s', next, st⟩ := step_tel (s := s) given
    obtain ⟨t, run, inputs, taken⟩ := ih st.inputs
    rw [st.self, st.outputs] at taken
    exact ⟨t, (run_succ (M := Sys2Proof.core) next _).trans run, inputs, taken⟩

/-- The events of lines are the bytes of their text. -/
theorem flatMap_lineEvents (n : Nat) (lines : List Bytes) :
    lines.flatMap (lineEvents n) = (frameText lines).map (Transaction.byte n) := List.map_flatMap.symm

section
variable {n : Nat} {t : Tel} {os : List Output}

/-- Bytes other than the separator gather in the line buffer. -/
theorem foldl_takeByte_of_data {bytes : Bytes} (data : Config.eol ∉ bytes) :
    bytes.foldl (takeByte n) (t, os) = ({ t with lineBuf := t.lineBuf ++ bytes }, os) := by
  induction bytes generalizing t with
  | nil => simp
  | cons b bytes ih =>
    obtain ⟨ne, data⟩ := List.ne_and_not_mem_of_not_mem_cons data
    have one : takeByte n (t, os) b = (t.appendLine b, os) := by
      simp [takeByte, Tel.afterByte, Tel.byteOut, ne.symm]
    rw [List.foldl_cons, one, ih data]
    simp [Tel.appendLine]

/-- A line and CRLF, with nothing buffered before, are the line performed (R131). -/
theorem foldl_takeByte_line {line : Bytes} (ok : Sendable line) (empty : t.lineBuf = []) :
    (line ++ crlf).foldl (takeByte n) (t, os) = takeLine n (t, os) line := by
  obtain ⟨trimmed, data⟩ := ok
  have buffered : Config.eol ∉ line ++ [0x0D] := by simpa using ⟨data, by decide⟩
  have wire : line ++ crlf = (line ++ [0x0D]) ++ [Config.eol] := by simp [crlf, Config.eol]
  have performed : trim (line ++ [0x0D]) = line := (trim_append_of_isWs line rfl).trans trimmed
  have cleared : Tel.clearLine { t with lineBuf := line ++ [0x0D] } = t := by rw [Tel.clearLine, ← empty]
  rw [wire, List.foldl_append, foldl_takeByte_of_data buffered, empty, List.nil_append]
  simp only [List.foldl_cons, List.foldl_nil, takeByte, takeLine, Tel.afterByte, Tel.byteOut, if_pos, performed,
    cleared]

/-- The text of lines is the lines performed one after another. -/
theorem foldl_takeByte_frameText {lines : List Bytes} (ok : ∀ l ∈ lines, Sendable l) (empty : t.lineBuf = []) :
    (frameText lines).foldl (takeByte n) (t, os) = lines.foldl (takeLine n) (t, os) := by
  induction lines generalizing t os with
  | nil => rfl
  | cons line lines ih =>
    obtain ⟨first, others⟩ := List.forall_mem_cons.1 ok
    have split : frameText (line :: lines) = (line ++ crlf) ++ frameText lines := List.flatMap_cons
    rw [split, List.foldl_append, foldl_takeByte_line first empty, List.foldl_cons]
    exact ih others ((afterLine_lineBuf line).trans empty)

end

/-! ## The lines of a frame (R133 to R135) -/

/-- The unit is in a frame of these lines, between lines, with this packet. -/
def Tel.HoldsFrame (t : Tel) (text : List Bytes) (p : Packet) : Prop :=
  t.lineBuf = [] ∧ t.reading = true ∧ t.rawFrame = frameText text ∧ t.packet = p

section
variable {n : Nat} {t : Tel} {os : List Output} {text : List Bytes} {p : Packet}

theorem takeLine_start (empty : t.lineBuf = []) (off : t.reading = false) (header : Bytes) :
    ∃ u, takeLine n (t, os) (chSlash :: header) = (u, os) ∧ u.HoldsFrame [chSlash :: header] (zeroPacket header) := by
  have cls := (lineClass_start_iff t.reading (chSlash :: header)).2 ⟨off, rfl⟩
  refine ⟨t.afterLine (chSlash :: header), ?_, ?_⟩
  · simp only [takeLine, Tel.lineOut, cls, List.append_nil]
  · simp only [Tel.afterLine, cls]
    exact ⟨empty, rfl, (List.append_nil _).symm, rfl⟩

/-- A line that raises nothing emits nothing. -/
theorem contentOut_of_not_raises {line : Bytes} (quiet : lineRaises line = false) : contentOut n line = [] := by
  unfold contentOut lineError
  cases parseField line <;> simp [quiet]

theorem takeLine_content (h : t.HoldsFrame text p) {line : Bytes} (content : line.head? ≠ some chBang)
    (quiet : lineRaises line = false) :
    ∃ u, takeLine n (t, os) line = (u, os) ∧ u.HoldsFrame (text ++ [line]) (packetAfterLine p line) := by
  obtain ⟨empty, on, raw, rfl⟩ := h
  have cls := (lineClass_content_iff t.reading line).2 ⟨on, content⟩
  refine ⟨t.afterLine line, ?_, ?_⟩
  · simp only [takeLine, Tel.lineOut, cls, contentOut_of_not_raises quiet, List.append_nil]
  · simp only [Tel.afterLine, cls, Tel.afterContent, quiet, Bool.false_eq_true, if_false]
    exact ⟨empty, on, by simp [raw, frameText], rfl⟩

/-- Content lines that raise nothing go into the frame, and each writes its field into the packet (R159). -/
theorem foldl_takeLine_content {lines : List Bytes}
    (ok : ∀ l ∈ lines, l.head? ≠ some chBang ∧ lineRaises l = false) (h : t.HoldsFrame text p) :
    ∃ u, lines.foldl (takeLine n) (t, os) = (u, os) ∧
      u.HoldsFrame (text ++ lines) (lines.foldl packetAfterLine p) := by
  induction lines generalizing t text p with
  | nil => exact ⟨t, rfl, by simpa using h⟩
  | cons line lines ih =>
    obtain ⟨⟨content, quiet⟩, others⟩ := List.forall_mem_cons.1 ok
    obtain ⟨u, taken, h'⟩ := takeLine_content (n := n) (os := os) h content quiet
    obtain ⟨v, taken', h''⟩ := ih others h'
    exact ⟨v, by rw [List.foldl_cons, taken, taken'], by simpa using h''⟩

/-- The end line whose digits state the checksum of the frame emits its packet (R134). -/
theorem takeLine_end (h : t.HoldsFrame text p) {digits : Bytes}
    (value : checksumOperand digits = some (crc16 (frameText text ++ [chBang])).toNat) :
    ∃ u, takeLine n (t, os) (chBang :: digits) = (u, os ++ [.packet n p]) ∧ u.reading = false ∧ u.lineBuf = [] := by
  obtain ⟨empty, on, raw, rfl⟩ := h
  have cls := (lineClass_finish_iff t.reading (chBang :: digits)).2 ⟨on, rfl⟩
  refine ⟨t.afterLine (chBang :: digits), ?_, ?_, (afterLine_lineBuf _).trans empty⟩
  · simp only [takeLine, Tel.lineOut, cls, raw, List.drop_one, List.tail_cons, value, if_pos]
  · rw [afterLine_reading_of_on on]
    rfl

end

/-! ## Four hexadecimal digits (R140) -/

theorem hexChar_isDigit : ∀ v < 16, isHexDigit (hexChar v) = true ∧ hexValue (hexChar v) = v := by decide

theorem isHexDigit_of_mem_hex4 {c : BitVec 16} {b : Byte} (h : b ∈ hex4 c) : isHexDigit b = true := by
  have digit (v : Nat) (lt : v < 16) : isHexDigit (hexChar v) = true := (hexChar_isDigit v lt).1
  simp only [hex4, List.mem_cons, List.not_mem_nil, or_false] at h
  obtain rfl | rfl | rfl | rfl := h <;> exact digit _ (by omega)

/-- The four digits state the number they are made of. -/
theorem checksumOperand_hex4 (c : BitVec 16) : checksumOperand (hex4 c) = some c.toNat := by
  have value (v : Nat) (lt : v < 16) : hexValue (hexChar v) = v := (hexChar_isDigit v lt).2
  refine checksumOperand_eq_some_iff.2 ⟨nofun, fun b => isHexDigit_of_mem_hex4, ?_⟩
  rw [← foldl_digits_eq_ofDigits, hex4]
  simp only [List.foldl_cons, List.foldl_nil]
  rw [value _ (by omega), value _ (by omega), value _ (by omega), value _ (by omega)]
  omega

/-- The end line can be sent. -/
theorem sendable_end (c : BitVec 16) : Sendable (chBang :: hex4 c) :=
  sendable_of_no_ws (List.forall_mem_cons.2 ⟨rfl, fun b hb => isWs_of_isHexDigit b (isHexDigit_of_mem_hex4 hb)⟩)

/-! ## The telegram (R140) -/

/-- Settles O59: the bytes of the run are read as lines; the start line opens the frame, the content lines fill it, and
the end line states its checksum. -/
theorem telegramRoundTrip : Obligations.TelegramRoundTrip := by
  intro s n header lines rest text endLine events off empty sendable quiet given
  have wire : events = (frameText (text ++ [endLine])).map (Transaction.byte n) := flatMap_lineEvents ..
  have allSendable : ∀ l ∈ text ++ [endLine], Sendable l :=
    List.forall_mem_append.2 ⟨sendable, List.forall_mem_singleton.2 (sendable_end _)⟩
  obtain ⟨t, run, inputs, taken⟩ := run_bytes (frameText (text ++ [endLine])) (wire ▸ given)
  obtain ⟨u, opened, h⟩ := takeLine_start (n := n) (os := s.outputs) empty off header
  obtain ⟨v, filled, h'⟩ := foldl_takeLine_content (n := n) (os := s.outputs) quiet h
  obtain ⟨w, ended, off', empty'⟩ := takeLine_end (n := n) (os := s.outputs) h' (checksumOperand_hex4 _)
  have lineByLine : (text ++ [endLine]).foldl (takeLine n) (s.tel n, s.outputs) =
      (w, s.outputs ++ [.packet n (lines.foldl packetAfterLine (zeroPacket header))]) := by
    rw [List.foldl_append, List.foldl_cons]
    exact (congrArg (takeLine n · endLine) ((congrArg (lines.foldl (takeLine n)) opened).trans filled)).trans ended
  rw [foldl_takeByte_frameText allSendable empty, lineByLine] at taken
  obtain ⟨tel, outputs⟩ := Prod.mk.inj taken
  have count : events.length = (frameText (text ++ [endLine])).length := by rw [wire, List.length_map]
  exact ⟨t, count ▸ run, inputs, outputs, tel ▸ off', tel ▸ empty'⟩

end Sys2Proof.Machine
end

section
/-! PROOFS. The field classes (R135, R150 to R158): the two outcomes of a class with a numeric operand, and the classes
performed. -/

namespace Sys2Proof.Machine

/-! ## The two outcomes of a numeric class (R150, R160, R196) -/

section
variable {s : State} {n : Nat} {operand : Option Nat} (code : ErrorCode) (line : Bytes)
  (write : Packet → BitVec 64 → Packet)

theorem numericField_of_value {v : Nat} (on : (s.tel n).reading = true) (value : operand = some v) :
    numericField n code line operand write s =
      .next (s.setTel n { s.tel n with packet := write (s.tel n).packet (BitVec.ofNat 64 v) }) :=
  (whenSelected_pos on _).trans (by rw [value])

theorem numericField_of_failed (on : (s.tel n).reading = true) (failed : operand = none) :
    numericField n code line operand write s =
      .next ((s.setTel n (s.tel n).stopReading).emit (.error n code line 0)) :=
  (whenSelected_pos on _).trans (by rw [failed]; rfl)

end

/-! ## The numeric classes (R153 to R157) -/

section
variable (s : State) (n : Nat) (value1 : Bytes) (groups : List Bytes)

theorem exec_fieldTariff : exec (.fieldTariff n value1 groups) s =
    numericField n .fieldTariff (fieldText oidTariff value1 groups) (tariffOperand value1)
      (fun p v => { p with tariff := v }) s := rfl

theorem exec_fieldLow : exec (.fieldLow n value1 groups) s =
    kwhField n oidLow value1 groups (fun p v => { p with lowConsumedWh := v }) s := rfl

theorem exec_fieldHigh : exec (.fieldHigh n value1 groups) s =
    kwhField n oidHigh value1 groups (fun p v => { p with highConsumedWh := v }) s := rfl

theorem exec_fieldCurrent : exec (.fieldCurrent n value1 groups) s =
    kwhField n oidCurrent value1 groups (fun p v => { p with currentConsumedWh := v }) s := rfl

/-- FIELD.GAS at each of its four identifiers. -/
def gasInstrs : List (Instr × Bytes) :=
  [(.fieldGas1 n value1 groups, oidGas1), (.fieldGas2 n value1 groups, oidGas2),
    (.fieldGas3 n value1 groups, oidGas3), (.fieldGas4 n value1 groups, oidGas4)]

/-- The four are one class: the identifier appears in the reported line alone. -/
theorem exec_fieldGas {x : Instr × Bytes} (gas : x ∈ gasInstrs n value1 groups) :
    exec x.1 s = gasField n x.2 value1 groups s := by
  simp only [gasInstrs, List.mem_cons, List.not_mem_nil, or_false] at gas
  obtain rfl | rfl | rfl | rfl := gas <;> rfl

end

/-! ## The classes performed -/

/-- Settles O27: each is selected by `reading` and its own condition. -/
theorem unparsedLinesHaveNoEffect : Obligations.UnparsedLinesHaveNoEffect := fun _ _ _ _ _ _ on =>
  ⟨fun noMatch => whenSelected_pos ⟨on, noMatch⟩ _, fun other => whenSelected_pos ⟨on, other⟩ _⟩

/-- Settles O30: `reading` alone selects FIELD.EID, and a string has no maximal length (R5). -/
theorem fieldEidStoresString : Obligations.FieldEidStoresString := fun _ _ value1 _ on =>
  (whenSelected_pos on _).trans (whenFits_strMax value1.length _)

/-- Settles O31, outcome by outcome. -/
theorem fieldTariffStoresOrAborts : Obligations.FieldTariffStoresOrAborts := fun _ _ _ _ on =>
  ⟨fun _ value => (exec_fieldTariff ..).trans (numericField_of_value _ _ _ on value),
    fun failed => (exec_fieldTariff ..).trans (numericField_of_failed _ _ _ on failed)⟩

/-- Settles O32: outcome by outcome, each class with its own field and identifier. -/
theorem fieldKwhStoresOrAborts : Obligations.FieldKwhStoresOrAborts := by
  intro s n value1 groups on p store abort
  constructor
  · intro v value
    have stored (oid : Bytes) (write : Packet → BitVec 64 → Packet) :
        kwhField n oid value1 groups write s = .next (store (write p (BitVec.ofNat 64 v))) :=
      numericField_of_value _ _ write on value
    exact ⟨(exec_fieldLow ..).trans (stored ..), (exec_fieldHigh ..).trans (stored ..),
      (exec_fieldCurrent ..).trans (stored ..)⟩
  · intro failed
    have aborted (oid : Bytes) (write : Packet → BitVec 64 → Packet) :
        kwhField n oid value1 groups write s = .next (abort oid) :=
      numericField_of_failed _ _ write on failed
    exact ⟨(exec_fieldLow ..).trans (aborted ..), (exec_fieldHigh ..).trans (aborted ..),
      (exec_fieldCurrent ..).trans (aborted ..)⟩

/-- Settles O33: outcome by outcome, for the one class of the four identifiers. -/
theorem fieldGasStoresOrAborts : Obligations.FieldGasStoresOrAborts := by
  intro s n value1 groups on
  constructor
  · intro v value i mem
    obtain ⟨x, gas, rfl⟩ : ∃ x ∈ gasInstrs n value1 groups, x.1 = i := List.mem_map.1 mem
    exact (exec_fieldGas s n value1 groups gas).trans (numericField_of_value _ _ _ on value)
  · intro failed x gas
    exact (exec_fieldGas s n value1 groups gas).trans (numericField_of_failed _ _ _ on failed)

end Sys2Proof.Machine
end

section
/-! PROOFS. The checksum (R170, R171, R173): the shift as an operation on polynomials over GF(2), its two mirror forms,
and the byte step by table. -/

namespace Sys2Proof.Machine

/-! ## The shifts as iterates -/

theorem crcShifts_eq_iterate (k : Nat) : crcShifts k = crcShift^[k] := by
  induction k with
  | zero => rfl
  | succ k ih =>
    funext c
    rw [crcShifts, ih, Function.iterate_succ_apply]

theorem crcShiftsLeft_eq_iterate (k : Nat) : crcShiftsLeft k = crcShiftLeft^[k] := by
  induction k with
  | zero => rfl
  | succ k ih =>
    funext c
    rw [crcShiftsLeft, ih, Function.iterate_succ_apply]

/-! ## The step of R170 -/

/-- Settles O37: the model's step is the eighth iterate of its shift, and the initial value and the final XOR are 0. -/
theorem crcByteStepsRegister : Obligations.CrcByteStepsRegister := by
  have step : crcByte = fun c b => crcShift^[8] (c ^^^ b.setWidth 16) := by
    funext c b
    rw [crcByte, crcShifts_eq_iterate]
  constructor
  · intro s n b
    have performed : exec (.crcByte n b) s = .next (s.setTel n { s.tel n with crc := crcByte (s.tel n).crc b }) := rfl
    rw [performed, step]
    rfl
  · intro bs
    rw [crc16_eq_crcFrom, crcFrom, step]
    rfl

/-! ## The mirror form (R171) -/

theorem reverse_xor {w : Nat} (x y : BitVec w) : (x ^^^ y).reverse = x.reverse ^^^ y.reverse := by
  ext i hi
  simp [BitVec.getElem_reverse]

/-- Mirrored, a right shift is a left shift. -/
theorem reverse_ushiftRight {w : Nat} (x : BitVec w) (k : Nat) : (x >>> k).reverse = x.reverse <<< k := by
  ext i hi
  simp only [BitVec.getElem_reverse, BitVec.getMsbD_ushiftRight, BitVec.getElem_shiftLeft]
  by_cases low : i < k <;> simp [low, hi]

/-- A byte at the low end of the register, mirrored, is the mirrored byte at its high end. -/
theorem reverse_setWidth_byte (b : Byte) : (b.setWidth 16).reverse = b.reverse.setWidth 16 <<< 8 := by
  ext i hi
  simp only [BitVec.getElem_reverse, BitVec.getMsbD_setWidth, BitVec.getElem_shiftLeft, BitVec.getElem_setWidth,
    BitVec.getLsbD_reverse]
  by_cases low : i < 8
  · simp [low]
  · simp [low, show 8 ≤ i by omega]

theorem crcShiftLeft_reverse (c : BitVec 16) : crcShiftLeft c.reverse = (crcShift c).reverse := by
  have top : c.reverse.getLsbD 15 = c.getLsbD 0 := BitVec.getLsbD_reverse
  have poly : Config.crcPolyReflected.reverse = Config.crcPoly := by decide
  rw [crcShiftLeft, crcShift, top]
  split
  · rw [reverse_xor, reverse_ushiftRight, poly]
  · rw [reverse_ushiftRight]

theorem crcByteLeft_reverse (c : BitVec 16) (b : Byte) : crcByteLeft c.reverse b = (crcByte c b).reverse := by
  have shifts : Function.Semiconj BitVec.reverse crcShift^[8] crcShiftLeft^[8] :=
    Function.Semiconj.iterate_right (fun c => (crcShiftLeft_reverse c).symm) 8
  rw [crcByteLeft, crcByte, crcShiftsLeft_eq_iterate, crcShifts_eq_iterate, ← reverse_setWidth_byte, ← reverse_xor]
  exact (shifts _).symm

/-- Settles O38: the two loops stay mirror images, from an initial value that is its own. -/
theorem crcUnreflectedFormAgrees : Obligations.CrcUnreflectedFormAgrees := by
  intro bs
  have init : Config.crcInit = Config.crcInit.reverse := by decide
  have loops : bs.foldl crcByteLeft Config.crcInit.reverse = (bs.foldl crcByte Config.crcInit).reverse :=
    List.foldl_hom BitVec.reverse crcByteLeft_reverse
  rw [crc16Unreflected, init, loops, BitVec.reverse_reverse_eq, crc16_eq_crcFrom]
  rfl

/-! ## The table form and leading zero bytes (R173, R170) -/

theorem xor_xor_xor_cancel_right {w : Nat} (x y p : BitVec w) : (x ^^^ p) ^^^ (y ^^^ p) = x ^^^ y := by
  calc
    _ = (x ^^^ y) ^^^ (p ^^^ p) := by ac_rfl
    _ = x ^^^ y := by rw [BitVec.xor_self, BitVec.xor_zero]

theorem crcShift_of_even {c : BitVec 16} (even : c.getLsbD 0 = false) : crcShift c = c >>> 1 :=
  if_neg (by rw [even]; decide)

/-- The shift is linear over GF(2): where both polynomials are added they cancel. -/
theorem crcShift_xor (c d : BitVec 16) : crcShift (c ^^^ d) = crcShift c ^^^ crcShift d := by
  simp only [crcShift, BitVec.getLsbD_xor, BitVec.ushiftRight_xor_distrib]
  cases c.getLsbD 0 <;> cases d.getLsbD 0
  case true.true => exact (xor_xor_xor_cancel_right _ _ _).symm
  case false.false => rfl
  case true.false | false.true =>
    simp only [Bool.xor_false, Bool.xor_true, Bool.not_false, if_true, Bool.false_eq_true, if_false]
    ac_rfl

theorem crcShifts_xor (k : Nat) (c d : BitVec 16) : crcShifts k (c ^^^ d) = crcShifts k c ^^^ crcShifts k d := by
  rw [crcShifts_eq_iterate]
  exact Function.Semiconj₂.iterate crcShift_xor k c d

/-- While the bits shifted out are 0, no polynomial is added. -/
theorem crcShifts_of_low_zero {k : Nat} {c : BitVec 16} (low : ∀ i < k, c.getLsbD i = false) :
    crcShifts k c = c >>> k := by
  induction k generalizing c with
  | zero => rfl
  | succ k ih =>
    have rest : ∀ i < k, (c >>> 1).getLsbD i = false := fun i hi => by
      rw [BitVec.getLsbD_ushiftRight]
      exact low _ (by omega)
    rw [crcShifts, crcShift_of_even (low 0 k.succ_pos), ih rest, ← BitVec.shiftRight_add, Nat.add_comm]

theorem crcTable_eq_crcShifts (i : Byte) : crcTable i = crcShifts 8 (i.setWidth 16) :=
  congrArg (crcShifts 8) BitVec.zero_xor

/-- R173: the high byte of the register is shifted down, the low byte and `b` give the entry of the table. -/
theorem crcByteByTable_eq (c : BitVec 16) (b : Byte) : crcByteByTable c b = crcByte c b := by
  have low_zero : ∀ i < 8, (c ^^^ (c.setWidth 8).setWidth 16).getLsbD i = false := by
    intro i hi
    simp [hi, show i < 16 by omega]
  have high : (c ^^^ (c.setWidth 8).setWidth 16) >>> 8 = c >>> 8 := by
    ext i hi
    simp
  have split : c ^^^ b.setWidth 16 = (c ^^^ (c.setWidth 8).setWidth 16) ^^^ (c.setWidth 8 ^^^ b).setWidth 16 := by
    rw [BitVec.setWidth_xor, ← BitVec.xor_assoc, BitVec.xor_assoc c, BitVec.xor_self, BitVec.xor_zero]
  rw [crcByteByTable, crcTable_eq_crcShifts, crcByte, split, crcShifts_xor, crcShifts_of_low_zero low_zero, high]

theorem crcByte_zero_zero : crcByte 0 0 = 0 := by decide

theorem crc16_append (s t : Bytes) : crc16 (s ++ t) = t.foldl crcByte (crc16 s) := by
  rw [crc16_eq_crcFrom, crcFrom_append, ← crc16_eq_crcFrom, crcFrom]

theorem crc16_zeros (k : Nat) : crc16 (List.replicate k 0) = 0 := by
  induction k with
  | zero => rfl
  | succ k ih => rw [List.replicate_succ', crc16_append, ih]; exact crcByte_zero_zero

/-- Settles O39, part by part. -/
theorem crcIncrementalAndTableForms : Obligations.CrcIncrementalAndTableForms := by
  refine ⟨crc16_append, crcByteByTable_eq, fun k s => ?_⟩
  rw [crc16_append, crc16_zeros, crc16_eq_crcFrom]
  rfl

end Sys2Proof.Machine
end

section
/-! PROOFS. The system (R180, R181, R188): the control operations, and that the outputs of a step are none or one of the
unit that takes the input. -/

namespace Sys2Proof.Machine

/-! ## RESET and CANCEL (R180, R188) -/

/-- Settles O40: both are the write of the unit's reset value, for each kind of unit; `0xFE` is -2 in 8 bits. -/
theorem resetAndCancelLoadResetValues : Obligations.ResetAndCancelLoadResetValues := fun _ _ =>
  ⟨rfl, rfl, rfl, rfl, rfl, rfl⟩

/-! ## The outputs of one input (R181) -/

section
variable (n : Nat)

theorem verdictOut_cases (v : Verdict) : v.out n = [] ∨ ∃ temp hum, v.out n = [.reading n temp hum] := by
  cases v with
  | accept temp hum => exact .inr ⟨temp, hum, rfl⟩
  | reject r => exact .inl rfl

theorem finishOut_cases (e : Etd) : e.finishOut n = [] ∨ ∃ temp hum, e.finishOut n = [.reading n temp hum] := by
  unfold Etd.finishOut
  split_ifs
  · exact verdictOut_cases n _
  · exact .inl rfl

/-- An edge event makes an ETD unit emit nothing or one reading: of the interval classes only a bit emits. -/
theorem edgeOut_cases (e : Etd) (tick : Tick) :
    e.edgeOut n tick = [] ∨ ∃ temp hum, e.edgeOut n tick = [.reading n temp hum] := by
  unfold Etd.edgeOut
  split_ifs
  · exact .inl rfl
  · cases ivlEffect n e (interval e.prev tick) with
    | bit b cls range on pos after out => rw [out]; exact finishOut_cases n _
    | sync _ _ out | idle _ _ _ out | pre _ _ _ _ out | inv _ _ _ _ _ out => exact .inl out

/-- An edge event makes a PLS unit emit nothing or one unit. -/
theorem plsEdgeOut_cases (p : Pls) (level : Bool) (tick : Tick) :
    p.edgeOut n level tick = [] ∨ p.edgeOut n level tick = [.pulseUnit n] := by
  unfold Pls.edgeOut plsOut
  split_ifs
  · exact .inl rfl
  · cases plsClass level (interval p.prev tick) with
    | pulse => exact .inr rfl
    | debounce => exact .inl rfl

theorem contentOut_cases (line : Bytes) :
    contentOut n line = [] ∨ ∃ code, contentOut n line = [.error n code line 0] := by
  unfold contentOut
  cases lineError line with
  | none => exact .inl rfl
  | some code => exact .inr ⟨code, rfl⟩

/-- A line makes a TEL unit emit nothing, one packet or one error. -/
theorem lineOut_cases (t : Tel) (line : Bytes) :
    t.lineOut n line = [] ∨ (∃ p, t.lineOut n line = [.packet n p]) ∨
      ∃ code crc, t.lineOut n line = [.error n code line crc] := by
  unfold Tel.lineOut
  cases Sys2Proof.lineClass t.reading line with
  | start | skip => exact .inl rfl
  | finish =>
    cases checksumOperand (line.drop 1) with
    | none => exact .inr (.inr ⟨_, _, rfl⟩)
    | some tx =>
      dsimp only
      split_ifs
      · exact .inr (.inl ⟨_, rfl⟩)
      · exact .inr (.inr ⟨_, _, rfl⟩)
  | content =>
    obtain quiet | ⟨code, one⟩ := contentOut_cases n line
    · exact .inl quiet
    · exact .inr (.inr ⟨code, 0, one⟩)

/-- Only the separator makes a TEL unit emit. -/
theorem byteOut_cases (t : Tel) (b : Byte) :
    t.byteOut n b = [] ∨ b = Config.eol ∧
      ((∃ p, t.byteOut n b = [.packet n p]) ∨ ∃ code line crc, t.byteOut n b = [.error n code line crc]) := by
  unfold Tel.byteOut
  split_ifs with eol
  · obtain quiet | packet | ⟨code, crc, error⟩ := lineOut_cases n t.clearLine (trim t.lineBuf)
    · exact .inl quiet
    · exact .inr ⟨eol, .inl packet⟩
    · exact .inr ⟨eol, .inr ⟨code, _, crc, error⟩⟩
  · exact .inl rfl

end

/-- Settles O51: by the cases of a step, each with the outputs its unit can emit. -/
theorem atMostOneOutputPerStep : Obligations.AtMostOneOutputPerStep := by
  intro s t next
  have nothing {os : List Output} (outputs : t.outputs = s.outputs ++ os) (quiet : os = []) :
      t.outputs = s.outputs := by rw [outputs, quiet, List.append_nil]
  have one {os : List Output} {o : Output} (outputs : t.outputs = s.outputs ++ os) (single : os = [o]) :
      t.outputs = s.outputs ++ [o] := single ▸ outputs
  cases stepCase next with
  | hold inputs same => exact .inl (congrArg State.outputs same)
  | edgeEtd n w rest inputs steps =>
    obtain quiet | ⟨temp, hum, single⟩ := edgeOut_cases n (s.etd n) (ev33Tick w)
    · exact .inl (nothing steps.outputs quiet)
    · exact .inr ⟨_, rest, .reading n temp hum, inputs, one steps.outputs single, rfl, w, rfl⟩
  | edgePls n w rest inputs steps =>
    obtain quiet | single := plsEdgeOut_cases n (s.pls n) (ev33Level w) (ev33Tick w)
    · exact .inl (nothing steps.outputs quiet)
    · exact .inr ⟨_, rest, .pulseUnit n, inputs, one steps.outputs single, rfl, w, rfl⟩
  | byte n b rest inputs steps =>
    obtain quiet | ⟨rfl, ⟨p, single⟩ | ⟨code, line, crc, single⟩⟩ := byteOut_cases n (s.tel n) b
    · exact .inl (nothing steps.outputs quiet)
    · exact .inr ⟨_, rest, .packet n p, inputs, one steps.outputs single, rfl, rfl⟩
    · exact .inr ⟨_, rest, .error n code line crc, inputs, one steps.outputs single, rfl, rfl⟩
  | offEtd _ _ _ _ _ steps | offPls _ _ _ _ _ steps | offTel _ _ _ _ _ steps =>
    exact .inl (nothing steps.outputs rfl)

end Sys2Proof.Machine
end

section
/-! PROOFS. Errors and silent rejections (R193, R196 to R198): what the error in a step's output says of the unit before
and after the step, and that a rejected frame or event leaves the outputs as they were. -/

namespace Sys2Proof.Machine

/-! ## A line that emits an error (R134, R135, R196) -/

/-- From `t` to `u` an error of this code for this line ends the frame: no packet field is written, and the line is in
`rawFrame` unless it is an end line, which alone has the checksum codes (R190, R197). -/
structure FrameEndedBy (code : ErrorCode) (line : Bytes) (t u : Tel) : Prop where
  on : t.reading = true
  off : u.reading = false
  packet : u.packet = t.packet
  rawFrame : u.rawFrame = if line.head? = some chBang then t.rawFrame else t.rawFrame ++ line ++ crlf
  checksum : line.head? = some chBang ↔ code = .checksumMismatch ∨ code = .checksumParse

section
variable {n m : Nat} {t : Tel} {line line' : Bytes} {code : ErrorCode} {computed : BitVec 16}

theorem frameEndedBy_of_end (on : t.reading = true) (ends : line.head? = some chBang)
    (checksum : code = .checksumMismatch ∨ code = .checksumParse) : FrameEndedBy code line t (t.afterLine line) := by
  have off : (t.afterLine line).reading = false := by simp [afterLine_reading_of_on on, ends]
  obtain ⟨packet, rawFrame⟩ : (t.afterLine line).packet = t.packet ∧ (t.afterLine line).rawFrame = t.rawFrame := by
    simp only [Tel.afterLine, (lineClass_finish_iff ..).2 ⟨on, ends⟩]
    split_ifs <;> exact ⟨rfl, rfl⟩
  exact ⟨on, off, packet, rawFrame.trans (if_pos ends).symm, iff_of_true ends checksum⟩

theorem frameEndedBy_of_content (on : t.reading = true) (content : line.head? ≠ some chBang)
    (raises : lineRaises line = true) (field : ¬(code = .checksumMismatch ∨ code = .checksumParse)) :
    FrameEndedBy code line t (t.afterLine line) := by
  have aborted : t.afterLine line = (t.appendFrame line).stopReading := by
    simp only [Tel.afterLine, (lineClass_content_iff ..).2 ⟨on, content⟩]
    exact if_pos raises
  rw [aborted]
  exact ⟨on, rfl, rfl, (List.append_assoc ..).symm.trans (if_neg content).symm, iff_of_false content field⟩

/-- A content line that raises an error has one of the field codes (R190). -/
theorem lineError_eq_some (raised : lineError line = some code) :
    lineRaises line = true ∧ ¬(code = .checksumMismatch ∨ code = .checksumParse) := by
  unfold lineError at raised
  split at raised
  · cases raised
  · split_ifs at raised with quiet
    refine ⟨Bool.eq_true_of_not_eq_false quiet, ?_⟩
    split at raised <;> cases raised <;> decide

theorem error_mem_contentOut (emitted : .error m code line' computed ∈ contentOut n line) :
    line' = line ∧ lineRaises line = true ∧ ¬(code = .checksumMismatch ∨ code = .checksumParse) := by
  unfold contentOut at emitted
  cases raised : lineError line with
  | none => simp [raised] at emitted
  | some c =>
    obtain ⟨-, rfl, rfl, -⟩ : m = n ∧ code = c ∧ line' = line ∧ computed = 0 := by simpa [raised] using emitted
    exact ⟨rfl, lineError_eq_some raised⟩

/-- Of the line classes only LINE.END and LINE.CONTENT emit an error, for the line performed. -/
theorem error_mem_lineOut (emitted : .error m code line' computed ∈ t.lineOut n line) :
    line' = line ∧ FrameEndedBy code line t (t.afterLine line) := by
  unfold Tel.lineOut at emitted
  split at emitted
  · cases emitted
  · cases emitted
  · next cls =>
    obtain ⟨on, ends⟩ := (lineClass_finish_iff ..).1 cls
    split at emitted
    · obtain ⟨-, parse, rfl, -⟩ : m = n ∧ code = .checksumParse ∧ line' = line ∧ computed = 0 := by
        simpa using emitted
      exact ⟨rfl, frameEndedBy_of_end on ends (.inr parse)⟩
    · split_ifs at emitted
      · simp at emitted
      · obtain ⟨-, mismatch, rfl, -⟩ : m = n ∧ code = .checksumMismatch ∧ line' = line ∧ computed = _ := by
          simpa using emitted
        exact ⟨rfl, frameEndedBy_of_end on ends (.inl mismatch)⟩
  · next cls =>
    obtain ⟨on, content⟩ := (lineClass_content_iff ..).1 cls
    obtain ⟨rfl, raises, field⟩ := error_mem_contentOut emitted
    exact ⟨rfl, frameEndedBy_of_content on content raises field⟩

end

/-- Settles O56: only the separator makes a unit emit an error, and what the line it completes does is
`error_mem_lineOut`. -/
theorem errorEndsFramePrecisely : Obligations.ErrorEndsFramePrecisely := by
  intro s t n code line computed next emitted
  obtain same | ⟨x, rest, o, inputs, outputs, -, source⟩ := atMostOneOutputPerStep s t next
  · simp [same] at emitted
  · obtain rfl : o = .error n code line computed := by simpa using outputs.symm.trans emitted
    obtain rfl : x = .byte n Config.eol := source
    have steps := holds_of_step next (step_tel inputs)
    have single : (s.tel n).clearLine.lineOut n (trim (s.tel n).lineBuf) = [.error n code line computed] :=
      List.append_cancel_left (steps.outputs.symm.trans emitted)
    have after : t.tel n = (s.tel n).clearLine.afterLine (trim (s.tel n).lineBuf) := steps.self
    obtain ⟨rfl, ended⟩ := error_mem_lineOut (single ▸ List.mem_singleton_self _)
    rw [after]
    exact ⟨ended.on, ended.off, rfl, afterLine_lineBuf _, ended.packet, ended.rawFrame, ended.checksum⟩

/-! ## Silent rejections (R193) -/

section
variable {n : Nat} {s s' t : State} {r : RejectReason}

theorem verdictOut_of_reason {v : Verdict} (rejected : v.reason = some r) : v.out n = [] := by
  cases v with
  | accept temp hum => cases rejected
  | reject r => rfl

theorem finishOut_of_reason {e : Etd} (rejected : (doneVerdict e.code).reason = some r) : e.finishOut n = [] := by
  unfold Etd.finishOut
  split_ifs
  · exact verdictOut_of_reason rejected
  · rfl

/-- A guarded write emits nothing. -/
theorem outputs_of_whenSelected {c : Prop} [Decidable c] (next : whenSelected c (.next s') = .next t) :
    t.outputs = s'.outputs := by
  obtain ⟨-, written⟩ := whenSelected_next.1 next
  cases written
  rfl

/-- A bit that would complete a frame which DONE rejects emits nothing. -/
theorem outputs_of_bit_rejected (b : Bool) {ivl : Tick} (next : exec ((bitClass b).toInstr n ivl) s = .next t)
    (rejected : (doneVerdict ((s.etd n).shiftIn b).code).reason = some r) : t.outputs = s.outputs := by
  have finish : finishBit n (s.setEtd n ((s.etd n).shiftIn b)) = .next t := by
    cases b with
    | false | true => exact (whenSelected_next.1 next).2
  obtain ⟨t', next', steps⟩ := finishBit_steps s n ((s.etd n).shiftIn b)
  cases finish.symm.trans next'
  rw [steps.outputs, finishOut_of_reason rejected, List.append_nil]

theorem outputs_of_done_rejected (next : exec (.done n) s = .next t)
    (rejected : (doneVerdict (s.etd n).code).reason = some r) : t.outputs = s.outputs := by
  obtain ⟨full, -⟩ := whenSelected_next.1 next
  obtain ⟨t', next', steps⟩ := execDone_steps full
  cases next.symm.trans next'
  rw [steps.outputs, verdictOut_of_reason rejected, List.append_nil]

end

/-- Settles O58, operation by operation: the rows of R193 that DONE decides, and the operations that only write. -/
theorem silentRejectionsEmitNothing : Obligations.SilentRejectionsEmitNothing := by
  intro i s t r next rejected
  cases i with
  | bit0 n ivl =>
    obtain ⟨-, rejected⟩ := Option.ite_none_right_eq_some.1 rejected
    exact outputs_of_bit_rejected false next rejected
  | bit1 n ivl =>
    obtain ⟨-, rejected⟩ := Option.ite_none_right_eq_some.1 rejected
    exact outputs_of_bit_rejected true next rejected
  | done n => exact outputs_of_done_rejected next rejected
  | sync | inv => exact (outputs_of_whenSelected next).trans (outputs_setEtd ..)
  | debounce | lineSkip | lineNomatch | fieldOther => exact outputs_of_whenSelected next
  | _ => cases rejected

end Sys2Proof.Machine
end
